-- ==== Sys2Proof/Word.lean ====
section
/-! DEFINITION. The word types of the block (00_scope.md R10, R14). Bit 0 is the least significant bit. -/

namespace Sys2Proof

/-- A data register or bus word: 64 bits (R10). -/
abbrev Word := BitVec 64

/-- A command word: 32 bits (R10, R91). -/
abbrev CmdWord := BitVec 32

/-- A word address on the block's bus: 20 bits, one 64-bit word each (R10, R61). -/
abbrev BusAddr := BitVec 20

/-- A byte address on a byte-addressed mapping of the block: word `a` is bytes `8a` to `8a + 7` (R64). -/
abbrev ByteAddr := BitVec 23

/-- One byte of that mapping. -/
abbrev Byte := BitVec 8

/-- `zext_64` of a command word (R14). -/
def zextCmd (w : CmdWord) : Word := w.setWidth 64

/-- `zext_64` of a bus address (R14). -/
def zextAddr (a : BusAddr) : Word := a.setWidth 64

end Sys2Proof
end

