-- ==== Sys2Proof/Config.lean ====
section
/-! DEFINITION. What one implementation of the block fixes (00_scope.md R7, R8, R9), and the free values:
constants with no body that stand for whatever the spec leaves open (R11, R12, R191, R198). -/

namespace Sys2Proof

/-- A floating-point format `F`: binary32 or binary64 (R8). -/
inductive Fmt where
  | b32
  | b64
  deriving DecidableEq, Repr

/-- `FIR_LAST_TAP` (R9): whether the last FIR coefficient takes part in the output (R172). -/
inductive LastTap where
  | dropped
  | used
  deriving DecidableEq, Repr

/-- The implementation parameters of the block. A machine carries one such record in its state; no step
writes it. -/
structure Config where
  /-- `MAX_STAGES` (R7). -/
  maxStages : Nat
  /-- `AP_MAX_CAP` (R7). -/
  apMaxCap : Nat
  /-- `FIR_MAX_ORDER` (R7). -/
  firMaxOrder : Nat
  /-- `FMT[UV]` (R8). -/
  fmtUv : Fmt
  /-- `FMT[IIR]` (R8). -/
  fmtIir : Fmt
  /-- `FMT[FIR]` (R8). -/
  fmtFir : Fmt
  /-- `FMT[GREEN]` (R8). -/
  fmtGreen : Fmt
  /-- `FMT[RED]` (R8). -/
  fmtRed : Fmt
  /-- `FMT[SIGMOID]` (R8). -/
  fmtSigmoid : Fmt
  /-- `FMT[HARD]` (R8). -/
  fmtHard : Fmt
  /-- `FIR_LAST_TAP` (R9). -/
  firLastTap : LastTap
  deriving DecidableEq, Repr

/-- The default parameter values of R7, R8 and R9 (decision D40). -/
def Config.default : Config where
  maxStages := 8
  apMaxCap := 4096
  firMaxOrder := 256
  fmtUv := .b32
  fmtIir := .b32
  fmtFir := .b32
  fmtGreen := .b32
  fmtRed := .b32
  fmtSigmoid := .b32
  fmtHard := .b32
  firLastTap := .dropped

/-- The ranges R7 gives the resource parameters. -/
def Config.ok (c : Config) : Bool :=
  decide (1 ≤ c.maxStages) && decide (c.maxStages ≤ 16) &&
  decide (2 ≤ c.apMaxCap) && decide (c.apMaxCap ≤ 4096) &&
  decide (2 ≤ c.firMaxOrder) && decide (c.firMaxOrder ≤ 4095)

/-- A draw: the name of one value the spec leaves open. `cmd` is the serial number of the command that
makes the draw (the counter `draws` of the state) and `site` the place inside that command, so that no
two draws of a run need be equal. Log entry 2. -/
structure Draw where
  cmd : Nat
  site : Nat
  deriving DecidableEq, Repr

/-- FREE VALUE: the bits of a draw. Nothing constrains them (R11 for the NaN a primitive returns, R191 and
R198 for a waveshaper outside its contract, D10 for an elementary function of a non-finite operand). -/
opaque Config.draw : Nat → Nat → Word

/-- FREE VALUE: `efu_sin` of R12 before its property P3 is imposed; a function of the format and the operand alone. -/
opaque Config.efuSin : Fmt → Word → Word

/-- FREE VALUE: `efu_cos` of R12. -/
opaque Config.efuCos : Fmt → Word → Word

/-- FREE VALUE: `efu_tan` of R12. -/
opaque Config.efuTan : Fmt → Word → Word

/-- FREE VALUE: `efu_ln` of R12 before its property P1 is imposed. -/
opaque Config.efuLn : Fmt → Word → Word

/-- FREE VALUE: `efu_exp` of R12 before its property P2 is imposed. -/
opaque Config.efuExp : Fmt → Word → Word

end Sys2Proof
end

