-- ==== Sys2Proof/Machine/Float.lean ====
section
/-! DEFINITION. The numeric model (00_scope.md R11 to R13, R16, R18): IEEE 754 binary32 and binary64 arithmetic,
correctly rounded to nearest, ties to even, computed exactly over the integers and rounded once; the
elementary function unit; the constants. A value of format `F` is carried as `pack_F` of it in a 64-bit word. -/

namespace Sys2Proof.Machine

/-! ## The two formats -/

/-- The number of explicit significand bits. -/
def mantBits : Fmt → Nat
  | .b32 => 23
  | .b64 => 52

/-- The number of exponent bits. -/
def expBits : Fmt → Nat
  | .b32 => 8
  | .b64 => 11

/-- The exponent of the unit of a subnormal: the least bit any value of the format has. -/
def minExp : Fmt → Int
  | .b32 => -149
  | .b64 => -1074

/-- How many bytes of its word a stored value of the format occupies (R37). -/
def fmtBytes : Fmt → Nat
  | .b32 => 4
  | .b64 => 8

/-- The exponent field of infinities and NaNs. -/
def maxExpField (F : Fmt) : Nat := 2 ^ expBits F - 1

/-- The part of a word that a value of format `F` occupies, the rest zero: `pack_F (flt_F r)` (R16, R37). -/
def truncF (F : Fmt) (r : Word) : Word :=
  match F with
  | .b32 => (r.setWidth 32).setWidth 64
  | .b64 => r

/-- What the bits of a value mean: a NaN, an infinity, or `± m * 2 ^ e` exactly (a zero has `m = 0`). -/
inductive FVal where
  | nan
  | inf (neg : Bool)
  | fin (neg : Bool) (m : Nat) (e : Int)
  deriving DecidableEq, Repr

/-- The meaning of a value's bits (R11). -/
def unpack (F : Fmt) (r : Word) : FVal :=
  let n := (truncF F r).toNat
  let frac := n % 2 ^ mantBits F
  let ex := n / 2 ^ mantBits F % 2 ^ expBits F
  let neg := decide (n / 2 ^ (mantBits F + expBits F) = 1)
  if ex = maxExpField F then (if frac = 0 then .inf neg else .nan)
  else if ex = 0 then .fin neg frac (minExp F)
  else .fin neg (2 ^ mantBits F + frac) (minExp F + ex - 1)

/-- The word with the given sign and magnitude bits. -/
def packSign (F : Fmt) (neg : Bool) (mag : Nat) : Word :=
  BitVec.ofNat 64 (mag + if neg then 2 ^ (mantBits F + expBits F) else 0)

/-- An infinity. -/
def infF (F : Fmt) (neg : Bool) : Word := packSign F neg (maxExpField F * 2 ^ mantBits F)

/-- A zero. -/
def zeroF (F : Fmt) (neg : Bool) : Word := packSign F neg 0

/-- The bits of a draw as a value of format `F`: any value (R191, R198, D10). -/
def drawF (F : Fmt) (d : Draw) : Word := truncF F (Config.draw d.cmd d.site)

/-- A NaN whose sign and payload are a draw (R11): any NaN of the format. -/
def nanF (F : Fmt) (d : Draw) : Word :=
  let r := (drawF F d).toNat
  let frac := r % 2 ^ mantBits F
  packSign F (decide (r / 2 ^ (mantBits F + expBits F) = 1))
    (maxExpField F * 2 ^ mantBits F + if frac = 0 then 1 else frac)

/-! ## Rounding -/

/-- `n / 2 ^ k` rounded to the nearest integer, ties to even. -/
def roundShift (n k : Nat) : Nat :=
  let q := n / 2 ^ k
  let r := n % 2 ^ k
  if 2 * r < 2 ^ k then q else if 2 ^ k < 2 * r then q + 1 else q + q % 2

/-- The exponent of the last place of the rounded value of `m * 2 ^ e` (`m` positive). -/
def lastPlace (F : Fmt) (m : Nat) (e : Int) : Int :=
  max (e + (Nat.log2 m + 1 : Nat) - (mantBits F + 1 : Nat)) (minExp F)

/-- The magnitude bits of `m * 2 ^ e` rounded to the last place `l`. A carry out of the significand moves
into the exponent field by itself. -/
def roundedMag (F : Fmt) (m : Nat) (e l : Int) : Nat :=
  let sig := if l ≤ e then m * 2 ^ (e - l).toNat else roundShift m (l - e).toNat
  (l - minExp F).toNat * 2 ^ mantBits F + sig

/-- `± m * 2 ^ e` rounded to the format, to nearest, ties to even, with gradual underflow and overflow to
infinity (R11). -/
def roundFin (F : Fmt) (neg : Bool) (m : Nat) (e : Int) : Word :=
  if m = 0 then zeroF F neg
  else packSign F neg (min (roundedMag F m e (lastPlace F m e)) (maxExpField F * 2 ^ mantBits F))

/-- `± (m * 2 ^ e) / (n * 2 ^ f)` rounded to the format (`n` positive): a quotient with enough bits, and one
more bit that says whether it is exact. -/
def roundQuot (F : Fmt) (neg : Bool) (m : Nat) (e : Int) (n : Nat) (f : Int) : Word :=
  let k := mantBits F + 4 + Nat.log2 n
  let q := m * 2 ^ k / n
  let sticky := if m * 2 ^ k % n = 0 then 0 else 1
  roundFin F neg (2 * q + sticky) (e - f - k - 1)

/-- The integer square root of `n`, built from bit `k - 1` down, onto the bits already in `r`. -/
def isqrtFrom (n : Nat) : Nat → Nat → Nat
  | 0, r => r
  | k + 1, r => isqrtFrom n k (if (r + 2 ^ k) * (r + 2 ^ k) ≤ n then r + 2 ^ k else r)

/-- `sqrt (m * 2 ^ e)` rounded to the format. -/
def roundSqrt (F : Fmt) (m : Nat) (e : Int) : Word :=
  let k : Nat := 2 * (mantBits F + 4) + (if e % 2 = 0 then 0 else 1)
  let n := m * 2 ^ k
  let r := isqrtFrom n 96 0
  roundFin F false (2 * r + if r * r = n then 0 else 1) ((e - k) / 2 - 1)

/-! ## The primitives of R11 -/

/-- The integer that `± m * 2 ^ e` is a multiple of `2 ^ g` by (`g ≤ e`). -/
def alignedInt (neg : Bool) (m : Nat) (e g : Int) : Int :=
  if neg then -((m * 2 ^ (e - g).toNat : Nat) : Int) else ((m * 2 ^ (e - g).toNat : Nat) : Int)

/-- The exact sum of two finite values, rounded. An exact zero is `-0` only if both operands are negative. -/
def addFin (F : Fmt) (s : Bool) (m : Nat) (e : Int) (t : Bool) (n : Nat) (f : Int) : Word :=
  let g := min e f
  let x := alignedInt s m e g + alignedInt t n f g
  if x = 0 then zeroF F (s && t) else roundFin F (decide (x < 0)) x.natAbs g

/-- `fadd` (R11). -/
def fadd (F : Fmt) (d : Draw) (a b : Word) : Word :=
  match unpack F a, unpack F b with
  | .nan, _ => nanF F d
  | .inf _, .nan => nanF F d
  | .inf s, .inf t => if s = t then infF F s else nanF F d
  | .inf s, .fin _ _ _ => infF F s
  | .fin _ _ _, .nan => nanF F d
  | .fin _ _ _, .inf t => infF F t
  | .fin s m e, .fin t n f => addFin F s m e t n f

/-- The value with its sign bit flipped: exact, on NaNs too (R198). -/
def fneg (F : Fmt) (a : Word) : Word :=
  truncF F a ^^^ packSign F true 0

/-- The value with its sign bit cleared. -/
def fabs (F : Fmt) (a : Word) : Word :=
  truncF F a &&& ~~~ packSign F true 0

/-- `fsub` (R11): IEEE 754 subtraction is addition of the negated second operand. -/
def fsub (F : Fmt) (d : Draw) (a b : Word) : Word := fadd F d a (fneg F b)

/-- `fmul` (R11). -/
def fmul (F : Fmt) (d : Draw) (a b : Word) : Word :=
  match unpack F a, unpack F b with
  | .nan, _ => nanF F d
  | .inf _, .nan => nanF F d
  | .inf s, .inf t => infF F (s != t)
  | .inf s, .fin t n _ => if n = 0 then nanF F d else infF F (s != t)
  | .fin _ _ _, .nan => nanF F d
  | .fin s m _, .inf t => if m = 0 then nanF F d else infF F (s != t)
  | .fin s m e, .fin t n f => roundFin F (s != t) (m * n) (e + f)

/-- `fdiv` (R11). -/
def fdiv (F : Fmt) (d : Draw) (a b : Word) : Word :=
  match unpack F a, unpack F b with
  | .nan, _ => nanF F d
  | .inf _, .nan => nanF F d
  | .inf _, .inf _ => nanF F d
  | .inf s, .fin t _ _ => infF F (s != t)
  | .fin _ _ _, .nan => nanF F d
  | .fin s _ _, .inf t => zeroF F (s != t)
  | .fin s m e, .fin t n f =>
    if n = 0 then (if m = 0 then nanF F d else infF F (s != t))
    else roundQuot F (s != t) m e n f

/-- `fsqrt` (R11). -/
def fsqrt (F : Fmt) (d : Draw) (a : Word) : Word :=
  match unpack F a with
  | .nan => nanF F d
  | .inf s => if s then nanF F d else infF F false
  | .fin s m e => if m = 0 then zeroF F s else if s then nanF F d else roundSqrt F m e

/-! ## The quiet comparisons of R11 -/

/-- `a < b`: false when an operand is NaN; `-0 < +0` is false. -/
def ltF (F : Fmt) (a b : Word) : Bool :=
  match unpack F a, unpack F b with
  | .nan, _ => false
  | .inf _, .nan => false
  | .inf s, .inf t => s && !t
  | .inf s, .fin _ _ _ => s
  | .fin _ _ _, .nan => false
  | .fin _ _ _, .inf t => !t
  | .fin s m e, .fin t n f => decide (alignedInt s m e (min e f) < alignedInt t n f (min e f))

/-- The value is a NaN. -/
def isNan (F : Fmt) (a : Word) : Bool :=
  match unpack F a with
  | .nan => true
  | .inf _ => false
  | .fin _ _ _ => false

/-- The value is neither a NaN nor an infinity. -/
def isFinite (F : Fmt) (a : Word) : Bool :=
  match unpack F a with
  | .nan => false
  | .inf _ => false
  | .fin _ _ _ => true

/-- `a > b`. -/
def gtF (F : Fmt) (a b : Word) : Bool := ltF F b a

/-- `a <= b`: false when an operand is NaN. -/
def leF (F : Fmt) (a b : Word) : Bool := !isNan F a && !isNan F b && !ltF F b a

/-- `a >= b`. -/
def geF (F : Fmt) (a b : Word) : Bool := leF F b a

/-! ## Integers and constants -/

/-- `to_F n` (R16). -/
def ofNatF (F : Fmt) (n : Nat) : Word := roundFin F false n 0

/-- `floor_uint v` of a non-negative finite value (R16); 0 outside the range its callers keep to. -/
def floorUint (F : Fmt) (v : Word) : Nat :=
  match unpack F v with
  | .nan => 0
  | .inf _ => 0
  | .fin s m e => if s then 0 else if 0 ≤ e then m * 2 ^ e.toNat else m / 2 ^ (-e).toNat

/-- `C_F(n / d)`: the value of format `F` nearest to a positive decimal literal of the source (R13). -/
def litF (F : Fmt) (n d : Nat) : Word := roundQuot F false n 0 d 0

/-- `1.0`. -/
def oneF (F : Fmt) : Word := ofNatF F 1

/-- `2.0`. -/
def twoF (F : Fmt) : Word := ofNatF F 2

/-- `+infinity`. -/
def posInf (F : Fmt) : Word := infF F false

/-- `PI_F` (R13). Thirty-six digits decide the nearest value in both formats. -/
def piF (F : Fmt) : Word := litF F 314159265358979323846264338327950288 (10 ^ 35)

/-- `clamp(v, lo, hi)` of R18: a NaN `v` gives `lo`. -/
def clampF (F : Fmt) (v lo hi : Word) : Word :=
  if geF F v lo then (if gtF F v hi then hi else v) else lo

/-! ## The elementary function unit (R12) -/

/-- The result of an elementary function: what the unit computes from a finite operand, a draw for a non-finite
one (D10, U2, U5, U6). -/
def efuApply (f : Fmt → Word → Word) (F : Fmt) (d : Draw) (x : Word) : Word :=
  if isFinite F x then truncF F (f F (truncF F x)) else drawF F d

/-- `efu_sin`, with P3: for a finite operand the result is finite and at most 1 in magnitude. A unit with P3 is
left as it is. -/
def efuSin (F : Fmt) (d : Draw) (x : Word) : Word :=
  let v := efuApply Config.efuSin F d x
  if isFinite F x then (if leF F (fabs F v) (oneF F) then v else zeroF F false) else v

/-- `efu_cos`. -/
def efuCos (F : Fmt) (d : Draw) (x : Word) : Word := efuApply Config.efuCos F d x

/-- `efu_tan`. -/
def efuTan (F : Fmt) (d : Draw) (x : Word) : Word := efuApply Config.efuTan F d x

/-- `efu_ln`, with P1: `efu_ln(1) = +0`. -/
def efuLn (F : Fmt) (d : Draw) (x : Word) : Word :=
  if truncF F x = oneF F then zeroF F false else efuApply Config.efuLn F d x

/-- `efu_exp`, with P2: `efu_exp(±0) = 1`. -/
def efuExp (F : Fmt) (d : Draw) (x : Word) : Word :=
  if fabs F x = zeroF F false then oneF F else efuApply Config.efuExp F d x

end Sys2Proof.Machine
end

