-- ==== Sys2Proof/Syntax.lean ====
section
/-! DEFINITION. The eighteen commands of CORE-CMD version 1, one constructor per row of the opcode map
(30_encoding.md R94). Every operand but the stage index is in the argument registers (R96). -/

namespace Sys2Proof

/-- A command of R94. `stage` is the value of the stage field `s`, the only immediate (R95). -/
inductive Instr where
  /-- `NOP` (R260). -/
  | nop
  /-- `AP.NEW s` (R121). -/
  | apNew (stage : Nat)
  /-- `AP.RESET s` (R123). -/
  | apReset (stage : Nat)
  /-- `AP.SETFB s` (R124). -/
  | apSetFb (stage : Nat)
  /-- `IIR.NEW` (R141). -/
  | iirNew
  /-- `IIR.SETCUT` (R143). -/
  | iirSetCut
  /-- `IIR.PROC` (R144). -/
  | iirProc
  /-- `FIR.NEW` (R161). -/
  | firNew
  /-- `FIR.SETCUT` (R162). -/
  | firSetCut
  /-- `FIR.PROC` (R170). -/
  | firProc
  /-- `WS.GREEN` (R192). -/
  | wsGreen
  /-- `WS.RED` (R194). -/
  | wsRed
  /-- `WS.SIGMOID` (R196). -/
  | wsSigmoid
  /-- `WS.HARD` (R198). -/
  | wsHard
  /-- `UV.NEW` (R211). -/
  | uvNew
  /-- `UV.SETSR` (R226). -/
  | uvSetSr
  /-- `UV.RESET` (R225). -/
  | uvReset
  /-- `UV.PROC` (R212). -/
  | uvProc
  deriving DecidableEq, Repr

end Sys2Proof
end

