-- ==== Sys2Proof/WellFormed.lean ====
section
/-! DEFINITION. Well-formedness of a command: its stage index fits the 8-bit field (30_encoding.md R92, R95).
Whether the stage exists (`s < MAX_STAGES`) depends on the configuration and is the command's own check (R99, R120). -/

namespace Sys2Proof

/-- The stage index fits the field `s = w[23:16]`. -/
def stageFits (k : Nat) : Bool := decide (k < 256)

/-- The one check a command must pass to be encodable. -/
def Instr.wellFormed : Instr → Bool
  | .nop => true
  | .apNew k => stageFits k
  | .apReset k => stageFits k
  | .apSetFb k => stageFits k
  | .iirNew => true
  | .iirSetCut => true
  | .iirProc => true
  | .firNew => true
  | .firSetCut => true
  | .firProc => true
  | .wsGreen => true
  | .wsRed => true
  | .wsSigmoid => true
  | .wsHard => true
  | .uvNew => true
  | .uvSetSr => true
  | .uvReset => true
  | .uvProc => true

end Sys2Proof
end

