-- ==== Sys2Proof/Decode.lean ====
section
/-! DEFINITION. Decoding a command word (30_encoding.md R92, R94, R98, R99), total on all words, and the encoder. -/

namespace Sys2Proof

/-- Why a word is no command (R98, R99, in the order R99 checks). -/
inductive IllegalWord where
  /-- `w[15:0] != 0`. -/
  | reservedBits
  /-- `w[31:24]` is no assigned opcode. -/
  | unassignedOp
  /-- `w[23:16] != 0` in a command that is not `AP.*`. -/
  | stageField
  deriving DecidableEq, Repr

/-- What decoding answers: a command, or the reason the word is illegal. -/
inductive Decoded where
  | command (i : Instr)
  | illegal (r : IllegalWord)
  deriving DecidableEq, Repr

/-- The opcode `op = w[31:24] = (unit, fn)` (R92). -/
def opField (w : CmdWord) : BitVec 8 := w.extractLsb' 24 8

/-- The stage field `s = w[23:16]` (R92). -/
def stageField (w : CmdWord) : BitVec 8 := w.extractLsb' 16 8

/-- The reserved field `z = w[15:0]` (R92). -/
def reservedField (w : CmdWord) : BitVec 16 := w.extractLsb' 0 16

/-- A row of R94 that is not `AP.*`: legal only with a stage field of zero (R99). -/
def plainRow (w : CmdWord) (i : Instr) : Decoded :=
  if stageField w = 0 then .command i else .illegal .stageField

/-- The opcode map of R94, applied to a word whose reserved field is zero. -/
def decodeOp (w : CmdWord) : Decoded :=
  match (opField w).toNat with
  | 0x00 => plainRow w .nop
  | 0x10 => .command (.apNew (stageField w).toNat)
  | 0x11 => .command (.apReset (stageField w).toNat)
  | 0x12 => .command (.apSetFb (stageField w).toNat)
  | 0x20 => plainRow w .iirNew
  | 0x21 => plainRow w .iirSetCut
  | 0x22 => plainRow w .iirProc
  | 0x30 => plainRow w .firNew
  | 0x31 => plainRow w .firSetCut
  | 0x32 => plainRow w .firProc
  | 0x40 => plainRow w .wsGreen
  | 0x41 => plainRow w .wsRed
  | 0x42 => plainRow w .wsSigmoid
  | 0x43 => plainRow w .wsHard
  | 0x50 => plainRow w .uvNew
  | 0x51 => plainRow w .uvSetSr
  | 0x52 => plainRow w .uvReset
  | 0x53 => plainRow w .uvProc
  | _ => .illegal .unassignedOp

/-- `decode(w)` of R99. -/
def decode (w : CmdWord) : Decoded :=
  if reservedField w = 0 then decodeOp w else .illegal .reservedBits

/-- The opcode of each command (R94). -/
def opOf : Instr → BitVec 8
  | .nop => 0x00
  | .apNew _ => 0x10
  | .apReset _ => 0x11
  | .apSetFb _ => 0x12
  | .iirNew => 0x20
  | .iirSetCut => 0x21
  | .iirProc => 0x22
  | .firNew => 0x30
  | .firSetCut => 0x31
  | .firProc => 0x32
  | .wsGreen => 0x40
  | .wsRed => 0x41
  | .wsSigmoid => 0x42
  | .wsHard => 0x43
  | .uvNew => 0x50
  | .uvSetSr => 0x51
  | .uvReset => 0x52
  | .uvProc => 0x53

/-- The stage field of each command: its stage index for `AP.*`, zero otherwise (R94, R95). -/
def stageOf : Instr → BitVec 8
  | .apNew k => BitVec.ofNat 8 k
  | .apReset k => BitVec.ofNat 8 k
  | .apSetFb k => BitVec.ofNat 8 k
  | .nop | .iirNew | .iirSetCut | .iirProc | .firNew | .firSetCut | .firProc | .wsGreen | .wsRed
  | .wsSigmoid | .wsHard | .uvNew | .uvSetSr | .uvReset | .uvProc => 0

/-- The word of a command: `op`, `s`, and a zero reserved field, high bits first (R92, R100). -/
def encode (i : Instr) : CmdWord := opOf i ++ stageOf i ++ (0 : BitVec 16)

/-- What this decoder reads from an instruction whose bits are `w`, numbered as spec/opcode_table.json numbers
them. A command is one 32-bit word (R91); bits from `nbits` up are zero. -/
def decodeTableWord (nbits w : Nat) : Option Instr :=
  match decode (BitVec.ofNat 32 (w % 2 ^ nbits)) with
  | .command i => some i
  | .illegal _ => none

end Sys2Proof
end

