-- ==== Sys2Proof/Machine/State.lean ====
section
/-! DEFINITION. The architectural state (10_state.md), the outcomes of a step other than a next state, and the
state after a hardware reset (R40, R320). -/

namespace Sys2Proof.Machine

/-- The per-stage registers of an all-pass stage `s` (R30, R31). The buffer is in the RAM. -/
structure Stage where
  /-- `AP[s].len`, register `AP_LEN[s]`; 0 means the stage has no filter (R31). -/
  len : BitVec 32
  /-- `AP[s].idx`, register `AP_IDX[s]`: the next write position (R31). -/
  idx : BitVec 32
  /-- `AP[s].fb`, register `AP_FB[s]` (R31). -/
  fb : Word
  /-- `LFO[s]`, register `LFO_PHASE[s]` (R30). -/
  lfo : Word
  deriving DecidableEq, Repr

/-- A stage without a filter, as hardware reset leaves it (R40). -/
def Stage.empty : Stage := { len := 0, idx := 0, fb := 0, lfo := 0 }

/-- The contents of the RAMs (R31, R34) as (byte address, byte) cells of the byte-addressed mapping of R64.
Canonical form: addresses strictly rising, no cell equal to what an unlisted address reads as. -/
abbrev Memory := List Host.Cell

/-- What the host does at the block's ports: bus transactions (R62, R63), accesses on a byte-addressed mapping
(R64, R65), and the two edges of the reset input (R320). -/
inductive Event where
  /-- `RD a` (R62). -/
  | rd (a : BusAddr)
  /-- `WR a, v` (R63). -/
  | wr (a : BusAddr) (v : Word)
  /-- A read of `n` bytes at a byte address (R64, R65). -/
  | rdBytes (a : ByteAddr) (n : Nat)
  /-- A write of some bytes, lowest address first, at a byte address (R64, R65). -/
  | wrBytes (a : ByteAddr) (data : List Byte)
  /-- The reset input is asserted (R320). -/
  | assertReset
  /-- The reset input is released (R320). -/
  | releaseReset
  deriving DecidableEq, Repr

/-- The machine. Floating-point registers hold `pack_F` of their value: with a 32-bit format the high half of
the word is zero (R16, R37). The last five fields are the model's own. -/
structure State where
  /-- `CMD`: the last command word accepted for execution (R23). -/
  cmd : CmdWord
  /-- `STATUS.FAULT` (R27). -/
  fault : Bool
  /-- `STATUS.FIRWARN` (R27). -/
  firWarn : Bool
  /-- `STATUS.UV_OK` (R27). -/
  uvOk : Bool
  /-- `STATUS.IIR_OK` (R27). -/
  iirOk : Bool
  /-- `STATUS.FIR_OK` (R27). -/
  firOk : Bool
  /-- `FCODE` (R24). -/
  fcode : BitVec 8
  /-- `FINFO` (R25). -/
  finfo : Word
  /-- `RES` (R20). -/
  res : Word
  /-- `ARG0` (R20). -/
  arg0 : Word
  /-- `ARG1` (R20). -/
  arg1 : Word
  /-- `ARG2` (R20). -/
  arg2 : Word
  /-- `ARG3` (R20). -/
  arg3 : Word
  /-- `ARG4` (R20). -/
  arg4 : Word
  /-- `UV.sr` (R29). -/
  uvSr : Word
  /-- `UV.base` (R29). -/
  uvBase : Word
  /-- `UV.range` (R29). -/
  uvRange : Word
  /-- `UV.nst` (R29). -/
  uvNst : BitVec 32
  /-- `IIR.sr` (R33). -/
  iirSr : Word
  /-- `IIR.b0` (R33). -/
  iirB0 : Word
  /-- `IIR.a1` (R33). -/
  iirA1 : Word
  /-- `IIR.y1` (R33). -/
  iirY1 : Word
  /-- `FIR.sr` (R34). -/
  firSr : Word
  /-- `FIR.order` (R34). -/
  firOrder : BitVec 32
  /-- The per-stage registers; the stages `s < MAX_STAGES` exist (R31, R69). -/
  stages : Vector Stage 16
  /-- The three RAMs: `AP[s].buf`, `FIR.coef`, `FIR.hist` (R31, R34). -/
  mem : Memory
  /-- MODEL: the implementation parameters (R7, R8, R9). No step writes them. Log entry 1. -/
  cfg : Config
  /-- MODEL: the serial number of the next command that draws free values. Log entry 2. -/
  draws : Nat
  /-- MODEL: the reset input is asserted (R320). Log entry 7. -/
  inReset : Bool
  /-- MODEL: what the host does from now on, in order (R19, R73). Log entry 3. -/
  pending : List Event
  /-- MODEL: the values the reads have returned so far, first to last (R19). Log entry 3. -/
  readLog : List Word
  deriving DecidableEq, Repr

/-- Why the machine stops with a fault: there is no such reason. A fault of this hardware is latched in `STATUS`,
`FCODE` and `FINFO` and the block goes on (R290), so every fault is a next state. Safe. -/
inductive Fault where
  deriving DecidableEq, Repr

/-- Why the machine gives a step no meaning. -/
inductive Refusal where
  /-- Raised by an arm of `exec` for a command that has no meaning yet; no arm does. Safe. -/
  | notModelled (mnemonic : String)
  /-- Raised by a step whose event is a bus transaction while the reset input is asserted: "refuse", since R320 gives
  the block no behaviour then (93_implementation_defined.md U16). Safe. -/
  | transactionDuringReset
  deriving DecidableEq, Repr

/-- The hardware reset state of a block with the given parameters (R40, R320): every register zero, nothing
constructed. The RAM contents are unspecified and unreachable (R322); nothing is listed. Log entry 4. -/
def State.resetWith (c : Config) : State where
  cmd := 0
  fault := false
  firWarn := false
  uvOk := false
  iirOk := false
  firOk := false
  fcode := 0
  finfo := 0
  res := 0
  arg0 := 0
  arg1 := 0
  arg2 := 0
  arg3 := 0
  arg4 := 0
  uvSr := 0
  uvBase := 0
  uvRange := 0
  uvNst := 0
  iirSr := 0
  iirB0 := 0
  iirA1 := 0
  iirY1 := 0
  firSr := 0
  firOrder := 0
  stages := Vector.replicate 16 Stage.empty
  mem := []
  cfg := c
  draws := 0
  inReset := false
  pending := []
  readLog := []

/-- The machine right after a hardware reset, with the default parameters and no transaction pending. -/
def State.reset : State := State.resetWith Config.default

end Sys2Proof.Machine
end

