-- ==== Sys2Proof/Machine/Ops.lean ====
section
/-! DEFINITION. The named operations over the RAMs and the registers, taking a fault and returning from one
(20_memory.md, 60_exceptions.md R290, R294, 70_reset_and_hazards.md R320). -/

namespace Sys2Proof.Machine

/-! ## The RAMs, byte by byte -/

/-- What a byte of RAM that nothing has written reads as. No run can observe it (R322). Log entry 4. -/
def unwrittenByte : Byte := 0

/-- The byte at an address. -/
def memRead : Memory → Nat → Byte
  | [], _ => unwrittenByte
  | (x, y) :: t, a => if x = a then y else memRead t a

/-- One more cell in front, unless it says what an unlisted address reads as. -/
def memCons (a : Nat) (b : Byte) (m : Memory) : Memory :=
  if b = unwrittenByte then m else (a, b) :: m

/-- The memory with one byte written, in canonical form if it was. -/
def memWrite : Memory → Nat → Byte → Memory
  | [], a, b => memCons a b []
  | (x, y) :: t, a, b =>
    if a < x then memCons a b ((x, y) :: t)
    else if a = x then memCons a b t
    else (x, y) :: memWrite t a b

/-- The memory with the `n` bytes from `a` on set to zero. -/
def memClear (m : Memory) (a n : Nat) : Memory :=
  m.filter (fun c => !(decide (a ≤ c.1) && decide (c.1 < a + n)))

/-- `n` bytes from `a` on as a word, least significant byte at the lowest address (R64). -/
def memReadBytes (m : Memory) (a : Nat) : Nat → Word
  | 0 => 0
  | n + 1 => memReadBytes m a n ||| ((memRead m (a + n)).setWidth 64 <<< (8 * n))

/-- The low `n` bytes of a word written from `a` on, least significant byte at the lowest address (R64). -/
def memWriteBytes (m : Memory) (a : Nat) (v : Word) : Nat → Memory
  | 0 => m
  | n + 1 => memWrite (memWriteBytes m a v n) (a + n) (v.extractLsb' (8 * n) 8)

/-- The canonical form: addresses strictly rising, no cell equal to what an unlisted address reads as. -/
def Memory.wf : Memory → Bool
  | [] => true
  | [(_, y)] => decide (y ≠ unwrittenByte)
  | (x, y) :: (x', y') :: t => decide (y ≠ unwrittenByte) && decide (x < x') && Memory.wf ((x', y') :: t)

/-! ## The RAM words (R31, R34, R36, R64) -/

/-- The byte address of word address `a` (R64). -/
def byteAddr (a : Nat) : Nat := 8 * a

/-- The byte address of `AP[k].buf[i]` (R36). -/
def apBufAddr (k i : Nat) : Nat := byteAddr (0x10000 + 0x1000 * k + i)

/-- The byte address of `FIR.coef[i]` (R36). -/
def firCoefAddr (i : Nat) : Nat := byteAddr (0x20000 + i)

/-- The byte address of `FIR.hist[i]` (R36). -/
def firHistAddr (i : Nat) : Nat := byteAddr (0x21000 + i)

/-- The value of format `F` in the RAM word at byte address `a` (R37). -/
def ramRead (F : Fmt) (m : Memory) (a : Nat) : Word := memReadBytes m a (fmtBytes F)

/-- A value of format `F` stored in the RAM word at byte address `a` (R37). -/
def ramWrite (F : Fmt) (m : Memory) (a : Nat) (v : Word) : Memory := memWriteBytes m a v (fmtBytes F)

/-- `n` consecutive RAM words from byte address `a` on set to `+0.0`, whose bits are all zero. -/
def ramClear (m : Memory) (a n : Nat) : Memory := memClear m a (8 * n)

/-- `AP[k].buf[i]`. -/
def apBufRead (s : State) (k i : Nat) : Word := ramRead s.cfg.fmtUv s.mem (apBufAddr k i)

/-- `FIR.coef[i]`. -/
def firCoefRead (s : State) (i : Nat) : Word := ramRead s.cfg.fmtFir s.mem (firCoefAddr i)

/-- `FIR.hist[i]`. -/
def firHistRead (s : State) (i : Nat) : Word := ramRead s.cfg.fmtFir s.mem (firHistAddr i)

/-! ## The stages (R30, R31) -/

/-- The registers of stage `k`; a stage that no block has reads as empty. -/
def State.stage (s : State) (k : Nat) : Stage := (s.stages[k]?).getD Stage.empty

/-- The registers of stage `k` replaced. -/
def State.setStage (s : State) (k : Nat) (st : Stage) : State :=
  { s with stages := s.stages.setIfInBounds k st }

/-- The RAMs replaced. -/
def State.setMem (s : State) (m : Memory) : State := { s with mem := m }

/-- `f` applied for the stages `0 .. n-1`, in order. -/
def forStages (f : Nat → State → State) : Nat → State → State
  | 0, s => s
  | k + 1, s => f k (forStages f k s)

/-- Stage `k` given a zero-filled buffer of `cap` words and index 0, with the feedback and phase it had: what
`ap_resize` does (R125). -/
def apResize (cap k : Nat) (s : State) : State :=
  (s.setMem (ramClear s.mem (apBufAddr k 0) cap)).setStage k
    { s.stage k with len := BitVec.ofNat 32 cap, idx := 0 }

/-- Stage `k` cleared without a change of length or feedback: what `AP.RESET` does (R123). -/
def apClear (k : Nat) (s : State) : State :=
  (s.setMem (ramClear s.mem (apBufAddr k 0) (s.stage k).len.toNat)).setStage k
    { s.stage k with idx := 0 }

/-- Stage `k` given a new filter of `cap` words with zero feedback: what `AP.NEW` does (R121). -/
def apCreate (cap k : Nat) (s : State) : State :=
  (s.setMem (ramClear s.mem (apBufAddr k 0) cap)).setStage k
    { s.stage k with len := BitVec.ofNat 32 cap, idx := 0, fb := 0 }

/-- `LFO[k] <- +0.0`. -/
def lfoZero (k : Nat) (s : State) : State := s.setStage k { s.stage k with lfo := 0 }

/-! ## Registers written by more than one command -/

/-- `RES <- v` (R21). -/
def State.setRes (s : State) (v : Word) : State := { s with res := v }

/-- `CMD <- w` (R90). -/
def State.setCmd (s : State) (w : CmdWord) : State := { s with cmd := w }

/-- The command has made its draws; the next one makes others. Log entry 2. -/
def State.tick (s : State) : State := { s with draws := s.draws + 1 }

/-! ## Faults (60_exceptions.md) -/

/-- The causes of a fault (R281). -/
inductive FaultCause where
  /-- `ILLEGAL_CMD` (R282). -/
  | illegalCmd
  /-- `UNCONSTRUCTED` (R283). -/
  | unconstructed
  /-- `STAGE_RANGE` (R287). -/
  | stageRange
  /-- `PRECOND` (R285). -/
  | precond
  /-- `RESOURCE` (R284). -/
  | resource
  /-- `AP_LEN` (R288). -/
  | apLen
  /-- `BUS_ACCESS` (R289). -/
  | busAccess
  deriving DecidableEq, Repr

/-- The codes of R281. -/
def causeCode : FaultCause → BitVec 8
  | .illegalCmd => 0x01
  | .unconstructed => 0x02
  | .stageRange => 0x03
  | .precond => 0x04
  | .resource => 0x05
  | .apLen => 0x06
  | .busAccess => 0x07

/-- Taking a fault, `raise <Code>(info)` (R290): the latch records the first fault and keeps it; nothing else is
saved and control goes nowhere. -/
def State.raise (s : State) (c : FaultCause) (info : Word) : State :=
  if s.fault then s else { s with fault := true, fcode := causeCode c, finfo := info }

/-- A command's fault: its information word is the command word (R281). -/
def State.raiseCmd (s : State) (c : FaultCause) (i : Instr) : State := s.raise c (zextCmd (encode i))

/-- Returning from a fault, the `FAULT` part of a write to `STATUS` (R294): the latch is cleared; nothing is restored,
since entry saved nothing. -/
def State.clearFault (s : State) : State := { s with fault := false, fcode := 0, finfo := 0 }

/-! ## The reset input (R320) -/

/-- The block as the release of the reset input leaves it: the reset state of its parameters. What the host does
next, what it has read, and the count of draws are no state of the block. Log entry 7. -/
def State.hardReset (s : State) : State :=
  { State.resetWith s.cfg with draws := s.draws, pending := s.pending, readLog := s.readLog }

end Sys2Proof.Machine
end

