-- ==== Sys2Proof/Machine/Operands.lean ====
section
/-! DEFINITION. The operand forms of the commands (30_encoding.md R95, R96, 00_scope.md R16, 10_state.md R22): every operand
but the stage index is an argument register read as a value of the unit's format or as an unsigned integer. -/

namespace Sys2Proof.Machine

/-- `uint(r)`: the low 32 bits as an unsigned integer (R16). -/
def uintOf (r : Word) : Nat := (r.setWidth 32).toNat

/-- `flt_F(r)`: the value of format `F` in a register, the bits above it ignored (R16, R22). -/
def floatOf (F : Fmt) (r : Word) : Word := truncF F r

/-- `RES <- pack_F(v)` (R22). -/
def State.returnF (s : State) (F : Fmt) (v : Word) : State := s.setRes (truncF F v)

end Sys2Proof.Machine
end

