-- ==== Sys2Proof/Machine/Flags.lean ====
section
/-! DEFINITION. The `STATUS` register (10_state.md R27, R28) and the conditions that set its flags. No arithmetic command
sets a flag (R28). -/

namespace Sys2Proof.Machine

/-- One flag at its bit of the word. -/
def flagBit (b : Bool) (i : Nat) : Word := if b then (1 : Word) <<< i else 0

/-- The value a read of `STATUS` returns (R27); every bit without a name is zero. -/
def statusWord (s : State) : Word :=
  flagBit s.fault 0 ||| flagBit s.firWarn 1 ||| flagBit s.uvOk 4 ||| flagBit s.iirOk 5 ||| flagBit s.firOk 6

/-- `STATUS.FIRWARN <- 0`, the `FIRWARN` part of a write to `STATUS` (R294). -/
def State.clearFirWarn (s : State) : State := { s with firWarn := false }

/-- `WR STATUS, v` (R294): a 1 in bit 0 clears the fault latch, a 1 in bit 1 clears `FIRWARN`, nothing else happens. -/
def State.writeStatus (s : State) (v : Word) : State :=
  let s := if v.getLsbD 0 then s.clearFault else s
  if v.getLsbD 1 then s.clearFirWarn else s

/-- `warn(N, fc)` of R168: the order is odd or below 2, or the normalised cutoff is outside [0, 1] or a NaN. -/
def firWarns (F : Fmt) (n : Nat) (fc : Word) : Bool :=
  decide (n % 2 = 1) || decide (n < 2) || !(geF F fc (zeroF F false) && leF F fc (oneF F))

/-- A positive finite sample rate, the precondition of `UV.NEW` and `UV.SETSR` (R285). -/
def positiveFinite (F : Fmt) (sr : Word) : Bool := gtF F sr (zeroF F false) && ltF F sr (posInf F)

end Sys2Proof.Machine
end

