-- ==== Sys2Proof/Machine/Bus.lean ====
section
/-! DEFINITION. The address map and the two bus transactions on it, but for the writes of `CMD` (10_state.md R36, R37,
20_memory.md R61 to R70). -/

namespace Sys2Proof.Machine

/-- The mapped words of R36, by name. -/
inductive Loc where
  | cmd
  | status
  | fcode
  | finfo
  | res
  | arg0
  | arg1
  | arg2
  | arg3
  | arg4
  | uvSr
  | uvBase
  | uvRange
  | uvNst
  | iirSr
  | iirB0
  | iirA1
  | iirY1
  | firSr
  | firOrder
  /-- `AP_LEN[k]`. -/
  | apLen (k : Nat)
  /-- `AP_IDX[k]`. -/
  | apIdx (k : Nat)
  /-- `AP_FB[k]`. -/
  | apFb (k : Nat)
  /-- `LFO_PHASE[k]`. -/
  | lfoPhase (k : Nat)
  /-- `AP_BUF[k][i]`. -/
  | apBuf (k i : Nat)
  /-- `FIR_COEF[i]`. -/
  | firCoef (i : Nat)
  /-- `FIR_HIST[i]`. -/
  | firHist (i : Nat)
  deriving DecidableEq, Repr

/-- The registers outside the per-stage block (R36). -/
def locateRegister (n : Nat) : Option Loc :=
  match n with
  | 0x00 => some .cmd
  | 0x01 => some .status
  | 0x02 => some .fcode
  | 0x03 => some .finfo
  | 0x04 => some .res
  | 0x08 => some .arg0
  | 0x09 => some .arg1
  | 0x0A => some .arg2
  | 0x0B => some .arg3
  | 0x0C => some .arg4
  | 0x10 => some .uvSr
  | 0x11 => some .uvBase
  | 0x12 => some .uvRange
  | 0x13 => some .uvNst
  | 0x20 => some .iirSr
  | 0x21 => some .iirB0
  | 0x22 => some .iirA1
  | 0x23 => some .iirY1
  | 0x30 => some .firSr
  | 0x31 => some .firOrder
  | _ => none

/-- The per-stage register at offset `n` of its block: four words per stage (R36, R68). -/
def locateStage (s : State) (n : Nat) : Option Loc :=
  if s.cfg.maxStages ≤ n / 4 then none
  else if n % 4 = 0 then some (.apLen (n / 4))
  else if n % 4 = 1 then some (.apIdx (n / 4))
  else if n % 4 = 2 then some (.apFb (n / 4))
  else some (.lfoPhase (n / 4))

/-- The buffer word at offset `n` of the all-pass window: 0x1000 words per stage, mapped below the stage's
length (R36, R69). -/
def locateBuffer (s : State) (n : Nat) : Option Loc :=
  if n / 0x1000 < s.cfg.maxStages ∧ n % 0x1000 < (s.stage (n / 0x1000)).len.toNat then
    some (.apBuf (n / 0x1000) (n % 0x1000))
  else none

/-- The coefficient word at offset `n`, mapped while the filter is constructed, up to its order (R36, R69). -/
def locateCoef (s : State) (n : Nat) : Option Loc :=
  if s.firOk ∧ n ≤ s.firOrder.toNat then some (.firCoef n) else none

/-- The history word at offset `n`, mapped while the filter is constructed, below its order (R36, R69). -/
def locateHist (s : State) (n : Nat) : Option Loc :=
  if s.firOk ∧ n < s.firOrder.toNat then some (.firHist n) else none

/-- The mapped word at a bus address, or none: unmapped (R36, R68, R69). -/
def locate (s : State) (a : BusAddr) : Option Loc :=
  let n := a.toNat
  if n < 0x100 then locateRegister n
  else if n < 0x140 then locateStage s (n - 0x100)
  else if n < 0x10000 then none
  else if n < 0x20000 then locateBuffer s (n - 0x10000)
  else if n < 0x21000 then locateCoef s (n - 0x20000)
  else if n < 0x22000 then locateHist s (n - 0x21000)
  else none

/-- The value of a mapped word, extended as R37 says. -/
def loadLoc (s : State) : Loc → Word
  | .cmd => zextCmd s.cmd
  | .status => statusWord s
  | .fcode => s.fcode.setWidth 64
  | .finfo => s.finfo
  | .res => s.res
  | .arg0 => s.arg0
  | .arg1 => s.arg1
  | .arg2 => s.arg2
  | .arg3 => s.arg3
  | .arg4 => s.arg4
  | .uvSr => truncF s.cfg.fmtUv s.uvSr
  | .uvBase => truncF s.cfg.fmtUv s.uvBase
  | .uvRange => truncF s.cfg.fmtUv s.uvRange
  | .uvNst => s.uvNst.setWidth 64
  | .iirSr => truncF s.cfg.fmtIir s.iirSr
  | .iirB0 => truncF s.cfg.fmtIir s.iirB0
  | .iirA1 => truncF s.cfg.fmtIir s.iirA1
  | .iirY1 => truncF s.cfg.fmtIir s.iirY1
  | .firSr => truncF s.cfg.fmtFir s.firSr
  | .firOrder => s.firOrder.setWidth 64
  | .apLen k => (s.stage k).len.setWidth 64
  | .apIdx k => (s.stage k).idx.setWidth 64
  | .apFb k => truncF s.cfg.fmtUv (s.stage k).fb
  | .lfoPhase k => truncF s.cfg.fmtUv (s.stage k).lfo
  | .apBuf k i => apBufRead s k i
  | .firCoef i => firCoefRead s i
  | .firHist i => firHistRead s i

/-- The state after a write of a mapped word, truncated as R37 says, or none where the write is refused: a
read-only word (R63), or an index that is not below the length (R70). A write of `CMD` is not a store but a command
(R63) and is taken before this one is asked. -/
def storeLoc (s : State) (v : Word) : Loc → Option State
  | .cmd => none
  | .status => some (s.writeStatus v)
  | .fcode => none
  | .finfo => none
  | .res => some { s with res := v }
  | .arg0 => some { s with arg0 := v }
  | .arg1 => some { s with arg1 := v }
  | .arg2 => some { s with arg2 := v }
  | .arg3 => some { s with arg3 := v }
  | .arg4 => some { s with arg4 := v }
  | .uvSr => none
  | .uvBase => none
  | .uvRange => none
  | .uvNst => none
  | .iirSr => none
  | .iirB0 => some { s with iirB0 := truncF s.cfg.fmtIir v }
  | .iirA1 => some { s with iirA1 := truncF s.cfg.fmtIir v }
  | .iirY1 => some { s with iirY1 := truncF s.cfg.fmtIir v }
  | .firSr => none
  | .firOrder => none
  | .apLen _ => none
  | .apIdx k =>
    if uintOf v < (s.stage k).len.toNat then some (s.setStage k { s.stage k with idx := v.setWidth 32 }) else none
  | .apFb k => some (s.setStage k { s.stage k with fb := truncF s.cfg.fmtUv v })
  | .lfoPhase k => some (s.setStage k { s.stage k with lfo := truncF s.cfg.fmtUv v })
  | .apBuf k i => some (s.setMem (ramWrite s.cfg.fmtUv s.mem (apBufAddr k i) v))
  | .firCoef i => some (s.setMem (ramWrite s.cfg.fmtFir s.mem (firCoefAddr i) v))
  | .firHist i => some (s.setMem (ramWrite s.cfg.fmtFir s.mem (firHistAddr i) v))

/-- `raise BUS_ACCESS(a)` (R289). -/
def State.raiseBus (s : State) (a : BusAddr) : State := s.raise .busAccess (zextAddr a)

/-- The value a read returned, recorded after those before it (R19). -/
def State.logRead (s : State) (v : Word) : State := { s with readLog := s.readLog ++ [v] }

/-- `RD a` (R62): the word, or 0 and a fault. -/
def busRead (s : State) (a : BusAddr) : State :=
  match locate s a with
  | some l => s.logRead (loadLoc s l)
  | none => (s.raiseBus a).logRead 0

/-- `WR a, v` of a word that is not `CMD` (R63): stored, or a fault and nothing stored. -/
def busStore (s : State) (a : BusAddr) (v : Word) : State :=
  match (locate s a).bind (storeLoc s v) with
  | some t => t
  | none => s.raiseBus a

/-- The word address that contains a byte (R64). -/
def wordOfByte (a : ByteAddr) : BusAddr := a.extractLsb' 3 20

/-- The word whose bytes are given, least significant byte first (R64). -/
def wordOfBytes : List Byte → Word
  | [] => 0
  | b :: t => b.setWidth 64 ||| (wordOfBytes t <<< 8)

/-- An access on the byte-addressed mapping that the block accepts: one whole, aligned word (R64, R65). -/
def wholeWord (a : ByteAddr) (n : Nat) : Bool := decide (n = 8) && decide (a.toNat % 8 = 0)

end Sys2Proof.Machine
end

