-- ==== Sys2Proof/Machine/AllPass.lean ====
section
/-! DEFINITION. The AllPassFilter commands (40_allpass.md). -/

namespace Sys2Proof.Machine

/-- `AP.NEW s` (R120, R121). -/
def execApNew (k : Nat) (s : State) : Host.Outcome State Fault Refusal :=
  if s.cfg.maxStages ≤ k then .next (s.raiseCmd .stageRange (.apNew k))
  else if s.cfg.apMaxCap < uintOf s.arg0 then .next (s.raiseCmd .resource (.apNew k))
  else .next (apCreate (uintOf s.arg0) k s)

/-- `AP.RESET s` (R120, R123). -/
def execApReset (k : Nat) (s : State) : Host.Outcome State Fault Refusal :=
  if s.cfg.maxStages ≤ k then .next (s.raiseCmd .stageRange (.apReset k))
  else .next (apClear k s)

/-- `AP.SETFB s` (R120, R124). -/
def execApSetFb (k : Nat) (s : State) : Host.Outcome State Fault Refusal :=
  if s.cfg.maxStages ≤ k then .next (s.raiseCmd .stageRange (.apSetFb k))
  else .next (s.setStage k { s.stage k with fb := floatOf s.cfg.fmtUv s.arg0 })

end Sys2Proof.Machine
end

