-- ==== Sys2Proof/Machine/Fir.lean ====
section
/-! DEFINITION. The FIRLowPass commands (42_fir.md). In every formula the second operand names the draw a NaN would be. -/

namespace Sys2Proof.Machine

/-! ## The design step (R163 to R167) -/

/-- `fc`, the cutoff as a fraction of the Nyquist frequency (R164). -/
def firFc (F : Fmt) (c : Nat) (cutoff sr : Word) : Word :=
  fdiv F ⟨c, 0⟩ cutoff (fdiv F ⟨c, 1⟩ sr (twoF F))

/-- `sinc_tap(i, M, fc)` (R166). -/
def firSinc (F : Fmt) (c i m : Nat) (fc : Word) : Word :=
  if i = m then fc
  else
    let k := fsub F ⟨c, 16 * i + 2⟩ (ofNatF F i) (ofNatF F m)
    fdiv F ⟨c, 16 * i + 3⟩
      (efuSin F ⟨c, 16 * i + 4⟩ (fmul F ⟨c, 16 * i + 5⟩ (fmul F ⟨c, 16 * i + 6⟩ (piF F) fc) k))
      (fmul F ⟨c, 16 * i + 7⟩ (piF F) k)

/-- `hamming(i, N)` (R167). -/
def firHamming (F : Fmt) (c i n : Nat) : Word :=
  fsub F ⟨c, 16 * i + 8⟩ (litF F 54 100)
    (fmul F ⟨c, 16 * i + 9⟩ (litF F 46 100)
      (efuCos F ⟨c, 16 * i + 10⟩
        (fdiv F ⟨c, 16 * i + 11⟩
          (fmul F ⟨c, 16 * i + 12⟩ (fmul F ⟨c, 16 * i + 13⟩ (twoF F) (piF F)) (ofNatF F i))
          (ofNatF F n))))

/-- The tap `i` of an order-`n` design, with the centre at `n div 2` (R163, R164). -/
def firTap (F : Fmt) (c n : Nat) (fc : Word) (i : Nat) : Word :=
  fmul F ⟨c, 16 * i + 14⟩ (firSinc F c i (n / 2) fc) (firHamming F c i n)

/-- The first `k` iterations of the tap loop (R165): taps written into the coefficient RAM. -/
def firWriteTaps (F : Fmt) (c n : Nat) (fc : Word) : Nat → Memory → Memory
  | 0, m => m
  | i + 1, m => ramWrite F (firWriteTaps F c n fc i m) (firCoefAddr i) (firTap F c n fc i)

/-- `design_lowpass(cutoff)` with the stored order and sample rate (R163): the warning, then `N + 1` taps. -/
def firDesign (cutoff : Word) (s : State) : State :=
  let F := s.cfg.fmtFir
  let n := s.firOrder.toNat
  let fc := firFc F s.draws cutoff s.firSr
  { s with
    firWarn := s.firWarn || firWarns F n fc
    mem := firWriteTaps F s.draws n fc (n + 1) s.mem
    draws := s.draws + 1 }

/-- `FIR.NEW` (R161). -/
def execFirNew (s : State) : Host.Outcome State Fault Refusal :=
  let n := uintOf s.arg2
  if s.cfg.firMaxOrder < n then .next (s.raiseCmd .resource .firNew)
  else
    let d := firDesign (floatOf s.cfg.fmtFir s.arg0)
      { s with firSr := floatOf s.cfg.fmtFir s.arg1, firOrder := BitVec.ofNat 32 n }
    .next { d with mem := ramClear d.mem (firHistAddr 0) n, firOk := true }

/-- `FIR.SETCUT` (R160, R162). -/
def execFirSetCut (s : State) : Host.Outcome State Fault Refusal :=
  if s.firOk then .next (firDesign (floatOf s.cfg.fmtFir s.arg0) s)
  else .next (s.raiseCmd .unconstructed .firSetCut)

/-! ## The per-sample command (R170 to R172) -/

/-- The shift of R171 for the slots `k` down to 1: each takes the sample of the slot below it. -/
def firShift (F : Fmt) : Nat → Memory → Memory
  | 0, m => m
  | i + 1, m => firShift F i (ramWrite F m (firHistAddr (i + 1)) (ramRead F m (firHistAddr i)))

/-- `push(x)` on a history of `n` samples (R171). -/
def firPush (F : Fmt) (n : Nat) (x : Word) (m : Memory) : Memory :=
  match n with
  | 0 => m
  | k + 1 => ramWrite F (firShift F k m) (firHistAddr 0) x

/-- The sum of the first `k` products, from `+0.0`, index 0 upward (R172). -/
def firDot (F : Fmt) (c : Nat) (m : Memory) : Nat → Word
  | 0 => zeroF F false
  | i + 1 =>
    fadd F ⟨c, 2 * i⟩ (firDot F c m i)
      (fmul F ⟨c, 2 * i + 1⟩ (ramRead F m (firCoefAddr i)) (ramRead F m (firHistAddr i)))

/-- The sample the push drops: `FIR.hist[N-1]`, or the input itself when there is no history (R170). -/
def firOldest (s : State) : Word :=
  if s.firOrder.toNat = 0 then floatOf s.cfg.fmtFir s.arg0 else firHistRead s (s.firOrder.toNat - 1)

/-- The RAMs after `push(x)` of `FIR.PROC`. -/
def firPushed (s : State) : Memory :=
  firPush s.cfg.fmtFir s.firOrder.toNat (floatOf s.cfg.fmtFir s.arg0) s.mem

/-- The output of `FIR.PROC` in a state (R172), for either value of `FIR_LAST_TAP` (R9). -/
def firProcValue (s : State) : Word :=
  let F := s.cfg.fmtFir
  let n := s.firOrder.toNat
  let acc := firDot F s.draws (firPushed s) n
  match s.cfg.firLastTap with
  | .dropped => acc
  | .used =>
    fadd F ⟨s.draws, 2 * n⟩ acc (fmul F ⟨s.draws, 2 * n + 1⟩ (firCoefRead s n) (firOldest s))

/-- `FIR.PROC` (R160, R170). -/
def execFirProc (s : State) : Host.Outcome State Fault Refusal :=
  if s.firOk then .next ((s.setMem (firPushed s)).returnF s.cfg.fmtFir (firProcValue s)).tick
  else .next (s.raiseCmd .unconstructed .firProc)

end Sys2Proof.Machine
end

