-- ==== Sys2Proof/Machine/Iir.lean ====
section
/-! DEFINITION. The IIRLowPass commands (41_iir.md). In every formula the second operand names the draw a NaN would be:
the command's serial number `c` and the place of the primitive. -/

namespace Sys2Proof.Machine

/-- `alpha` of `iir_coef(sr, fc)` (R142). -/
def iirAlpha (F : Fmt) (c : Nat) (sr fc : Word) : Word :=
  efuTan F ⟨c, 0⟩ (fdiv F ⟨c, 1⟩ (fmul F ⟨c, 2⟩ (piF F) fc) sr)

/-- `d = 1 + alpha`, the divisor of both coefficients (R142). -/
def iirDivisor (F : Fmt) (c : Nat) (sr fc : Word) : Word :=
  fadd F ⟨c, 3⟩ (oneF F) (iirAlpha F c sr fc)

/-- `b0` of `iir_coef(sr, fc)` (R142). -/
def iirCoefB0 (F : Fmt) (c : Nat) (sr fc : Word) : Word :=
  fdiv F ⟨c, 4⟩ (oneF F) (iirDivisor F c sr fc)

/-- `a1` of `iir_coef(sr, fc)` (R142). -/
def iirCoefA1 (F : Fmt) (c : Nat) (sr fc : Word) : Word :=
  fdiv F ⟨c, 5⟩ (fsub F ⟨c, 6⟩ (oneF F) (iirAlpha F c sr fc)) (iirDivisor F c sr fc)

/-- The coefficients computed from the stored sample rate and a cutoff, and `y1` zeroed: what `IIR.NEW` and `IIR.SETCUT`
share (R141, R143). -/
def iirRecompute (fc : Word) (s : State) : State :=
  { s with
    iirB0 := iirCoefB0 s.cfg.fmtIir s.draws s.iirSr fc
    iirA1 := iirCoefA1 s.cfg.fmtIir s.draws s.iirSr fc
    iirY1 := 0
    draws := s.draws + 1 }

/-- `IIR.NEW` (R141). -/
def execIirNew (s : State) : Host.Outcome State Fault Refusal :=
  .next { iirRecompute (floatOf s.cfg.fmtIir s.arg1) { s with iirSr := floatOf s.cfg.fmtIir s.arg0 } with
    iirOk := true }

/-- `IIR.SETCUT` (R140, R143). -/
def execIirSetCut (s : State) : Host.Outcome State Fault Refusal :=
  if s.iirOk then .next (iirRecompute (floatOf s.cfg.fmtIir s.arg0) s)
  else .next (s.raiseCmd .unconstructed .iirSetCut)

/-- `b0*x + a1*y1` (R144). -/
def iirOutput (F : Fmt) (c : Nat) (b0 a1 y1 x : Word) : Word :=
  fadd F ⟨c, 0⟩ (fmul F ⟨c, 1⟩ b0 x) (fmul F ⟨c, 2⟩ a1 y1)

/-- The output of `IIR.PROC` in a state (R144). -/
def iirProcValue (s : State) : Word :=
  iirOutput s.cfg.fmtIir s.draws s.iirB0 s.iirA1 s.iirY1 (floatOf s.cfg.fmtIir s.arg0)

/-- `IIR.PROC` (R140, R144). -/
def execIirProc (s : State) : Host.Outcome State Fault Refusal :=
  if s.iirOk then .next (({ s with iirY1 := iirProcValue s }).returnF s.cfg.fmtIir (iirProcValue s)).tick
  else .next (s.raiseCmd .unconstructed .iirProc)

end Sys2Proof.Machine
end

