-- ==== Sys2Proof/Machine/System.lean ====
section
/-! DEFINITION. The system command (45_system.md). -/

namespace Sys2Proof.Machine

/-- `NOP` (R260): nothing. `CMD` already holds its word (R90). -/
def execNop (s : State) : Host.Outcome State Fault Refusal := .next s

end Sys2Proof.Machine
end

