-- ==== Sys2Proof/Machine/UniVibe.lean ====
section
/-! DEFINITION. The UniVibe commands and the sub-blocks of its datapath (44_univibe.md): the LFO phase accumulator, the
delay computation, the fractional-delay interpolator, the stage multiplexer and the mixers. In every formula the
second operand names the draw a NaN would be. -/

namespace Sys2Proof.Machine

/-! ## Derived constants (R210) -/

/-- `base` of `uv_derive(sr)`. -/
def uvDeriveBase (F : Fmt) (c : Nat) (sr : Word) : Word := fmul F ⟨c, 0⟩ sr (litF F 5 1000)

/-- `range` of `uv_derive(sr)`. -/
def uvDeriveRange (F : Fmt) (c : Nat) (sr : Word) : Word := fmul F ⟨c, 1⟩ sr (litF F 2 1000)

/-- `capf` of `uv_derive(sr)`. -/
def uvDeriveCapf (F : Fmt) (c : Nat) (sr : Word) : Word :=
  fadd F ⟨c, 2⟩ (uvDeriveBase F c sr) (fmul F ⟨c, 3⟩ (twoF F) (uvDeriveRange F c sr))

/-- The stage capacity `cap = floor_uint(capf)`. -/
def uvCap (F : Fmt) (c : Nat) (sr : Word) : Nat := floorUint F (uvDeriveCapf F c sr)

/-- The capacity fits the delay RAM: `capf < to_F(AP_MAX_CAP) + 1.0` (R211, R226). -/
def uvCapFits (F : Fmt) (c maxCap : Nat) (sr : Word) : Bool :=
  ltF F (uvDeriveCapf F c sr) (fadd F ⟨c, 4⟩ (ofNatF F maxCap) (oneF F))

/-- `UV.sr`, `UV.base` and `UV.range` for a sample rate (R211, R226). -/
def uvSetRate (sr : Word) (s : State) : State :=
  { s with
    uvSr := sr
    uvBase := uvDeriveBase s.cfg.fmtUv s.draws sr
    uvRange := uvDeriveRange s.cfg.fmtUv s.draws sr }

/-! ## Construction (R211) -/

/-- Stage `k` as `UV.NEW` with `n` stages of capacity `cap` leaves it: a new filter below `n`, none from `n` on, and
the phase zero. -/
def uvBuildStage (n cap k : Nat) (s : State) : State :=
  lfoZero k (if k < n then apCreate cap k s else s.setStage k Stage.empty)

/-- `UV.NEW` (R211). -/
def execUvNew (s : State) : Host.Outcome State Fault Refusal :=
  let F := s.cfg.fmtUv
  let sr := floatOf F s.arg0
  let n := uintOf s.arg1
  if !positiveFinite F sr then .next (s.raiseCmd .precond .uvNew)
  else if n = 0 then .next (s.raiseCmd .precond .uvNew)
  else if s.cfg.maxStages < n then .next (s.raiseCmd .resource .uvNew)
  else if !uvCapFits F s.draws s.cfg.apMaxCap sr then .next (s.raiseCmd .resource .uvNew)
  else
    let built := forStages (uvBuildStage n (uvCap F s.draws sr)) s.cfg.maxStages (uvSetRate sr s)
    .next ({ built with uvNst := BitVec.ofNat 32 n, uvOk := true }).tick

/-! ## The stage datapath (R216 to R224) -/

/-- The arguments of `UV.PROC` that every stage receives (R212). -/
structure UvArgs where
  /-- `rate`, the LFO frequency in Hz. -/
  rate : Word
  /-- `depth`, the modulation depth. -/
  depth : Word
  /-- `feedback`. -/
  feedback : Word
  deriving DecidableEq, Repr

/-- The draw of `inc`: every stage of one `UV.PROC` receives the same `inc` (R216). No stage's own sites reach it. -/
def lfoIncDraw (c : Nat) : Draw := ⟨c, 1024⟩

/-- The draw of the advanced phase: stages with equal phases share it, bit for bit (R216), and no others do. -/
def lfoSumDraw (c : Nat) (phase : Word) : Draw := ⟨c, 1025 + 2 * phase.toNat⟩

/-- The draw of the wrapped phase, shared in the same way. -/
def lfoWrapDraw (c : Nat) (phase : Word) : Draw := ⟨c, 1026 + 2 * phase.toNat⟩

/-- Step 1 (R216): the phase after one advance, wrapped once if it reaches 1. It depends on the phase before and on
the call alone, not on the stage, so that equal phases stay equal bit for bit, NaNs too. Log entry 2. -/
def lfoAdvance (F : Fmt) (c : Nat) (phase rate sr : Word) : Word :=
  let p := fadd F (lfoSumDraw c phase) phase (fdiv F (lfoIncDraw c) rate sr)
  if geF F p (oneF F) then fsub F (lfoWrapDraw c phase) p (oneF F) else p

/-- Step 2 (R217): the LFO value of a phase. -/
def lfoValue (F : Fmt) (c k : Nat) (p : Word) : Word :=
  efuSin F ⟨c, 32 * k + 3⟩ (fmul F ⟨c, 32 * k + 4⟩ (fmul F ⟨c, 32 * k + 5⟩ (twoF F) (piF F)) p)

/-- Step 3 (R218) before the clamp. -/
def delayRaw (F : Fmt) (c k : Nat) (lfo depth base range : Word) : Word :=
  fadd F ⟨c, 32 * k + 6⟩ base (fmul F ⟨c, 32 * k + 7⟩ (fmul F ⟨c, 32 * k + 8⟩ lfo depth) range)

/-- The upper bound of the clamp of R218 for a buffer of `len` words. -/
def delayMax (F : Fmt) (c k len : Nat) : Word := fsub F ⟨c, 32 * k + 9⟩ (ofNatF F len) (oneF F)

/-- Step 3 (R218): the delay `dl`. -/
def delayClamp (F : Fmt) (c k len : Nat) (raw : Word) : Word :=
  clampF F raw (oneF F) (delayMax F c k len)

/-- Step 4 (R218): the integer part `fd` of the delay. -/
def delayFloor (F : Fmt) (dl : Word) : Nat := floorUint F dl

/-- Step 4 (R218): the fractional remainder of the delay. -/
def delayFrac (F : Fmt) (c k : Nat) (dl : Word) : Word :=
  fsub F ⟨c, 32 * k + 10⟩ dl (ofNatF F (delayFloor F dl))

/-- Step 6 (R220): the index of the tap `d` slots behind the write index, by the non-negative remainder of R18. -/
def tapIndex (w d len : Nat) : Nat := (((w : Int) - (d : Int)) % (len : Int)).toNat

/-- Step 6 (R221): the linear interpolation between the nearer tap `a` and the farther tap `b`. -/
def interpolate (F : Fmt) (c k : Nat) (a b frac : Word) : Word :=
  fadd F ⟨c, 32 * k + 11⟩
    (fmul F ⟨c, 32 * k + 12⟩ a (fsub F ⟨c, 32 * k + 13⟩ (oneF F) frac))
    (fmul F ⟨c, 32 * k + 14⟩ b frac)

/-- Step 7 (R222): the output mixer. -/
def mixOut (F : Fmt) (c k : Nat) (feedback xin interp : Word) : Word :=
  fadd F ⟨c, 32 * k + 15⟩ (fmul F ⟨c, 32 * k + 16⟩ feedback xin) interp

/-- Step 8 (R223): the write-back mixer. -/
def mixBack (F : Fmt) (c k : Nat) (feedback xin out : Word) : Word :=
  fsub F ⟨c, 32 * k + 17⟩ xin (fmul F ⟨c, 32 * k + 18⟩ feedback out)

/-- The phase stage `k` advances to in a state (R216). -/
def stagePhase (a : UvArgs) (k : Nat) (s : State) : Word :=
  lfoAdvance s.cfg.fmtUv s.draws (s.stage k).lfo a.rate s.uvSr

/-- The delay stage `k` reads at in a state (R217, R218). -/
def stageDelay (a : UvArgs) (k : Nat) (s : State) : Word :=
  let F := s.cfg.fmtUv
  let lfo := lfoValue F s.draws k (stagePhase a k s)
  delayClamp F s.draws k (s.stage k).len.toNat (delayRaw F s.draws k lfo a.depth s.uvBase s.uvRange)

/-- The fractional-delay read of stage `k` in a state (R220, R221). -/
def stageRead (a : UvArgs) (k : Nat) (s : State) : Word :=
  let F := s.cfg.fmtUv
  let dl := stageDelay a k s
  let w := (s.stage k).idx.toNat
  let len := (s.stage k).len.toNat
  let fd := delayFloor F dl
  interpolate F s.draws k (apBufRead s k (tapIndex w fd len)) (apBufRead s k (tapIndex w (fd + 1) len))
    (delayFrac F s.draws k dl)

/-- The output of stage `k` for its input `xin` in a state (R222). -/
def stageOut (a : UvArgs) (k : Nat) (xin : Word) (s : State) : Word :=
  mixOut s.cfg.fmtUv s.draws k a.feedback xin (stageRead a k s)

/-- What `stage(k, xin, …)` leaves behind (R216, R219, R224): the phase, the feedback, one buffer word, the index. -/
def stageStep (a : UvArgs) (k : Nat) (xin : Word) (s : State) : State :=
  let st := s.stage k
  let back := mixBack s.cfg.fmtUv s.draws k a.feedback xin (stageOut a k xin s)
  (s.setMem (ramWrite s.cfg.fmtUv s.mem (apBufAddr k st.idx.toNat) back)).setStage k
    { st with
      lfo := stagePhase a k s
      fb := a.feedback
      idx := BitVec.ofNat 32 ((st.idx.toNat + 1) % st.len.toNat) }

/-- The state and the signal after the stages `0 .. n-1` (R214): the multiplexer of R215 gives stage 0 the input and
every other stage the output of the one before it. -/
def stageLoop (a : UvArgs) (input : Word) (s : State) : Nat → State × Word
  | 0 => (s, input)
  | k + 1 =>
    let p := stageLoop a input s k
    (stageStep a k p.2 p.1, stageOut a k p.2 p.1)

/-! ## The per-sample command (R212, R213) -/

/-- The arguments of `UV.PROC` in a state. -/
def uvArgs (s : State) : UvArgs where
  rate := floatOf s.cfg.fmtUv s.arg1
  depth := floatOf s.cfg.fmtUv s.arg2
  feedback := floatOf s.cfg.fmtUv s.arg3

/-- Some stage below `n` has fewer than two slots (R213). -/
def shortStage (s : State) : Nat → Bool
  | 0 => false
  | k + 1 => shortStage s k || decide ((s.stage k).len.toNat < 2)

/-- `UV.PROC` (R210, R212, R213). -/
def execUvProc (s : State) : Host.Outcome State Fault Refusal :=
  let n := uintOf s.arg4
  if !s.uvOk then .next (s.raiseCmd .unconstructed .uvProc)
  else if s.uvNst.toNat < n then .next (s.raiseCmd .stageRange .uvProc)
  else if shortStage s n then .next (s.raiseCmd .apLen .uvProc)
  else
    let p := stageLoop (uvArgs s) (floatOf s.cfg.fmtUv s.arg0) s n
    .next (p.1.returnF s.cfg.fmtUv p.2).tick

/-! ## Reset and sample-rate change (R225, R226) -/

/-- `UV.RESET` (R210, R225). -/
def execUvReset (s : State) : Host.Outcome State Fault Refusal :=
  if s.uvOk then .next (forStages (fun k t => lfoZero k (apClear k t)) s.uvNst.toNat s)
  else .next (s.raiseCmd .unconstructed .uvReset)

/-- `UV.SETSR` (R210, R226). -/
def execUvSetSr (s : State) : Host.Outcome State Fault Refusal :=
  let F := s.cfg.fmtUv
  let sr := floatOf F s.arg0
  if !s.uvOk then .next (s.raiseCmd .unconstructed .uvSetSr)
  else if !positiveFinite F sr then .next (s.raiseCmd .precond .uvSetSr)
  else if !uvCapFits F s.draws s.cfg.apMaxCap sr then .next (s.raiseCmd .resource .uvSetSr)
  else
    let cap := uvCap F s.draws sr
    .next (forStages (fun k t => lfoZero k (apResize cap k t)) s.uvNst.toNat (uvSetRate sr s)).tick

end Sys2Proof.Machine
end

