-- ==== Sys2Proof/Machine/WaveShapers.lean ====
section
/-! DEFINITION. The WaveShapers commands (43_waveshapers.md): they read argument registers and write `RES` (R190). Outside
a function's contract the result is a draw (R191, R198). -/

namespace Sys2Proof.Machine

/-- The `RES` of a waveshaper of one operand: what its pseudocode gives a finite operand, a draw for any other (R191). -/
def shaped (F : Fmt) (c : Nat) (x r : Word) : Word :=
  if isFinite F x then r else drawF F ⟨c, 15⟩

/-- The pseudocode of `WS.GREEN` (R192). -/
def greenCurve (F : Fmt) (c : Nat) (x : Word) : Word :=
  if geF F x (zeroF F false) then efuLn F ⟨c, 0⟩ (fadd F ⟨c, 1⟩ x (oneF F))
  else fsub F ⟨c, 2⟩ (efuExp F ⟨c, 3⟩ (fmul F ⟨c, 4⟩ (litF F 265 100) x)) (oneF F)

/-- `WS.GREEN` (R192). -/
def execWsGreen (s : State) : Host.Outcome State Fault Refusal :=
  let F := s.cfg.fmtGreen
  let x := floatOf F s.arg0
  .next (s.returnF F (shaped F s.draws x (greenCurve F s.draws x))).tick

/-- `sqrt(1 + 0.75 * v^2)`, the root of R194 and R196. -/
def kneeRoot (F : Fmt) (c : Nat) (v : Word) : Word :=
  fsqrt F ⟨c, 0⟩ (fadd F ⟨c, 1⟩ (oneF F) (fmul F ⟨c, 2⟩ (litF F 75 100) (fmul F ⟨c, 3⟩ v v)))

/-- The pseudocode of `WS.RED` (R194). -/
def redCurve (F : Fmt) (c : Nat) (x : Word) : Word :=
  let h := fdiv F ⟨c, 4⟩ x (twoF F)
  let s := kneeRoot F c (fsub F ⟨c, 5⟩ h (oneF F))
  fsub F ⟨c, 6⟩ (fadd F ⟨c, 7⟩ (fdiv F ⟨c, 8⟩ h s) (litF F 1 2)) (litF F 3 2)

/-- `WS.RED` (R194). -/
def execWsRed (s : State) : Host.Outcome State Fault Refusal :=
  let F := s.cfg.fmtRed
  let x := floatOf F s.arg0
  .next (s.returnF F (shaped F s.draws x (redCurve F s.draws x))).tick

/-- The pseudocode of `WS.SIGMOID` (R196). -/
def sigmoidCurve (F : Fmt) (c : Nat) (x : Word) : Word :=
  let u := fsub F ⟨c, 4⟩ x (litF F 3 10)
  let s := kneeRoot F c (fdiv F ⟨c, 5⟩ u (litF F 3 10))
  fmul F ⟨c, 6⟩ (fmul F ⟨c, 7⟩ (litF F 43 100) u) s

/-- `WS.SIGMOID` (R196). -/
def execWsSigmoid (s : State) : Host.Outcome State Fault Refusal :=
  let F := s.cfg.fmtSigmoid
  let x := floatOf F s.arg0
  .next (s.returnF F (shaped F s.draws x (sigmoidCurve F s.draws x))).tick

/-- The pseudocode of `WS.HARD` (R198): `min(max(x, -t), t)` by comparison alone. -/
def hardCurve (F : Fmt) (x t : Word) : Word :=
  let lo := fneg F t
  let m := if ltF F x lo then lo else x
  if gtF F m t then t else m

/-- The operands of `WS.HARD` are inside its contract: no NaN, and `t` not negative (R198). -/
def hardContract (F : Fmt) (x t : Word) : Bool :=
  !isNan F x && !isNan F t && !ltF F t (zeroF F false)

/-- `WS.HARD` (R198). -/
def execWsHard (s : State) : Host.Outcome State Fault Refusal :=
  let F := s.cfg.fmtHard
  let x := floatOf F s.arg0
  let t := floatOf F s.arg1
  .next (s.returnF F (if hardContract F x t then hardCurve F x t else drawF F ⟨s.draws, 15⟩)).tick

end Sys2Proof.Machine
end

