-- ==== Sys2Proof/Machine/Dispatch.lean ====
section
/-! DEFINITION. The dispatch of a decoded command to its meaning, one arm per row of R94. -/

namespace Sys2Proof.Machine

def exec (i : Instr) (s : State) : Host.Outcome State Fault Refusal :=
  match i with
  | .nop => Sys2Proof.Machine.execNop s
  | .apNew k => Sys2Proof.Machine.execApNew k s
  | .apReset k => Sys2Proof.Machine.execApReset k s
  | .apSetFb k => Sys2Proof.Machine.execApSetFb k s
  | .iirNew => Sys2Proof.Machine.execIirNew s
  | .iirSetCut => Sys2Proof.Machine.execIirSetCut s
  | .iirProc => Sys2Proof.Machine.execIirProc s
  | .firNew => Sys2Proof.Machine.execFirNew s
  | .firSetCut => Sys2Proof.Machine.execFirSetCut s
  | .firProc => Sys2Proof.Machine.execFirProc s
  | .wsGreen => Sys2Proof.Machine.execWsGreen s
  | .wsRed => Sys2Proof.Machine.execWsRed s
  | .wsSigmoid => Sys2Proof.Machine.execWsSigmoid s
  | .wsHard => Sys2Proof.Machine.execWsHard s
  | .uvNew => Sys2Proof.Machine.execUvNew s
  | .uvSetSr => Sys2Proof.Machine.execUvSetSr s
  | .uvReset => Sys2Proof.Machine.execUvReset s
  | .uvProc => Sys2Proof.Machine.execUvProc s

end Sys2Proof.Machine
end

