-- ==== Sys2Proof/Machine/Issue.lean ====
section
/-! DEFINITION. Issuing a command (30_encoding.md R90, 60_exceptions.md R292), and what the block does with each thing
the host does at its ports (20_memory.md R62 to R65, 70_reset_and_hazards.md R320). -/

namespace Sys2Proof.Machine

/-- A command word is presented (R90): discarded while a fault is latched (R292), else recorded in `CMD`, decoded
and run; an illegal word faults (R98). -/
def issue (w : CmdWord) (s : State) : Host.Outcome State Fault Refusal :=
  if s.fault then .next s
  else
    match decode w with
    | .command i => exec i (s.setCmd w)
    | .illegal _ => .next ((s.setCmd w).raise .illegalCmd (zextCmd w))

/-- `WR a, v` (R63): a write of address 0 issues the command word `v[31:0]`; any other is a store. -/
def busWrite (s : State) (a : BusAddr) (v : Word) : Host.Outcome State Fault Refusal :=
  if a = 0 then issue (v.setWidth 32) s else .next (busStore s a v)

/-- One bus transaction, or one edge of the reset input, of a block whose reset input is released. -/
def transact (s : State) : Event → Host.Outcome State Fault Refusal
  | .rd a => .next (busRead s a)
  | .wr a v => busWrite s a v
  | .rdBytes a n =>
    if wholeWord a n then .next (busRead s (wordOfByte a)) else .next ((s.raiseBus (wordOfByte a)).logRead 0)
  | .wrBytes a d =>
    if wholeWord a d.length then busWrite s (wordOfByte a) (wordOfBytes d) else .next (s.raiseBus (wordOfByte a))
  | .assertReset => .next { s with inReset := true }
  | .releaseReset => .next s

/-- The same while the reset input is asserted: the block accepts no transaction, and its release leaves the reset
state (R320). -/
def transactInReset (s : State) : Event → Host.Outcome State Fault Refusal
  | .rd _ => .refused .transactionDuringReset
  | .wr _ _ => .refused .transactionDuringReset
  | .rdBytes _ _ => .refused .transactionDuringReset
  | .wrBytes _ _ => .refused .transactionDuringReset
  | .assertReset => .next s
  | .releaseReset => .next s.hardReset

/-- What the host does next, done: the block waits when there is nothing (R39, R321, R335). -/
def runEvent (s : State) : Host.Outcome State Fault Refusal :=
  match s.pending with
  | [] => .next s
  | e :: rest =>
    if s.inReset then transactInReset { s with pending := rest } e else transact { s with pending := rest } e

/-- The event by which a host issues the command word `w`: a write of `CMD`. -/
def issueEvent (w : Nat) : Event := .wr 0 (BitVec.ofNat 64 w)

end Sys2Proof.Machine
end

