-- ==== Sys2Proof/Machine/Step.lean ====
section
/-! DEFINITION. The step: one host transaction (00_scope.md R19). -/

namespace Sys2Proof.Machine

/-- One step of the machine: the next thing the host does at the ports, from start to end (R19, R66, R73). -/
def step (s : State) : Host.Outcome State Fault Refusal := runEvent s

/-- The state in which the host's next transaction writes the instruction with bits `w` to `CMD`: where this machine takes
its next instruction from (R26, R90). Nothing else changes. Log entry 3. -/
def State.withFetchWord (s : State) (nbits w : Nat) : State :=
  { s with pending := issueEvent (w % 2 ^ nbits) :: s.pending }

end Sys2Proof.Machine
end

