-- ==== Sys2Proof/Safety.lean ====
section
/-! DEFINITION. The terms the statements use: the invariant of the machine, what a command leaves unchanged, and the
stage datapath of R216 to R224 written as a relation. -/

namespace Sys2Proof.Machine

/-- A run that ended as R335 says a normal one does: nothing left to do and no fault latched. -/
def completedNormally (s : State) : Bool := s.pending.isEmpty && !s.fault

/-! ## The invariant -/

/-- The addresses of the RAM windows, in bytes (R68, R64): the all-pass, coefficient and history windows. -/
def inRamWindow (a : Nat) : Prop := byteAddr 0x10000 ≤ a ∧ a < byteAddr 0x22000

/-- A word holds a value of format `F` and nothing above it (R37). -/
def holdsF (F : Fmt) (r : Word) : Prop := truncF F r = r

/-- What every step keeps (R24, R25, R29, R31, R32 (a), R34, R37, R40, R7). -/
structure State.Inv (s : State) : Prop where
  /-- The parameters are in the ranges of R7. -/
  cfgOk : s.cfg.ok = true
  /-- The memory is in its canonical form. -/
  memWf : Memory.wf s.mem = true
  /-- Only RAM words are held in memory (R68). -/
  memInRam : ∀ c ∈ s.mem, inRamWindow c.1
  /-- `AP[k].len ≤ AP_MAX_CAP` (R31). -/
  lenFits : ∀ k, (s.stage k).len.toNat ≤ s.cfg.apMaxCap
  /-- `AP[k].idx < AP[k].len` whenever `AP[k].len > 0`, and `AP[k].idx = 0` otherwise (R32 (a)). -/
  idxBelow : ∀ k, (s.stage k).idx.toNat < (s.stage k).len.toNat ∨ ((s.stage k).len = 0 ∧ (s.stage k).idx = 0)
  /-- A stage the block does not have is never written (R7, R69). -/
  noStage : ∀ k, s.cfg.maxStages ≤ k → s.stage k = Stage.empty
  /-- `UV.nst ≤ MAX_STAGES` (R29). -/
  nstFits : s.uvNst.toNat ≤ s.cfg.maxStages
  /-- A constructed UniVibe has at least one stage (R211), one that is not has none (R40). -/
  nstBuilt : s.uvOk = true ↔ s.uvNst ≠ 0
  /-- `FIR.order ≤ FIR_MAX_ORDER` (R34). -/
  orderFits : s.firOrder.toNat ≤ s.cfg.firMaxOrder
  /-- `FCODE` and `FINFO` are 0 while no fault is latched (R24, R25). -/
  latchClear : s.fault = false → s.fcode = 0 ∧ s.finfo = 0
  /-- `FCODE` holds a code of R281 while a fault is latched. -/
  latchSet : s.fault = true → 1 ≤ s.fcode.toNat ∧ s.fcode.toNat ≤ 7
  /-- The floating-point registers hold values of their unit's format (R37). -/
  uvHolds : holdsF s.cfg.fmtUv s.uvSr ∧ holdsF s.cfg.fmtUv s.uvBase ∧ holdsF s.cfg.fmtUv s.uvRange
  /-- So do those of the stages. -/
  stageHolds : ∀ k, holdsF s.cfg.fmtUv (s.stage k).fb ∧ holdsF s.cfg.fmtUv (s.stage k).lfo
  /-- So do those of the IIR filter. -/
  iirHolds : holdsF s.cfg.fmtIir s.iirSr ∧ holdsF s.cfg.fmtIir s.iirB0 ∧ holdsF s.cfg.fmtIir s.iirA1 ∧
    holdsF s.cfg.fmtIir s.iirY1
  /-- So does that of the FIR filter. -/
  firHolds : holdsF s.cfg.fmtFir s.firSr

/-! ## What a command leaves unchanged -/

/-- The parts of the state. -/
inductive Part where
  | cmd
  | args
  | res
  /-- `STATUS.FAULT`, `FCODE`, `FINFO`. -/
  | latch
  | firWarn
  /-- `UV_OK` and the UniVibe registers. -/
  | uvRegs
  /-- `IIR_OK` and the IIR registers. -/
  | iir
  /-- `FIR_OK`, `FIR.sr`, `FIR.order`. -/
  | firRegs
  /-- The registers of every stage, by `State.stage`. -/
  | stages
  /-- Every byte of RAM, by `memRead`. -/
  | mem
  /-- The parameters, the reset input, and the host's side of the ports. -/
  | ports
  /-- The model's count of draws. -/
  | draws
  deriving DecidableEq, Repr

/-- The part is the same in both states. -/
def samePart (s t : State) : Part → Prop
  | .cmd => t.cmd = s.cmd
  | .args => t.arg0 = s.arg0 ∧ t.arg1 = s.arg1 ∧ t.arg2 = s.arg2 ∧ t.arg3 = s.arg3 ∧ t.arg4 = s.arg4
  | .res => t.res = s.res
  | .latch => t.fault = s.fault ∧ t.fcode = s.fcode ∧ t.finfo = s.finfo
  | .firWarn => t.firWarn = s.firWarn
  | .uvRegs => t.uvOk = s.uvOk ∧ t.uvSr = s.uvSr ∧ t.uvBase = s.uvBase ∧ t.uvRange = s.uvRange ∧ t.uvNst = s.uvNst
  | .iir => t.iirOk = s.iirOk ∧ t.iirSr = s.iirSr ∧ t.iirB0 = s.iirB0 ∧ t.iirA1 = s.iirA1 ∧ t.iirY1 = s.iirY1
  | .firRegs => t.firOk = s.firOk ∧ t.firSr = s.firSr ∧ t.firOrder = s.firOrder
  | .stages => ∀ k, t.stage k = s.stage k
  | .mem => ∀ a, memRead t.mem a = memRead s.mem a
  | .ports => t.cfg = s.cfg ∧ t.inReset = s.inReset ∧ t.pending = s.pending ∧ t.readLog = s.readLog
  | .draws => t.draws = s.draws

/-- Every part of the state but those listed is unchanged. -/
def changesOnly (l : List Part) (s t : State) : Prop := ∀ p, p ∉ l → samePart s t p

/-- Every byte of RAM outside the `n` bytes from `a` on is unchanged. -/
def sameMemOutside (s t : State) (a n : Nat) : Prop :=
  ∀ b, (b < a ∨ a + n ≤ b) → memRead t.mem b = memRead s.mem b

/-- The state in which exactly a fault has been latched (R290, R291). -/
def faultedState (s : State) (code : BitVec 8) (info : Word) : State :=
  { s with fault := true, fcode := code, finfo := info }

/-! ## The units (R38) -/

/-- A byte of the all-pass window. -/
def inApWindow (a : Nat) : Prop := byteAddr 0x10000 ≤ a ∧ a < byteAddr 0x20000

/-- A byte of the coefficient and history windows. -/
def inFirWindow (a : Nat) : Prop := byteAddr 0x20000 ≤ a ∧ a < byteAddr 0x22000

/-- The commands of the AllPassFilter and UniVibe. -/
def ofUniVibe : Instr → Bool
  | .nop => false
  | .apNew _ => true
  | .apReset _ => true
  | .apSetFb _ => true
  | .iirNew => false
  | .iirSetCut => false
  | .iirProc => false
  | .firNew => false
  | .firSetCut => false
  | .firProc => false
  | .wsGreen => false
  | .wsRed => false
  | .wsSigmoid => false
  | .wsHard => false
  | .uvNew => true
  | .uvSetSr => true
  | .uvReset => true
  | .uvProc => true

/-- The commands of the IIR filter. -/
def ofIir : Instr → Bool
  | .nop => false
  | .apNew _ => false
  | .apReset _ => false
  | .apSetFb _ => false
  | .iirNew => true
  | .iirSetCut => true
  | .iirProc => true
  | .firNew => false
  | .firSetCut => false
  | .firProc => false
  | .wsGreen => false
  | .wsRed => false
  | .wsSigmoid => false
  | .wsHard => false
  | .uvNew => false
  | .uvSetSr => false
  | .uvReset => false
  | .uvProc => false

/-- The commands of the FIR filter. -/
def ofFir : Instr → Bool
  | .nop => false
  | .apNew _ => false
  | .apReset _ => false
  | .apSetFb _ => false
  | .iirNew => false
  | .iirSetCut => false
  | .iirProc => false
  | .firNew => true
  | .firSetCut => true
  | .firProc => true
  | .wsGreen => false
  | .wsRed => false
  | .wsSigmoid => false
  | .wsHard => false
  | .uvNew => false
  | .uvSetSr => false
  | .uvReset => false
  | .uvProc => false

/-- The commands that return a value in `RES` (R21). -/
def returnsValue : Instr → Bool
  | .nop => false
  | .apNew _ => false
  | .apReset _ => false
  | .apSetFb _ => false
  | .iirNew => false
  | .iirSetCut => false
  | .iirProc => true
  | .firNew => false
  | .firSetCut => false
  | .firProc => true
  | .wsGreen => true
  | .wsRed => true
  | .wsSigmoid => true
  | .wsHard => true
  | .uvNew => false
  | .uvSetSr => false
  | .uvReset => false
  | .uvProc => true

/-! ## The stage datapath as a relation (R216 to R224)

Every draw is existential: whichever NaN a primitive returns, the relation holds. -/

/-- Step 1 (R216): `p` is the phase `LFO` advances to. -/
def LfoStep (F : Fmt) (lfo rate sr p : Word) : Prop :=
  ∃ d₁ d₂ d₃,
    let q := fadd F d₁ lfo (fdiv F d₂ rate sr)
    p = if geF F q (oneF F) then fsub F d₃ q (oneF F) else q

/-- Steps 2 to 4 (R217, R218): `dl` is the clamped delay for the phase `p` and a buffer of `len` words. -/
def DelayStep (F : Fmt) (p depth base range : Word) (len : Nat) (dl : Word) : Prop :=
  ∃ d₁ d₂ d₃ d₄ d₅ d₆ d₇,
    let lfo := efuSin F d₁ (fmul F d₂ (fmul F d₃ (twoF F) (piF F)) p)
    let raw := fadd F d₄ base (fmul F d₅ (fmul F d₆ lfo depth) range)
    dl = clampF F raw (oneF F) (fsub F d₇ (ofNatF F len) (oneF F))

/-- Step 6 (R220, R221): `interp` is the read at delay `dl` in a ring of `len` words with write index `w`. -/
def InterpStep (F : Fmt) (buf : Nat → Word) (w len : Nat) (dl interp : Word) : Prop :=
  ∃ d₁ d₂ d₃ d₄ d₅,
    let fd := floorUint F dl
    let frac := fsub F d₁ dl (ofNatF F fd)
    let a := buf ((((w : Int) - fd) % len).toNat)
    let b := buf ((((w : Int) - fd - 1) % len).toNat)
    interp = fadd F d₂ (fmul F d₃ a (fsub F d₄ (oneF F) frac)) (fmul F d₅ b frac)

/-- Steps 7 and 8 (R222, R223): the output and the value to write back. -/
def MixStep (F : Fmt) (feedback xin interp out wv : Word) : Prop :=
  ∃ d₁ d₂ d₃ d₄,
    out = fadd F d₁ (fmul F d₂ feedback xin) interp ∧ wv = fsub F d₃ xin (fmul F d₄ feedback out)

/-- The ten steps of one stage: from its registers `st` and its buffer `buf` before, to its registers `st'`, the word
`wv` written at the old write index, and the output `out`. -/
def StageRuns (F : Fmt) (sr base range rate depth feedback : Word) (st : Stage) (buf : Nat → Word) (xin : Word)
    (st' : Stage) (wv out : Word) : Prop :=
  ∃ p dl interp,
    LfoStep F st.lfo rate sr p ∧
    DelayStep F p depth base range st.len.toNat dl ∧
    InterpStep F buf st.idx.toNat st.len.toNat dl interp ∧
    MixStep F feedback xin interp out wv ∧
    st'.len = st.len ∧ st'.fb = feedback ∧ st'.lfo = p ∧
    st'.idx.toNat = (st.idx.toNat + 1) % st.len.toNat

/-! ## The FIR formulas as relations (R164 to R168, R172) -/

/-- `fc` of R164. -/
def FcStep (F : Fmt) (cutoff sr fc : Word) : Prop :=
  ∃ d₁ d₂, fc = fdiv F d₁ cutoff (fdiv F d₂ sr (twoF F))

/-- `sinc_tap(i, M, fc)` of R166. -/
def SincStep (F : Fmt) (i m : Nat) (fc tap : Word) : Prop :=
  if i = m then tap = fc
  else
    ∃ d₁ d₂ d₃ d₄ d₅ d₆,
      let k := fsub F d₁ (ofNatF F i) (ofNatF F m)
      tap = fdiv F d₂ (efuSin F d₃ (fmul F d₄ (fmul F d₅ (piF F) fc) k)) (fmul F d₆ (piF F) k)

/-- `hamming(i, N)` of R167. -/
def HammingStep (F : Fmt) (i n : Nat) (win : Word) : Prop :=
  ∃ d₁ d₂ d₃ d₄ d₅ d₆,
    win = fsub F d₁ (litF F 54 100)
      (fmul F d₂ (litF F 46 100)
        (efuCos F d₃ (fdiv F d₄ (fmul F d₅ (fmul F d₆ (twoF F) (piF F)) (ofNatF F i)) (ofNatF F n))))

/-- The tap `i` of R163: the product of the two. -/
def TapStep (F : Fmt) (n : Nat) (fc : Word) (i : Nat) (tap : Word) : Prop :=
  ∃ d sinc win, SincStep F i (n / 2) fc sinc ∧ HammingStep F i n win ∧ tap = fmul F d sinc win

/-- The dot product of R172: `acc` is the sum of the first `n` products, from `+0.0`, index 0 upward, one rounding per
operation. -/
def DotProduct (F : Fmt) (coef hist : Nat → Word) (n : Nat) (acc : Word) : Prop :=
  ∃ part : Nat → Word, part 0 = zeroF F false ∧
    (∀ i, i < n → ∃ d₁ d₂, part (i + 1) = fadd F d₁ (part i) (fmul F d₂ (coef i) (hist i))) ∧
    acc = part n

/-! ## The IIR formulas (R142) -/

/-- `(b0, a1) = iir_coef(sr, fc)` of R142. -/
def IirCoef (F : Fmt) (sr fc b0 a1 : Word) : Prop :=
  ∃ d₁ d₂ d₃ d₄ d₅ d₆ d₇,
    let t := fdiv F d₁ (fmul F d₂ (piF F) fc) sr
    let alpha := efuTan F d₃ t
    let d := fadd F d₄ (oneF F) alpha
    b0 = fdiv F d₅ (oneF F) d ∧ a1 = fdiv F d₆ (fsub F d₇ (oneF F) alpha) d

/-! ## The UniVibe formulas (R210) -/

/-- `(base, range, capf) = uv_derive(sr)` of R210. -/
def UvDerive (F : Fmt) (sr base range capf : Word) : Prop :=
  ∃ d₁ d₂ d₃ d₄,
    base = fmul F d₁ sr (litF F 5 1000) ∧ range = fmul F d₂ sr (litF F 2 1000) ∧
    capf = fadd F d₃ base (fmul F d₄ (twoF F) range)

/-- The capacity computed from `sr` fits a delay RAM of `maxCap` words: `capf < to_F(AP_MAX_CAP) + 1.0` (R211, R226). -/
def FitsRam (F : Fmt) (maxCap : Nat) (sr : Word) : Prop :=
  ∀ base range capf d, UvDerive F sr base range capf →
    ltF F capf (fadd F d (ofNatF F maxCap) (oneF F)) = true

/-- It does not. -/
def ExceedsRam (F : Fmt) (maxCap : Nat) (sr : Word) : Prop :=
  ∀ base range capf d, UvDerive F sr base range capf →
    ltF F capf (fadd F d (ofNatF F maxCap) (oneF F)) = false

/-! ## The address map (R36, R63) -/

/-- The read-only words of R63. -/
def readOnlyLoc : Loc → Bool
  | .fcode | .finfo | .uvSr | .uvBase | .uvRange | .uvNst | .iirSr | .firSr | .firOrder | .apLen _ => true
  | .cmd | .status | .res | .arg0 | .arg1 | .arg2 | .arg3 | .arg4 | .iirB0 | .iirA1 | .iirY1 | .apIdx _ | .apFb _
  | .lfoPhase _ | .apBuf _ _ | .firCoef _ | .firHist _ => false

/-- The words that store all 64 bits and are writable (R37). -/
def wideLoc : Loc → Bool
  | .res | .arg0 | .arg1 | .arg2 | .arg3 | .arg4 => true
  | .fcode | .finfo | .uvSr | .uvBase | .uvRange | .uvNst | .iirSr | .firSr | .firOrder | .apLen _
  | .cmd | .status | .iirB0 | .iirA1 | .iirY1 | .apIdx _ | .apFb _
  | .lfoPhase _ | .apBuf _ _ | .firCoef _ | .firHist _ => false

/-- The format of a writable word marked `FMT[u]` (R36). -/
def floatLoc (c : Config) : Loc → Option Fmt
  | .iirB0 | .iirA1 | .iirY1 => some c.fmtIir
  | .apFb _ | .lfoPhase _ | .apBuf _ _ => some c.fmtUv
  | .firCoef _ | .firHist _ => some c.fmtFir
  | .cmd | .status | .res | .arg0 | .arg1 | .arg2 | .arg3 | .arg4 | .fcode | .finfo | .uvSr | .uvBase | .uvRange
  | .uvNst | .iirSr | .firSr | .firOrder | .apLen _ | .apIdx _ => none

/-! ## The real value of a finite float, for the rounding rule of R11 -/

/-- The rational number a finite value means. -/
def ratOf (neg : Bool) (m : Nat) (e : Int) : ℚ := (if neg then -(m : ℚ) else (m : ℚ)) * (2 : ℚ) ^ e

/-- `r` is a finite value of format `F` that means `q`. -/
def Means (F : Fmt) (r : Word) (q : ℚ) : Prop := ∃ neg m e, unpack F r = .fin neg m e ∧ ratOf neg m e = q

/-- The sign bit of a value. -/
def signBit (F : Fmt) (r : Word) : Bool := (truncF F r).getLsbD (mantBits F + expBits F)

/-- The significand of a finite value is even. -/
def evenSignificand (F : Fmt) (r : Word) : Prop := (truncF F r).getLsbD 0 = false

/-- `r` is a finite value nearest to the real number `x` among all finite values of the format, and if another is as
near, `r` is the one with the even significand. -/
def NearestEven (F : Fmt) (r : Word) (x : ℝ) : Prop :=
  ∃ q : ℚ, Means F r q ∧
    ∀ (c : Word) (p : ℚ), Means F c p →
      |(q : ℝ) - x| ≤ |(p : ℝ) - x| ∧ (|(q : ℝ) - x| = |(p : ℝ) - x| → p ≠ q → evenSignificand F r)

/-- The largest finite value of the format: every significand bit set, at the last place of the largest exponent. -/
def largestFinite (F : Fmt) : ℚ := ((2 : ℚ) ^ (mantBits F + 1) - 1) * (2 : ℚ) ^ (minExp F + maxExpField F - 2)

/-- The least magnitude that rounds to an infinity: the largest finite value and half its unit in the last place. -/
def overflowBound (F : Fmt) : ℚ := largestFinite F + (2 : ℚ) ^ (minExp F + maxExpField F - 2) / 2

/-- `r` is the real number `x` correctly rounded to nearest, ties to even (R11): a finite value below the overflow
bound, the infinity of the sign of `x` from it on, and of the sign of `x` where that is not zero. -/
def CorrectlyRounded (F : Fmt) (r : Word) (x : ℝ) : Prop :=
  (|x| < (overflowBound F : ℝ) → NearestEven F r x) ∧
  ((overflowBound F : ℝ) ≤ |x| → unpack F r = .inf (decide (x < 0))) ∧
  (x ≠ 0 → signBit F r = decide (x < 0))

end Sys2Proof.Machine
end

