-- ==== Sys2Proof/Certificates/Slice0/Obligations.lean ====
section
/-! DEFINITION. The statements for the provers, from the numbered rules of the spec. -/

open Sys2Proof Sys2Proof.Machine

/-! ## Encoding -/

/-- R94, R99: decoding an encoded well-formed command gives it back, with every stage index the field admits. -/
def Obligations.DecodeOfEncodeIsTheCommand : Prop :=
  ∀ i : Instr, i.wellFormed = true → decode (encode i) = .command i

/-- R94, R98: every word that decodes to a command is that command's own word, and the command is well formed. -/
def Obligations.LegalWordIsTheEncodingOfItsCommand : Prop :=
  ∀ (w : CmdWord) (i : Instr), decode w = .command i → encode i = w ∧ i.wellFormed = true

/-- R94: a word is the command of a row if and only if `w & mask == match`; every other word is illegal. -/
def Obligations.DecodeFollowsTheOpcodeMap : Prop :=
  ∀ w : CmdWord,
    (∀ k, decode w = .command (.apNew k) ↔ w &&& 0xFF00FFFF = 0x10000000 ∧ k = ((w >>> 16) &&& 0xFF).toNat) ∧
    (∀ k, decode w = .command (.apReset k) ↔ w &&& 0xFF00FFFF = 0x11000000 ∧ k = ((w >>> 16) &&& 0xFF).toNat) ∧
    (∀ k, decode w = .command (.apSetFb k) ↔ w &&& 0xFF00FFFF = 0x12000000 ∧ k = ((w >>> 16) &&& 0xFF).toNat) ∧
    (∀ p ∈ [(Instr.nop, (0x00000000 : CmdWord)), (.iirNew, 0x20000000), (.iirSetCut, 0x21000000),
        (.iirProc, 0x22000000), (.firNew, 0x30000000), (.firSetCut, 0x31000000), (.firProc, 0x32000000),
        (.wsGreen, 0x40000000), (.wsRed, 0x41000000), (.wsSigmoid, 0x42000000), (.wsHard, 0x43000000),
        (.uvNew, 0x50000000), (.uvSetSr, 0x51000000), (.uvReset, 0x52000000), (.uvProc, 0x53000000)],
      decode w = .command p.1 ↔ w &&& 0xFFFFFFFF = p.2) ∧
    ((∃ r, decode w = .illegal r) ↔
      w &&& 0xFF00FFFF ∉ [(0x10000000 : CmdWord), 0x11000000, 0x12000000] ∧
      w ∉ [(0x00000000 : CmdWord), 0x20000000, 0x21000000, 0x22000000, 0x30000000, 0x31000000, 0x32000000, 0x40000000,
        0x41000000, 0x42000000, 0x43000000, 0x50000000, 0x51000000, 0x52000000, 0x53000000])

/-- Words of 95_test_vectors.md ENC-1 and ENC-2, one of each family, decode as listed there. -/
def Obligations.SampleWordsDecodeAsListed : Prop :=
  decode 0x00000000 = .command .nop ∧ decode 0x10070000 = .command (.apNew 7) ∧
  decode 0x11030000 = .command (.apReset 3) ∧ decode 0x12010000 = .command (.apSetFb 1) ∧
  decode 0x20000000 = .command .iirNew ∧ decode 0x32000000 = .command .firProc ∧
  decode 0x43000000 = .command .wsHard ∧ decode 0x53000000 = .command .uvProc ∧
  decode 0x20010000 = .illegal .stageField ∧ decode 0x22000001 = .illegal .reservedBits ∧
  decode 0x44000000 = .illegal .unassignedOp

/-! ## The step, reset, and the ports -/

/-- R90, R23: when the host's next transaction writes to `CMD` a word that decodes to a command, no fault is latched and the
reset input is released, the step is that command run on the state whose `CMD` holds the word, the transaction
done. The model's own interface (log entry 3): a state made by `withFetchWord` is such a state. -/
def Obligations.StepRunsTheDecodedCommand : Prop :=
  (∀ (s : State) (v : Word) (rest : List Event) (i : Instr),
    s.pending = .wr 0 v :: rest → s.inReset = false → s.fault = false → decode (v.setWidth 32) = .command i →
    step s = exec i { s with pending := rest, cmd := v.setWidth 32 }) ∧
  (∀ (s : State) (i : Instr), i.wellFormed = true → s.inReset = false → s.fault = false →
    step (s.withFetchWord 32 (encode i).toNat) = exec i { s with cmd := encode i })

/-- R98, R282: an illegal word written to `CMD` is recorded there and latches `ILLEGAL_CMD` with the word; nothing else
changes. -/
def Obligations.IllegalWordLatchesIllegalCmd : Prop :=
  ∀ (s : State) (v : Word) (rest : List Event) (r : IllegalWord),
    s.pending = .wr 0 v :: rest → s.inReset = false → s.fault = false → decode (v.setWidth 32) = .illegal r →
    step s = .next (faultedState { s with pending := rest, cmd := v.setWidth 32 } 0x01 ((v.setWidth 32).setWidth 64))

/-- R292: while `STATUS.FAULT = 1` a write to `CMD` is discarded: not stored, not decoded, not run, and raises nothing. -/
def Obligations.CommandsAreDiscardedWhileFaulted : Prop :=
  ∀ (s : State) (v : Word) (rest : List Event),
    s.pending = .wr 0 v :: rest → s.inReset = false → s.fault = true →
    step s = .next { s with pending := rest }

/-- R320, and 93_implementation_defined.md U16: every step of a block whose reset input is released answers a next state; the
assertion of the input changes no register and starts the reset, a second assertion and a release of an input that is not asserted
change nothing; while it is asserted a block with nothing to do waits, and every transaction is refused, word or byte access; and its release leaves the reset state
of the block's parameters. -/
def Obligations.StepAnswersUnlessResetIsAsserted : Prop :=
  (∀ s : State, s.inReset = false → ∃ t, step s = .next t) ∧
  (∀ (s : State) (rest : List Event), s.inReset = false → s.pending = .assertReset :: rest →
    step s = .next { s with pending := rest, inReset := true }) ∧
  (∀ (s : State) (rest : List Event), s.inReset = true → s.pending = .assertReset :: rest →
    step s = .next { s with pending := rest }) ∧
  (∀ (s : State) (rest : List Event), s.inReset = false → s.pending = .releaseReset :: rest →
    step s = .next { s with pending := rest }) ∧
  (∀ s : State, s.inReset = true → s.pending = [] → step s = .next s) ∧
  (∀ (s : State) (e : Event) (rest : List Event), s.inReset = true → s.pending = e :: rest →
    ((∃ a, e = .rd a) ∨ (∃ a v, e = .wr a v) ∨ (∃ a n, e = .rdBytes a n) ∨ (∃ a d, e = .wrBytes a d)) →
    step s = .refused .transactionDuringReset) ∧
  (∀ (s : State) (rest : List Event), s.inReset = true → s.pending = .releaseReset :: rest →
    ∃ t, step s = .next t ∧ t.inReset = false ∧ t.pending = rest ∧ t.readLog = s.readLog ∧ t.cfg = s.cfg ∧
      ∀ a : BusAddr, ∀ l, locate t a = some l → loadLoc t l = 0)

/-- R40: after a hardware reset every mapped register of R36 reads zero, whatever the parameters, and no RAM word is
mapped. -/
def Obligations.ResetRegistersReadZero : Prop :=
  ∀ (c : Config) (a : BusAddr) (l : Loc), locate (State.resetWith c) a = some l →
    loadLoc (State.resetWith c) l = 0 ∧
    (∀ k i, l ≠ .apBuf k i) ∧ (∀ i, l ≠ .firCoef i) ∧ (∀ i, l ≠ .firHist i)

/-- R39, R321: a block with nothing to do waits, and keeps all its state. -/
def Obligations.BlockWaitsForTheHost : Prop :=
  ∀ s : State, s.pending = [] → step s = .next s

/-! ## The invariant -/

/-- The reset state of every legal configuration meets the invariant. -/
def Obligations.ResetMeetsTheInvariant : Prop :=
  State.reset.Inv ∧ ∀ c : Config, c.ok = true → (State.resetWith c).Inv

/-- Every step keeps the invariant: the index of every buffer below its length (R32 (a)), the lengths and the
counts within their limits (R29, R31, R34), the fault latch consistent (R24, R25), the registers within their formats (R37), the
memory canonical and inside the RAM windows. -/
def Obligations.EveryStepKeepsTheInvariant : Prop :=
  ∀ s t : State, s.Inv → step s = .next t → t.Inv

/-! ## The bus -/

/-- R36, R68, R69: the address map, window by window, and what is unmapped in each. -/
def Obligations.AddressMapIsTheTable : Prop :=
  ∀ s : State,
    (∀ k r, k < 16 → r < 4 → locate s (BitVec.ofNat 20 (0x00100 + 4 * k + r)) =
      if k < s.cfg.maxStages then
        some (if r = 0 then .apLen k else if r = 1 then .apIdx k else if r = 2 then .apFb k else .lfoPhase k)
      else none) ∧
    (∀ k i, k < 16 → i < 0x1000 → locate s (BitVec.ofNat 20 (0x10000 + 0x1000 * k + i)) =
      if k < s.cfg.maxStages ∧ i < (s.stage k).len.toNat then some (.apBuf k i) else none) ∧
    (∀ i, i < 0x1000 → locate s (BitVec.ofNat 20 (0x20000 + i)) =
      if s.firOk = true ∧ i ≤ s.firOrder.toNat then some (.firCoef i) else none) ∧
    (∀ i, i < 0x1000 → locate s (BitVec.ofNat 20 (0x21000 + i)) =
      if s.firOk = true ∧ i < s.firOrder.toNat then some (.firHist i) else none) ∧
    (∀ p ∈ [(0x00000, Loc.cmd), (0x00001, .status), (0x00002, .fcode), (0x00003, .finfo), (0x00004, .res), (0x00008, .arg0),
        (0x00009, .arg1), (0x0000A, .arg2), (0x0000B, .arg3), (0x0000C, .arg4), (0x00010, .uvSr), (0x00011, .uvBase),
        (0x00012, .uvRange), (0x00013, .uvNst), (0x00020, .iirSr), (0x00021, .iirB0), (0x00022, .iirA1),
        (0x00023, .iirY1), (0x00030, .firSr), (0x00031, .firOrder)],
      locate s (BitVec.ofNat 20 p.1) = some p.2) ∧
    (∀ a : BusAddr, a.toNat ∉ [0x0, 0x1, 0x2, 0x3, 0x4, 0x8, 0x9, 0xA, 0xB, 0xC, 0x10, 0x11, 0x12, 0x13, 0x20, 0x21,
        0x22, 0x23, 0x30, 0x31] →
      (a.toNat < 0x100 ∨ (0x140 ≤ a.toNat ∧ a.toNat < 0x10000) ∨ 0x22000 ≤ a.toNat) → locate s a = none)

/-- R62, R67, R289, R293, R23 to R37: a read of a mapped word returns it and changes nothing else, and this is what each word
reads as, extended with zeros to 64 bits; a read of an unmapped address returns 0 and latches `BUS_ACCESS` with the address,
unless a fault is latched already. -/
def Obligations.ReadReturnsTheWordOrFaults : Prop :=
  ∀ (s : State) (a : BusAddr) (rest : List Event), s.pending = .rd a :: rest → s.inReset = false →
    let reads (w : Word) : Prop := step s = .next { s with pending := rest, readLog := s.readLog ++ [w] }
    (∀ l, locate s a = some l → reads (loadLoc s l)) ∧
    (∀ p ∈ [(0x00000, s.cmd.setWidth 64), (0x00001, statusWord s), (0x00002, s.fcode.setWidth 64), (0x00003, s.finfo),
        (0x00004, s.res), (0x00008, s.arg0), (0x00009, s.arg1), (0x0000A, s.arg2), (0x0000B, s.arg3), (0x0000C, s.arg4),
        (0x00010, truncF s.cfg.fmtUv s.uvSr), (0x00011, truncF s.cfg.fmtUv s.uvBase),
        (0x00012, truncF s.cfg.fmtUv s.uvRange), (0x00013, s.uvNst.setWidth 64),
        (0x00020, truncF s.cfg.fmtIir s.iirSr), (0x00021, truncF s.cfg.fmtIir s.iirB0),
        (0x00022, truncF s.cfg.fmtIir s.iirA1), (0x00023, truncF s.cfg.fmtIir s.iirY1),
        (0x00030, truncF s.cfg.fmtFir s.firSr), (0x00031, s.firOrder.setWidth 64)],
      a = BitVec.ofNat 20 p.1 → reads p.2) ∧
    (∀ k, k < 16 → k < s.cfg.maxStages →
      (a = BitVec.ofNat 20 (0x00100 + 4 * k) → reads ((s.stage k).len.setWidth 64)) ∧
      (a = BitVec.ofNat 20 (0x00101 + 4 * k) → reads ((s.stage k).idx.setWidth 64)) ∧
      (a = BitVec.ofNat 20 (0x00102 + 4 * k) → reads (truncF s.cfg.fmtUv (s.stage k).fb)) ∧
      (a = BitVec.ofNat 20 (0x00103 + 4 * k) → reads (truncF s.cfg.fmtUv (s.stage k).lfo)) ∧
      (∀ i, i < 0x1000 → i < (s.stage k).len.toNat → a = BitVec.ofNat 20 (0x10000 + 0x1000 * k + i) →
        reads (apBufRead s k i))) ∧
    (s.firOk = true →
      (∀ i, i < 0x1000 → i ≤ s.firOrder.toNat → a = BitVec.ofNat 20 (0x20000 + i) → reads (firCoefRead s i)) ∧
      (∀ i, i < 0x1000 → i < s.firOrder.toNat → a = BitVec.ofNat 20 (0x21000 + i) → reads (firHistRead s i))) ∧
    (locate s a = none → s.fault = false →
      step s = .next (faultedState { s with pending := rest, readLog := s.readLog ++ [0] } 0x07 (a.setWidth 64))) ∧
    (locate s a = none → s.fault = true → reads 0)

/-- R63, R70, R289, R293: a write of an unmapped address, of a read-only word, or of `AP_IDX[k]` with a value that is not
below the length changes nothing and latches `BUS_ACCESS` with the address, unless a fault is latched already. -/
def Obligations.RefusedWriteChangesNothingAndFaults : Prop :=
  ∀ (s : State) (a : BusAddr) (v : Word) (rest : List Event), s.pending = .wr a v :: rest → s.inReset = false →
    (locate s a = none ∨ (∃ l, locate s a = some l ∧ readOnlyLoc l = true) ∨
      (∃ k, locate s a = some (.apIdx k) ∧ (s.stage k).len.toNat ≤ (v.setWidth 32).toNat)) →
    (s.fault = false → step s = .next (faultedState { s with pending := rest } 0x07 (a.setWidth 64))) ∧
    (s.fault = true → step s = .next { s with pending := rest })

/-- R37, R63, R70: a write of a writable word that is accepted is read back as R37 says: all 64 bits of `RES` and `ARGi`,
the low `FMT[u]` bits of a floating-point word, the low 32 bits of `AP_IDX[k]`. -/
def Obligations.AcceptedWriteIsReadBack : Prop :=
  ∀ (s : State) (a : BusAddr) (v : Word) (rest : List Event) (l : Loc), s.Inv →
    s.pending = .wr a v :: rest → s.inReset = false → locate s a = some l →
    (wideLoc l = true → ∃ t, step s = .next t ∧ loadLoc t l = v) ∧
    (∀ F, floatLoc s.cfg l = some F → ∃ t, step s = .next t ∧ loadLoc t l = truncF F v) ∧
    (∀ k, l = .apIdx k → (v.setWidth 32).toNat < (s.stage k).len.toNat →
      ∃ t, step s = .next t ∧ loadLoc t l = (v.setWidth 32).setWidth 64)

/-- R63: a write of a word other than `CMD` and `STATUS` that is accepted leaves every address mapped to the word it was, or
unmapped as it was, its own address among them, and changes no other mapped word. -/
def Obligations.AcceptedWriteChangesNoOtherWord : Prop :=
  ∀ (s t : State) (a : BusAddr) (v : Word) (rest : List Event) (l : Loc), s.Inv →
    s.pending = .wr a v :: rest → s.inReset = false → locate s a = some l → l ≠ .cmd → l ≠ .status →
    readOnlyLoc l = false → (∀ k, l = .apIdx k → (v.setWidth 32).toNat < (s.stage k).len.toNat) →
    step s = .next t →
    (∀ b, locate t b = locate s b) ∧
    (∀ b m, locate s b = some m → m ≠ l → loadLoc t m = loadLoc s m)

/-- R27: the value of `STATUS`, bit by bit. -/
def Obligations.StatusWordHoldsTheFlags : Prop :=
  ∀ (s : State) (i : Nat), i < 64 → (statusWord s).getLsbD i =
    if i = 0 then s.fault else if i = 1 then s.firWarn else if i = 4 then s.uvOk else if i = 5 then s.iirOk
    else if i = 6 then s.firOk else false

/-- R294: `WR STATUS, v` clears the fault latch for a 1 in bit 0 and `FIRWARN` for a 1 in bit 1, and does nothing else. -/
def Obligations.StatusWriteClearsByOnes : Prop :=
  ∀ (s : State) (v : Word) (rest : List Event), s.pending = .wr 0x00001 v :: rest → s.inReset = false →
    step s = .next { s with
      pending := rest
      fault := s.fault && !v.getLsbD 0
      fcode := if v.getLsbD 0 = true then 0 else s.fcode
      finfo := if v.getLsbD 0 = true then 0 else s.finfo
      firWarn := s.firWarn && !v.getLsbD 1 }

/-- R64, R65, R293: on the byte-addressed mapping an aligned 8-byte access is the transaction on its word, least significant byte
at the lowest address; any other access changes nothing and latches `BUS_ACCESS` with the word address of its first byte, unless
a fault is latched already, which then stays; a read that is not accepted returns 0. -/
def Obligations.ByteAccessIsOneAlignedWord : Prop :=
  (∀ (s : State) (a : BusAddr) (b : ByteAddr) (rest : List Event), s.pending = .rdBytes b 8 :: rest → s.inReset = false →
    b.toNat = 8 * a.toNat → step s = step { s with pending := .rd a :: rest }) ∧
  (∀ (s : State) (a : BusAddr) (b : ByteAddr) (v : Word) (d : List Byte) (rest : List Event),
    s.pending = .wrBytes b d :: rest → s.inReset = false → b.toNat = 8 * a.toNat → d.length = 8 →
    (∀ j, j < 8 → d[j]? = some (v.extractLsb' (8 * j) 8)) → step s = step { s with pending := .wr a v :: rest }) ∧
  (∀ (s : State) (a : BusAddr) (b : ByteAddr) (n : Nat) (rest : List Event), s.pending = .rdBytes b n :: rest →
    s.inReset = false → a.toNat = b.toNat / 8 → (n ≠ 8 ∨ b.toNat % 8 ≠ 0) →
    (s.fault = false →
      step s = .next (faultedState { s with pending := rest, readLog := s.readLog ++ [0] } 0x07 (a.setWidth 64))) ∧
    (s.fault = true → step s = .next { s with pending := rest, readLog := s.readLog ++ [0] })) ∧
  (∀ (s : State) (a : BusAddr) (b : ByteAddr) (d : List Byte) (rest : List Event), s.pending = .wrBytes b d :: rest →
    s.inReset = false → a.toNat = b.toNat / 8 → (d.length ≠ 8 ∨ b.toNat % 8 ≠ 0) →
    (s.fault = false → step s = .next (faultedState { s with pending := rest } 0x07 (a.setWidth 64))) ∧
    (s.fault = true → step s = .next { s with pending := rest }))

/-! ## Faults -/

/-- R290, R293: `raise` records the first fault and changes nothing else; with a fault latched it records nothing. -/
def Obligations.RaiseRecordsOnlyTheFirstFault : Prop :=
  ∀ (s : State) (c : FaultCause) (info : Word),
    (s.fault = false → s.raise c info = faultedState s (causeCode c) info) ∧
    (s.fault = true → s.raise c info = s)

/-- R291: a command that faults has changed nothing but the fault latch, which holds one of the codes of a decoded
command (R281) and the command's word. -/
def Obligations.CommandFaultsArePrecise : Prop :=
  ∀ (i : Instr) (s t : State), s.fault = false → exec i s = .next t → t.fault = true →
    ∃ code : BitVec 8, 2 ≤ code.toNat ∧ code.toNat ≤ 6 ∧ t = faultedState s code ((encode i).setWidth 64)

/-- R283: `UNCONSTRUCTED` is raised by the commands of an unconstructed unit other than `NEW`, before any other check, and by no
other command. -/
def Obligations.UnconstructedUnitsFault : Prop :=
  (∀ (i : Instr) (s : State), s.fault = false →
    ((i = .iirSetCut ∨ i = .iirProc) ∧ s.iirOk = false) ∨ ((i = .firSetCut ∨ i = .firProc) ∧ s.firOk = false) ∨
      ((i = .uvSetSr ∨ i = .uvReset ∨ i = .uvProc) ∧ s.uvOk = false) →
    exec i s = .next (faultedState s 0x02 ((encode i).setWidth 64))) ∧
  (∀ (i : Instr) (s t : State), s.fault = false → exec i s = .next t → t.fault = true → t.fcode = 0x02 →
    ((i = .iirSetCut ∨ i = .iirProc) ∧ s.iirOk = false) ∨ ((i = .firSetCut ∨ i = .firProc) ∧ s.firOk = false) ∨
      ((i = .uvSetSr ∨ i = .uvReset ∨ i = .uvProc) ∧ s.uvOk = false))

/-- R287, R120: an `AP.*` command on a stage the block does not have faults `STAGE_RANGE`, and so does `UV.PROC` with more
stages than were constructed. -/
def Obligations.StageRangeFaults : Prop :=
  (∀ (s : State) (k : Nat), s.fault = false → s.cfg.maxStages ≤ k →
    exec (.apNew k) s = .next (faultedState s 0x03 ((encode (.apNew k)).setWidth 64)) ∧
    exec (.apReset k) s = .next (faultedState s 0x03 ((encode (.apReset k)).setWidth 64)) ∧
    exec (.apSetFb k) s = .next (faultedState s 0x03 ((encode (.apSetFb k)).setWidth 64))) ∧
  (∀ s : State, s.fault = false → s.uvOk = true → s.uvNst.toNat < (s.arg4.setWidth 32).toNat →
    exec .uvProc s = .next (faultedState s 0x03 0x53000000))

/-- R284, R285, R286, R211, R226: the operand checks of `UV.NEW` and `UV.SETSR`, in their order: the sample rate, a stage count of zero, the
stage count, the capacity. -/
def Obligations.UniVibeOperandChecksInOrder : Prop :=
  (∀ s : State, s.fault = false →
    (positiveFinite s.cfg.fmtUv (truncF s.cfg.fmtUv s.arg0) = false →
      exec .uvNew s = .next (faultedState s 0x04 0x50000000)) ∧
    (positiveFinite s.cfg.fmtUv (truncF s.cfg.fmtUv s.arg0) = true → s.arg1.setWidth 32 = 0 →
      exec .uvNew s = .next (faultedState s 0x04 0x50000000)) ∧
    (positiveFinite s.cfg.fmtUv (truncF s.cfg.fmtUv s.arg0) = true → s.arg1.setWidth 32 ≠ 0 →
      s.cfg.maxStages < (s.arg1.setWidth 32).toNat → exec .uvNew s = .next (faultedState s 0x05 0x50000000)) ∧
    (positiveFinite s.cfg.fmtUv (truncF s.cfg.fmtUv s.arg0) = true → s.arg1.setWidth 32 ≠ 0 →
      (s.arg1.setWidth 32).toNat ≤ s.cfg.maxStages →
      ExceedsRam s.cfg.fmtUv s.cfg.apMaxCap (truncF s.cfg.fmtUv s.arg0) →
      exec .uvNew s = .next (faultedState s 0x05 0x50000000))) ∧
  (∀ s : State, s.fault = false → s.uvOk = true →
    (positiveFinite s.cfg.fmtUv (truncF s.cfg.fmtUv s.arg0) = false →
      exec .uvSetSr s = .next (faultedState s 0x04 0x51000000)) ∧
    (positiveFinite s.cfg.fmtUv (truncF s.cfg.fmtUv s.arg0) = true →
      ExceedsRam s.cfg.fmtUv s.cfg.apMaxCap (truncF s.cfg.fmtUv s.arg0) →
      exec .uvSetSr s = .next (faultedState s 0x05 0x51000000)))

/-- R284, R161, R121: `AP.NEW` and `FIR.NEW` with more than the RAM holds fault `RESOURCE`. -/
def Obligations.OversizedRequestsFault : Prop :=
  ∀ s : State, s.fault = false →
    (∀ k, k < s.cfg.maxStages → s.cfg.apMaxCap < (s.arg0.setWidth 32).toNat →
      exec (.apNew k) s = .next (faultedState s 0x05 ((encode (.apNew k)).setWidth 64))) ∧
    (s.cfg.firMaxOrder < (s.arg2.setWidth 32).toNat → exec .firNew s = .next (faultedState s 0x05 0x30000000))

/-- R288, R213: `UV.PROC` over a stage with fewer than two slots faults `AP_LEN`. -/
def Obligations.ShortStageFaults : Prop :=
  ∀ (s : State) (k : Nat), s.fault = false → s.uvOk = true → (s.arg4.setWidth 32).toNat ≤ s.uvNst.toNat →
    k < (s.arg4.setWidth 32).toNat → (s.stage k).len.toNat < 2 →
    exec .uvProc s = .next (faultedState s 0x06 0x53000000)

/-! ## What no command does -/

/-- R21: no command writes an argument register, and `RES` is written only by the seven commands that return a value. R90, R23:
`CMD` is written when a command is issued, before its own rule runs; that rule, which `exec` is, writes it no more. That no
command writes the parameters, the reset input or the host's side of the ports is about fields of the model's own
(log entries 1, 3 and 7). -/
def Obligations.CommandsKeepArgumentsAndReturnOnlyValues : Prop :=
  ∀ (i : Instr) (s t : State), exec i s = .next t →
    samePart s t .args ∧ samePart s t .cmd ∧ samePart s t .ports ∧
    (returnsValue i = false → samePart s t .res)

/-- R28: `FIRWARN` is set by the FIR design and cleared by no command; the `_OK` flags are set by their `NEW` alone and cleared by
no command; no command clears `FAULT`. -/
def Obligations.FlagsAreSetAndClearedAsListed : Prop :=
  ∀ (i : Instr) (s t : State), exec i s = .next t →
    (s.firWarn = true → t.firWarn = true) ∧ (t.firWarn ≠ s.firWarn → i = .firNew ∨ i = .firSetCut) ∧
    (s.uvOk = true → t.uvOk = true) ∧ (t.uvOk ≠ s.uvOk → i = .uvNew) ∧
    (s.iirOk = true → t.iirOk = true) ∧ (t.iirOk ≠ s.iirOk → i = .iirNew) ∧
    (s.firOk = true → t.firOk = true) ∧ (t.firOk ≠ s.firOk → i = .firNew) ∧
    (s.fault = true → t.fault = true)

/-- R38: no command writes state of another unit: the registers of the IIR filter, the registers, flag and RAMs of the FIR filter, the
registers, stages and buffers of UniVibe. -/
def Obligations.CommandsWriteOnlyTheirUnit : Prop :=
  ∀ (i : Instr) (s t : State), s.Inv → exec i s = .next t →
    (ofIir i = false → samePart s t .iir) ∧
    (ofFir i = false → samePart s t .firRegs ∧ samePart s t .firWarn ∧
      ∀ a, inFirWindow a → memRead t.mem a = memRead s.mem a) ∧
    (ofUniVibe i = false → samePart s t .uvRegs ∧ samePart s t .stages ∧
      ∀ a, inApWindow a → memRead t.mem a = memRead s.mem a)

/-- R38: no command reads registers or flags of another unit: with any other values in those of the IIR filter, of the FIR
filter, or of UniVibe and its stages, a command of another unit does the same and leaves those values. -/
def Obligations.CommandsReadNoRegisterOfAnotherUnit : Prop :=
  ∀ (i : Instr) (s t : State), exec i s = .next t →
    (ofIir i = false → ∀ (ok : Bool) (sr b0 a1 y1 : Word),
      exec i { s with iirOk := ok, iirSr := sr, iirB0 := b0, iirA1 := a1, iirY1 := y1 } =
        .next { t with iirOk := ok, iirSr := sr, iirB0 := b0, iirA1 := a1, iirY1 := y1 }) ∧
    (ofFir i = false → ∀ (ok warn : Bool) (sr : Word) (order : BitVec 32),
      exec i { s with firOk := ok, firWarn := warn, firSr := sr, firOrder := order } =
        .next { t with firOk := ok, firWarn := warn, firSr := sr, firOrder := order }) ∧
    (ofUniVibe i = false → ∀ (ok : Bool) (sr base range : Word) (nst : BitVec 32) (st : Vector Stage 16),
      exec i { s with uvOk := ok, uvSr := sr, uvBase := base, uvRange := range, uvNst := nst, stages := st } =
        .next { t with uvOk := ok, uvSr := sr, uvBase := base, uvRange := range, uvNst := nst, stages := st })

/-! ## The system and all-pass commands -/

/-- R260: `NOP` changes nothing; its word is zero, and no other word is `NOP`. -/
def Obligations.NopChangesNothing : Prop :=
  (∀ s : State, exec .nop s = .next s) ∧ (∀ w : CmdWord, decode w = .command .nop ↔ w = 0x00000000)

/-- R121: `AP.NEW k` gives the stage a zero-filled buffer of the requested capacity, index 0 and zero feedback, keeps its
phase, and changes nothing else. -/
def Obligations.ApNewCreatesTheFilter : Prop :=
  ∀ (s : State) (k : Nat), s.cfg.ok = true → k < s.cfg.maxStages → (s.arg0.setWidth 32).toNat ≤ s.cfg.apMaxCap →
    ∃ t, exec (.apNew k) s = .next t ∧
      t.stage k = { len := s.arg0.setWidth 32, idx := 0, fb := 0, lfo := (s.stage k).lfo } ∧
      (∀ i, i < (s.arg0.setWidth 32).toNat → apBufRead t k i = 0) ∧
      (∀ j, j ≠ k → t.stage j = s.stage j) ∧
      sameMemOutside s t (apBufAddr k 0) (8 * (s.arg0.setWidth 32).toNat) ∧
      changesOnly [.stages, .mem] s t

/-- R123: `AP.RESET k` zero-fills the buffer and sets the index to 0, without changing length, feedback or phase, and changes nothing
else. -/
def Obligations.ApResetClearsTheBuffer : Prop :=
  ∀ (s : State) (k : Nat), s.cfg.ok = true → k < s.cfg.maxStages →
    ∃ t, exec (.apReset k) s = .next t ∧
      t.stage k = { s.stage k with idx := 0 } ∧
      (∀ i, i < (s.stage k).len.toNat → apBufRead t k i = 0) ∧
      (∀ j, j ≠ k → t.stage j = s.stage j) ∧
      sameMemOutside s t (apBufAddr k 0) (8 * (s.stage k).len.toNat) ∧
      changesOnly [.stages, .mem] s t

/-- R124: `AP.SETFB k` stores the operand as given, whatever its value, and changes nothing else; it is the host write of `AP_FB[k]`. -/
def Obligations.ApSetFbStoresTheOperand : Prop :=
  ∀ (s : State) (k : Nat), s.cfg.ok = true → k < s.cfg.maxStages →
    ∃ t, exec (.apSetFb k) s = .next t ∧
      t.stage k = { s.stage k with fb := truncF s.cfg.fmtUv s.arg0 } ∧
      (∀ j, j ≠ k → t.stage j = s.stage j) ∧
      changesOnly [.stages] s t ∧
      busStore s (BitVec.ofNat 20 (0x00102 + 4 * k)) s.arg0 = t

/-! ## The IIR commands -/

/-- R141, R142: `IIR.NEW` stores the sample rate, computes the coefficients from the two operands, zeroes `y1`, and
constructs the unit; nothing else changes. -/
def Obligations.IirNewBuildsTheFilter : Prop :=
  ∀ s : State, ∃ t, exec .iirNew s = .next t ∧
    t.iirSr = truncF s.cfg.fmtIir s.arg0 ∧
    IirCoef s.cfg.fmtIir (truncF s.cfg.fmtIir s.arg0) (truncF s.cfg.fmtIir s.arg1) t.iirB0 t.iirA1 ∧
    t.iirY1 = 0 ∧ t.iirOk = true ∧ changesOnly [.iir, .draws] s t

/-- R143, R142: `IIR.SETCUT` recomputes the coefficients from the stored sample rate, zeroes `y1`, keeps the sample rate, and changes
nothing else. -/
def Obligations.IirSetCutRecomputesAndZeroes : Prop :=
  ∀ s : State, s.iirOk = true → ∃ t, exec .iirSetCut s = .next t ∧
    t.iirSr = s.iirSr ∧ IirCoef s.cfg.fmtIir s.iirSr (truncF s.cfg.fmtIir s.arg0) t.iirB0 t.iirA1 ∧
    t.iirY1 = 0 ∧ t.iirOk = true ∧ changesOnly [.iir, .draws] s t

/-- R144: `IIR.PROC` computes `b0*x + a1*y1`, stores it in `y1`, returns it, and changes nothing else. -/
def Obligations.IirProcFiltersOneSample : Prop :=
  ∀ s : State, s.iirOk = true → ∃ t d₁ d₂ d₃, exec .iirProc s = .next t ∧
    t.iirY1 = fadd s.cfg.fmtIir d₁ (fmul s.cfg.fmtIir d₂ s.iirB0 (truncF s.cfg.fmtIir s.arg0))
      (fmul s.cfg.fmtIir d₃ s.iirA1 s.iirY1) ∧
    t.res = t.iirY1 ∧ t.iirSr = s.iirSr ∧ t.iirB0 = s.iirB0 ∧ t.iirA1 = s.iirA1 ∧ t.iirOk = true ∧
    changesOnly [.iir, .res, .draws] s t

/-- R332, R144: a NaN in `y1` stays through every `IIR.PROC`. -/
def Obligations.IirNanPersists : Prop :=
  ∀ s : State, s.iirOk = true → isNan s.cfg.fmtIir s.iirY1 = true →
    ∃ t, exec .iirProc s = .next t ∧ isNan s.cfg.fmtIir t.iirY1 = true ∧ isNan s.cfg.fmtIir t.res = true

/-! ## The FIR commands -/

/-- R161, R163 to R168: `FIR.NEW` stores the sample rate and the order, designs `order + 1` taps, zero-fills the history,
sets `FIRWARN` if R168 says so, constructs the unit, and changes nothing else. -/
def Obligations.FirNewDesignsTheFilter : Prop :=
  ∀ s : State, s.cfg.ok = true → Memory.wf s.mem = true → (s.arg2.setWidth 32).toNat ≤ s.cfg.firMaxOrder →
    ∃ t fc, exec .firNew s = .next t ∧
      FcStep s.cfg.fmtFir (truncF s.cfg.fmtFir s.arg0) (truncF s.cfg.fmtFir s.arg1) fc ∧
      t.firSr = truncF s.cfg.fmtFir s.arg1 ∧ t.firOrder = s.arg2.setWidth 32 ∧ t.firOk = true ∧
      (∀ i, i ≤ (s.arg2.setWidth 32).toNat →
        TapStep s.cfg.fmtFir (s.arg2.setWidth 32).toNat fc i (firCoefRead t i)) ∧
      (∀ i, i < (s.arg2.setWidth 32).toNat → firHistRead t i = 0) ∧
      (t.firWarn = true ↔ s.firWarn = true ∨ (s.arg2.setWidth 32).toNat % 2 = 1 ∨ (s.arg2.setWidth 32).toNat < 2 ∨
        ¬ (geF s.cfg.fmtFir fc (zeroF s.cfg.fmtFir false) = true ∧ leF s.cfg.fmtFir fc (oneF s.cfg.fmtFir) = true)) ∧
      (∀ b, (b < firCoefAddr 0 ∨ firCoefAddr ((s.arg2.setWidth 32).toNat + 1) ≤ b) →
        (b < firHistAddr 0 ∨ firHistAddr (s.arg2.setWidth 32).toNat ≤ b) → memRead t.mem b = memRead s.mem b) ∧
      changesOnly [.firRegs, .firWarn, .mem, .draws] s t

/-- R162, R163 to R168: `FIR.SETCUT` designs the taps anew from the stored sample rate and order, keeps the history, sets
`FIRWARN` if R168 says so, and changes nothing else. -/
def Obligations.FirSetCutRedesignsAndKeepsHistory : Prop :=
  ∀ s : State, s.Inv → s.firOk = true →
    ∃ t fc, exec .firSetCut s = .next t ∧
      FcStep s.cfg.fmtFir (truncF s.cfg.fmtFir s.arg0) s.firSr fc ∧
      (∀ i, i ≤ s.firOrder.toNat → TapStep s.cfg.fmtFir s.firOrder.toNat fc i (firCoefRead t i)) ∧
      (∀ i, i < s.firOrder.toNat → firHistRead t i = firHistRead s i) ∧
      (t.firWarn = true ↔ s.firWarn = true ∨ s.firOrder.toNat % 2 = 1 ∨ s.firOrder.toNat < 2 ∨
        ¬ (geF s.cfg.fmtFir fc (zeroF s.cfg.fmtFir false) = true ∧ leF s.cfg.fmtFir fc (oneF s.cfg.fmtFir) = true)) ∧
      sameMemOutside s t (firCoefAddr 0) (8 * (s.firOrder.toNat + 1)) ∧
      changesOnly [.firWarn, .mem, .draws] s t

/-- R170, R171, R172: `FIR.PROC` pushes the sample to the front of the history, which drops its oldest sample, returns the dot
product of the coefficients with the new history, in mode `USED` with the last coefficient's product with the dropped sample added,
and changes nothing else. -/
def Obligations.FirProcPushesAndConvolves : Prop :=
  ∀ s : State, s.Inv → s.firOk = true →
    ∃ t acc, exec .firProc s = .next t ∧
      (∀ i, i + 1 < s.firOrder.toNat → firHistRead t (i + 1) = firHistRead s i) ∧
      (0 < s.firOrder.toNat → firHistRead t 0 = truncF s.cfg.fmtFir s.arg0) ∧
      DotProduct s.cfg.fmtFir (firCoefRead s) (firHistRead t) s.firOrder.toNat acc ∧
      (s.cfg.firLastTap = .dropped → t.res = acc) ∧
      (s.cfg.firLastTap = .used → ∃ d₁ d₂, t.res = fadd s.cfg.fmtFir d₁ acc
        (fmul s.cfg.fmtFir d₂ (firCoefRead s s.firOrder.toNat)
          (if s.firOrder.toNat = 0 then truncF s.cfg.fmtFir s.arg0 else firHistRead s (s.firOrder.toNat - 1)))) ∧
      sameMemOutside s t (firHistAddr 0) (8 * s.firOrder.toNat) ∧
      changesOnly [.res, .mem, .draws] s t

/-! ## The waveshapers -/

/-- R192, R190, R191: `WS.GREEN` completes for every operand and changes `RES` alone; for a finite operand `RES` is `ln(x + 1)` or
`exp(2.65 * x) - 1` by the sign of `x`, and `+0.0` for a zero of either sign. -/
def Obligations.WsGreenShapesTheSample : Prop :=
  ∀ s : State, ∃ t, exec .wsGreen s = .next t ∧ changesOnly [.res, .draws] s t ∧
    (isFinite s.cfg.fmtGreen (truncF s.cfg.fmtGreen s.arg0) = true → ∃ d₁ d₂ d₃ d₄ d₅,
      t.res = if geF s.cfg.fmtGreen (truncF s.cfg.fmtGreen s.arg0) (zeroF s.cfg.fmtGreen false) = true then
          efuLn s.cfg.fmtGreen d₁ (fadd s.cfg.fmtGreen d₂ (truncF s.cfg.fmtGreen s.arg0) (oneF s.cfg.fmtGreen))
        else fsub s.cfg.fmtGreen d₃ (efuExp s.cfg.fmtGreen d₄ (fmul s.cfg.fmtGreen d₅ (litF s.cfg.fmtGreen 265 100)
          (truncF s.cfg.fmtGreen s.arg0))) (oneF s.cfg.fmtGreen)) ∧
    (fabs s.cfg.fmtGreen s.arg0 = zeroF s.cfg.fmtGreen false → t.res = 0)

/-- R194, R190, R191: `WS.RED` completes for every operand and changes `RES` alone; for a finite operand `RES` is
`(x/2) / sqrt(1 + 0.75*(x/2 - 1)^2) + 0.5 - 1.5`, each operator rounded once. -/
def Obligations.WsRedShapesTheSample : Prop :=
  ∀ s : State, ∃ t, exec .wsRed s = .next t ∧ changesOnly [.res, .draws] s t ∧
    (isFinite s.cfg.fmtRed (truncF s.cfg.fmtRed s.arg0) = true → ∃ d₁ d₂ d₃ d₄ d₅ d₆ d₇ d₈ d₉,
      let F := s.cfg.fmtRed
      let h := fdiv F d₁ (truncF F s.arg0) (twoF F)
      let d := fsub F d₂ h (oneF F)
      let r := fsqrt F d₃ (fadd F d₄ (oneF F) (fmul F d₅ (litF F 75 100) (fmul F d₆ d d)))
      t.res = fsub F d₇ (fadd F d₈ (fdiv F d₉ h r) (litF F 1 2)) (litF F 3 2))

/-- R196, R190, R191: `WS.SIGMOID` completes for every operand and changes `RES` alone; for a finite operand `RES` is
`0.43*(x - 0.3)*sqrt(1 + 0.75*((x - 0.3)/0.3)^2)`, each operator rounded once, the product from left to right. -/
def Obligations.WsSigmoidShapesTheSample : Prop :=
  ∀ s : State, ∃ t, exec .wsSigmoid s = .next t ∧ changesOnly [.res, .draws] s t ∧
    (isFinite s.cfg.fmtSigmoid (truncF s.cfg.fmtSigmoid s.arg0) = true → ∃ d₁ d₂ d₃ d₄ d₅ d₆ d₇ d₈,
      let F := s.cfg.fmtSigmoid
      let u := fsub F d₁ (truncF F s.arg0) (litF F 3 10)
      let v := fdiv F d₂ u (litF F 3 10)
      let r := fsqrt F d₃ (fadd F d₄ (oneF F) (fmul F d₅ (litF F 75 100) (fmul F d₆ v v)))
      t.res = fmul F d₇ (fmul F d₈ (litF F 43 100) u) r)

/-- R198, R190: `WS.HARD` completes for all operands and changes `RES` alone; when neither operand is a NaN and `t` is not negative,
`RES` is `min(max(x, -t), t)` by comparison, which lies in `[-t, t]`. -/
def Obligations.WsHardClampsTheSample : Prop :=
  ∀ s : State, ∃ t, exec .wsHard s = .next t ∧ changesOnly [.res, .draws] s t ∧
    (let F := s.cfg.fmtHard
     let x := truncF F s.arg0
     let b := truncF F s.arg1
     isNan F x = false → isNan F b = false → ltF F b (zeroF F false) = false →
      (t.res = if ltF F x (fneg F b) = true then (if gtF F (fneg F b) b = true then b else fneg F b)
        else (if gtF F x b = true then b else x)) ∧
      leF F (fneg F b) t.res = true ∧ leF F t.res b = true)

/-! ## The UniVibe commands -/

/-- R211, R210: `UV.NEW` with a positive finite sample rate, a legal stage count and a capacity that fits stores the rate
and the derived constants, gives each of the `n` stages a zero-filled buffer of `floor(capf)` words with index, feedback and
phase zero, empties every other stage, constructs the unit, and changes nothing else. -/
def Obligations.UvNewBuildsTheStages : Prop :=
  ∀ (s : State) (n : Nat), s.Inv → (s.arg1.setWidth 32).toNat = n → 1 ≤ n → n ≤ s.cfg.maxStages →
    positiveFinite s.cfg.fmtUv (truncF s.cfg.fmtUv s.arg0) = true →
    FitsRam s.cfg.fmtUv s.cfg.apMaxCap (truncF s.cfg.fmtUv s.arg0) →
    ∃ t capf, exec .uvNew s = .next t ∧
      t.uvSr = truncF s.cfg.fmtUv s.arg0 ∧ UvDerive s.cfg.fmtUv t.uvSr t.uvBase t.uvRange capf ∧
      t.uvNst.toNat = n ∧ t.uvOk = true ∧
      (∀ k, k < n → (t.stage k).len.toNat = floorUint s.cfg.fmtUv capf ∧ (t.stage k).idx = 0 ∧
        (t.stage k).fb = 0 ∧ (t.stage k).lfo = 0 ∧
        ∀ i, i < floorUint s.cfg.fmtUv capf → apBufRead t k i = 0) ∧
      (∀ k, n ≤ k → t.stage k = Stage.empty) ∧
      (∀ b, (∀ k, k < n → b < apBufAddr k 0 ∨ apBufAddr k (floorUint s.cfg.fmtUv capf) ≤ b) →
        memRead t.mem b = memRead s.mem b) ∧
      changesOnly [.uvRegs, .stages, .mem, .draws] s t

/-- R226, R125: `UV.SETSR` with a positive finite rate whose capacity fits stores the rate and the derived constants, gives every
constructed stage a zero-filled buffer of the new capacity with index and phase zero and the feedback it had, and changes nothing
else. -/
def Obligations.UvSetSrResizesTheStages : Prop :=
  ∀ s : State, s.Inv → s.uvOk = true → positiveFinite s.cfg.fmtUv (truncF s.cfg.fmtUv s.arg0) = true →
    FitsRam s.cfg.fmtUv s.cfg.apMaxCap (truncF s.cfg.fmtUv s.arg0) →
    ∃ t capf, exec .uvSetSr s = .next t ∧
      t.uvSr = truncF s.cfg.fmtUv s.arg0 ∧ UvDerive s.cfg.fmtUv t.uvSr t.uvBase t.uvRange capf ∧
      t.uvNst = s.uvNst ∧ t.uvOk = true ∧
      (∀ k, k < s.uvNst.toNat → (t.stage k).len.toNat = floorUint s.cfg.fmtUv capf ∧ (t.stage k).idx = 0 ∧
        (t.stage k).fb = (s.stage k).fb ∧ (t.stage k).lfo = 0 ∧
        ∀ i, i < floorUint s.cfg.fmtUv capf → apBufRead t k i = 0) ∧
      (∀ k, s.uvNst.toNat ≤ k → t.stage k = s.stage k) ∧
      (∀ b, (∀ k, k < s.uvNst.toNat → b < apBufAddr k 0 ∨ apBufAddr k (floorUint s.cfg.fmtUv capf) ≤ b) →
        memRead t.mem b = memRead s.mem b) ∧
      changesOnly [.uvRegs, .stages, .mem, .draws] s t

/-- R225: `UV.RESET` zero-fills the buffer of every constructed stage, sets its index and phase to zero, keeps its length and
feedback, and changes nothing else. -/
def Obligations.UvResetClearsTheStages : Prop :=
  ∀ s : State, s.Inv → s.uvOk = true →
    ∃ t, exec .uvReset s = .next t ∧
      (∀ k, k < s.uvNst.toNat → t.stage k = { s.stage k with idx := 0, lfo := 0 } ∧
        ∀ i, i < (s.stage k).len.toNat → apBufRead t k i = 0) ∧
      (∀ k, s.uvNst.toNat ≤ k → t.stage k = s.stage k) ∧
      (∀ b, (∀ k, k < s.uvNst.toNat → b < apBufAddr k 0 ∨ apBufAddr k (s.stage k).len.toNat ≤ b) →
        memRead t.mem b = memRead s.mem b) ∧
      changesOnly [.stages, .mem] s t

/-- R212, R214 to R224: `UV.PROC` runs its `n` stages as a chain: there is a signal that starts at the input, each stage takes it through
the ten steps with its own registers and buffer, writes one word at its old index, and the last output is returned;
stages with equal phases advance to equal phases, bit for bit; the stages from `n` on, every other byte and every other part
of the state are unchanged. -/
def Obligations.UvProcRunsTheStageChain : Prop :=
  ∀ (s : State) (n : Nat), s.Inv → s.uvOk = true → (s.arg4.setWidth 32).toNat = n → n ≤ s.uvNst.toNat →
    (∀ k, k < n → 2 ≤ (s.stage k).len.toNat) →
    ∃ (t : State) (sig wv : Nat → Word), exec .uvProc s = .next t ∧
      sig 0 = truncF s.cfg.fmtUv s.arg0 ∧ t.res = sig n ∧
      (∀ k, k < n →
        StageRuns s.cfg.fmtUv s.uvSr s.uvBase s.uvRange (truncF s.cfg.fmtUv s.arg1) (truncF s.cfg.fmtUv s.arg2)
          (truncF s.cfg.fmtUv s.arg3) (s.stage k) (apBufRead s k) (sig k) (t.stage k) (wv k) (sig (k + 1)) ∧
        apBufRead t k (s.stage k).idx.toNat = wv k) ∧
      (∀ j k, j < n → k < n → (s.stage j).lfo = (s.stage k).lfo → (t.stage j).lfo = (t.stage k).lfo) ∧
      (∀ k, n ≤ k → t.stage k = s.stage k) ∧
      (∀ b, (∀ k, k < n → b < apBufAddr k (s.stage k).idx.toNat ∨ apBufAddr k (s.stage k).idx.toNat + 8 ≤ b) →
        memRead t.mem b = memRead s.mem b) ∧
      changesOnly [.stages, .mem, .res, .draws] s t

/-- R214: `UV.PROC` with `n = 0` is the identity: the input is returned and no state of the block changes. -/
def Obligations.UvProcOfNoStagesIsTheIdentity : Prop :=
  ∀ s : State, s.uvOk = true → s.arg4.setWidth 32 = 0 →
    ∃ t, exec .uvProc s = .next t ∧ t.res = truncF s.cfg.fmtUv s.arg0 ∧ changesOnly [.res, .draws] s t

/-! ## The numeric model -/

/-- R11: a primitive with a NaN operand answers a NaN, and every comparison with one is false. -/
def Obligations.NanOperandsGiveNans : Prop :=
  ∀ (F : Fmt) (d : Draw) (a b : Word), isNan F a = true ∨ isNan F b = true →
    isNan F (fadd F d a b) = true ∧ isNan F (fsub F d a b) = true ∧ isNan F (fmul F d a b) = true ∧
    isNan F (fdiv F d a b) = true ∧ (isNan F a = true → isNan F (fsqrt F d a) = true) ∧
    ltF F a b = false ∧ leF F a b = false ∧ gtF F a b = false ∧ geF F a b = false

/-- R11: the sum, the difference and the product of finite values are the exact result correctly rounded: the nearest value of
the format, ties to even, where the exact magnitude is below the largest finite value and half its unit in the last place, and the
infinity of the exact result's sign from there on, never a NaN. An exact zero is negative only as a sum of two negative
zeros; the sign of a product is that of its factors, of a zero too. -/
def Obligations.SumsAndProductsAreCorrectlyRounded : Prop :=
  ∀ (F : Fmt) (d : Draw) (a b : Word) (p q : ℚ), Means F a p → Means F b q →
    (isNan F (fadd F d a b) = false ∧ CorrectlyRounded F (fadd F d a b) ((p : ℝ) + q) ∧
      (p + q = 0 → signBit F (fadd F d a b) = (signBit F a && signBit F b))) ∧
    (isNan F (fsub F d a b) = false ∧ CorrectlyRounded F (fsub F d a b) ((p : ℝ) - q) ∧
      (p - q = 0 → signBit F (fsub F d a b) = (signBit F a && !signBit F b))) ∧
    (isNan F (fmul F d a b) = false ∧ CorrectlyRounded F (fmul F d a b) ((p : ℝ) * q) ∧
      signBit F (fmul F d a b) = (signBit F a != signBit F b))

/-- R11: the quotient of finite values by a non-zero one is the exact quotient correctly rounded: the nearest value of the format,
ties to even, or from the overflow bound on the infinity of its sign, never a NaN; its sign is that of its operands, of a
zero too. A non-zero value over a zero is the infinity of that sign, and a zero over a zero is a NaN. -/
def Obligations.QuotientsAreCorrectlyRounded : Prop :=
  ∀ (F : Fmt) (d : Draw) (a b : Word) (p q : ℚ), Means F a p → Means F b q →
    (q ≠ 0 → isNan F (fdiv F d a b) = false ∧ CorrectlyRounded F (fdiv F d a b) ((p : ℝ) / q) ∧
      signBit F (fdiv F d a b) = (signBit F a != signBit F b)) ∧
    (q = 0 → p ≠ 0 → unpack F (fdiv F d a b) = .inf (signBit F a != signBit F b)) ∧
    (q = 0 → p = 0 → isNan F (fdiv F d a b) = true)

/-- R12: the named properties P1, P2 and P3 of the elementary function unit hold, whatever its functions are. -/
def Obligations.ElementaryFunctionsHaveTheNamedProperties : Prop :=
  ∀ (F : Fmt) (d : Draw),
    efuLn F d (oneF F) = zeroF F false ∧
    efuExp F d (zeroF F false) = oneF F ∧ efuExp F d (zeroF F true) = oneF F ∧
    ∀ x, isFinite F x = true → isFinite F (efuSin F d x) = true ∧ leF F (fabs F (efuSin F d x)) (oneF F) = true

/-- R218: for a buffer of 2 to 4096 words the clamped delay is a finite number in `[1, len - 1]` whatever the unclamped one is, a NaN
gives 1, its integer part lies in `[1, len - 1]`, and the remainder in `[0, 1)`. -/
def Obligations.DelayStaysInsideTheBuffer : Prop :=
  ∀ (F : Fmt) (raw : Word) (len : Nat) (d₁ d₂ : Draw), 2 ≤ len → len ≤ 4096 →
    let hi := fsub F d₁ (ofNatF F len) (oneF F)
    let dl := clampF F raw (oneF F) hi
    let frac := fsub F d₂ dl (ofNatF F (floorUint F dl))
    isFinite F dl = true ∧ leF F (oneF F) dl = true ∧ leF F dl hi = true ∧
    (isNan F raw = true → dl = oneF F) ∧
    1 ≤ floorUint F dl ∧ floorUint F dl ≤ len - 1 ∧
    leF F (zeroF F false) frac = true ∧ ltF F frac (oneF F) = true

/-- R220: with a write index below the length and an integer delay in `[1, len - 1]` both taps are inside the buffer, the nearer is
never the word about to be written, and the farther is that word exactly when the delay is `len - 1`. -/
def Obligations.TapsAreInsideTheBuffer : Prop :=
  ∀ w fd len : Nat, w < len → 1 ≤ fd → fd ≤ len - 1 →
    tapIndex w fd len < len ∧ tapIndex w (fd + 1) len < len ∧ tapIndex w fd len ≠ w ∧
    (tapIndex w (fd + 1) len = w ↔ fd = len - 1) ∧
    tapIndex w fd len = (w + len - fd) % len ∧ tapIndex w (fd + 1) len = (w + 2 * len - fd - 1) % len

/-- R216: with `0 <= inc < 1` and a phase in `[0, 1)` the new phase is in `[0, 1)`. -/
def Obligations.LfoPhaseStaysInTheUnitInterval : Prop :=
  ∀ (F : Fmt) (lfo rate sr p : Word) (d : Draw),
    leF F (zeroF F false) (fdiv F d rate sr) = true → ltF F (fdiv F d rate sr) (oneF F) = true →
    leF F (zeroF F false) lfo = true → ltF F lfo (oneF F) = true →
    LfoStep F lfo rate sr p → leF F (zeroF F false) p = true ∧ ltF F p (oneF F) = true

/-- R11: the square root of a positive finite value is finite and the nearest value of the format to the real root, ties to even,
and positive; that of a zero is that zero; that of a negative value is a NaN. -/
def Obligations.RootsAreCorrectlyRounded : Prop :=
  ∀ (F : Fmt) (d : Draw) (a : Word) (q : ℚ), Means F a q →
    (0 < q → isFinite F (fsqrt F d a) = true ∧ NearestEven F (fsqrt F d a) (Real.sqrt q) ∧
      signBit F (fsqrt F d a) = false) ∧
    (q = 0 → fsqrt F d a = zeroF F (signBit F a)) ∧
    (q < 0 → isNan F (fsqrt F d a) = true)

/-- R13, R16, R11: what the constants, the conversions and the comparisons of the numeric model mean. A decimal literal `n / d` is that
number correctly rounded, `PI_F` is the value nearest to pi; `to_F n` is exactly `n` up to 4096; `floor_uint` of a non-negative
finite value is the integer part of its number; the comparisons of finite values are those of their numbers, and
every finite value lies between the infinities. -/
def Obligations.ConstantsAndConversionsMeanTheirNumbers : Prop :=
  ∀ F : Fmt,
    (∀ n d : Nat, 0 < d → CorrectlyRounded F (litF F n d) ((n : ℝ) / d)) ∧
    NearestEven F (piF F) Real.pi ∧
    (∀ n : Nat, n ≤ 4096 → Means F (ofNatF F n) n ∧ signBit F (ofNatF F n) = false) ∧
    Means F (oneF F) 1 ∧ Means F (twoF F) 2 ∧ Means F (zeroF F false) 0 ∧
    (∀ (v : Word) (q : ℚ), Means F v q → 0 ≤ q → floorUint F v = ⌊q⌋₊) ∧
    (∀ (a b : Word) (p q : ℚ), Means F a p → Means F b q →
      (ltF F a b = true ↔ p < q) ∧ (leF F a b = true ↔ p ≤ q) ∧
      (gtF F a b = true ↔ q < p) ∧ (geF F a b = true ↔ q ≤ p)) ∧
    (∀ (a : Word) (p : ℚ), Means F a p → ltF F a (infF F false) = true ∧ ltF F (infF F true) a = true)
end

