-- ==== Sys2Proof/Laws/Memory.lean ====
section
/-! SUPPORT. What the memory operations do to each byte, and that they keep the canonical form. -/

namespace Sys2Proof.Machine

/-! ## The canonical form -/

theorem Memory.wf_cons (c : Host.Cell) (m : Memory) :
    Memory.wf (c :: m) = true ↔
      c.2 ≠ unwrittenByte ∧ (∀ d ∈ m, c.1 < d.1) ∧ Memory.wf m = true := by
  induction m generalizing c with
  | nil => obtain ⟨x, y⟩ := c; simp [Memory.wf]
  | cons d t ih =>
    obtain ⟨x, y⟩ := c
    obtain ⟨x', y'⟩ := d
    have key : Memory.wf ((x, y) :: (x', y') :: t) = true ↔
        (y ≠ unwrittenByte ∧ x < x') ∧ Memory.wf ((x', y') :: t) = true := by
      simp [Memory.wf]
    rw [key, ih]
    simp only [List.mem_cons, forall_eq_or_imp]
    constructor
    · rintro ⟨⟨h1, h2⟩, h3, h4, h5⟩
      exact ⟨h1, ⟨h2, fun d hd => Nat.lt_trans h2 (h4 d hd)⟩, h3, h4, h5⟩
    · rintro ⟨h1, ⟨h2, _⟩, h4⟩
      exact ⟨⟨h1, h2⟩, h4⟩

theorem memRead_of_not_mem {m : Memory} {a : Nat} (h : ∀ c ∈ m, c.1 ≠ a) :
    memRead m a = unwrittenByte := by
  induction m with
  | nil => rfl
  | cons c t ih =>
    obtain ⟨x, y⟩ := c
    rw [memRead, if_neg (h (x, y) (by simp))]
    exact ih fun d hd => h d (by simp [hd])

/-! ## One byte written -/

theorem memRead_memCons_ne {a b : Nat} (v : Byte) (m : Memory) (h : b ≠ a) :
    memRead (memCons a v m) b = memRead m b := by
  unfold memCons
  split
  · rfl
  · rw [memRead, if_neg (Ne.symm h)]

theorem memRead_memCons_self {a : Nat} (v : Byte) {m : Memory} (h : ∀ c ∈ m, c.1 ≠ a) :
    memRead (memCons a v m) a = v := by
  unfold memCons
  split
  · next e => rw [memRead_of_not_mem h, e]
  · rw [memRead, if_pos rfl]

/-- A write leaves every other byte alone. -/
theorem memRead_memWrite_ne {a b : Nat} (m : Memory) (v : Byte) (h : b ≠ a) :
    memRead (memWrite m a v) b = memRead m b := by
  induction m with
  | nil => exact memRead_memCons_ne v [] h
  | cons c t ih =>
    obtain ⟨x, y⟩ := c
    unfold memWrite
    split
    · exact memRead_memCons_ne v _ h
    · split
      · next e => rw [memRead_memCons_ne v t h, memRead, if_neg (by omega)]
      · rw [memRead, memRead, ih]

/-- A write to a canonical memory is read back. -/
theorem memRead_memWrite_self {m : Memory} (hm : Memory.wf m = true) (a : Nat) (v : Byte) :
    memRead (memWrite m a v) a = v := by
  induction m with
  | nil => exact memRead_memCons_self v (by simp)
  | cons c t ih =>
    obtain ⟨x, y⟩ := c
    obtain ⟨_, hlt, ht⟩ := (Memory.wf_cons _ _).1 hm
    unfold memWrite
    split
    · next h1 =>
      refine memRead_memCons_self v fun d hd => ?_
      rcases List.mem_cons.1 hd with rfl | hd
      · simp only; omega
      · have := hlt d hd; simp only at this; omega
    · split
      · next e => exact memRead_memCons_self v fun d hd => by have := hlt d hd; simp only at this; omega
      · next h1 h2 => rw [memRead, if_neg (Ne.symm h2), ih ht]

theorem mem_memCons {a : Nat} {v : Byte} {m : Memory} {c : Host.Cell} (h : c ∈ memCons a v m) :
    c = (a, v) ∨ c ∈ m := by
  unfold memCons at h
  split at h
  · exact .inr h
  · simpa using h

/-- A write lists no address but its own and those listed before. -/
theorem mem_memWrite {m : Memory} {a : Nat} {v : Byte} {c : Host.Cell} (h : c ∈ memWrite m a v) :
    c.1 = a ∨ c ∈ m := by
  induction m with
  | nil => rcases mem_memCons h with rfl | h; exacts [.inl rfl, .inr h]
  | cons d t ih =>
    obtain ⟨x, y⟩ := d
    unfold memWrite at h
    split at h
    · rcases mem_memCons h with rfl | h; exacts [.inl rfl, .inr h]
    · split at h
      · rcases mem_memCons h with rfl | h; exacts [.inl rfl, .inr (by simp [h])]
      · rcases List.mem_cons.1 h with rfl | h
        · exact .inr (by simp)
        · rcases ih h with h | h; exacts [.inl h, .inr (by simp [h])]

theorem memCons_wf {a : Nat} (v : Byte) {m : Memory} (hm : Memory.wf m = true)
    (h : ∀ c ∈ m, a < c.1) : Memory.wf (memCons a v m) = true := by
  unfold memCons
  split
  · exact hm
  · next hv => exact (Memory.wf_cons _ _).2 ⟨hv, h, hm⟩

/-- A write keeps the canonical form. -/
theorem memWrite_wf {m : Memory} (hm : Memory.wf m = true) (a : Nat) (v : Byte) :
    Memory.wf (memWrite m a v) = true := by
  induction m with
  | nil => exact memCons_wf v rfl (by simp)
  | cons c t ih =>
    obtain ⟨x, y⟩ := c
    obtain ⟨hy, hlt, ht⟩ := (Memory.wf_cons _ _).1 hm
    unfold memWrite
    split
    · next h1 =>
      refine memCons_wf v hm fun d hd => ?_
      rcases List.mem_cons.1 hd with rfl | hd
      · exact h1
      · exact Nat.lt_trans h1 (hlt d hd)
    · split
      · next h1 e => exact memCons_wf v ht fun d hd => e ▸ hlt d hd
      · next h1 h2 =>
        refine (Memory.wf_cons _ _).2 ⟨hy, fun d hd => ?_, ih ht⟩
        rcases mem_memWrite hd with e | hd
        · simp only; omega
        · exact hlt d hd

/-! ## A range cleared -/

theorem mem_memClear {m : Memory} {a n : Nat} {c : Host.Cell} :
    c ∈ memClear m a n ↔ c ∈ m ∧ (c.1 < a ∨ a + n ≤ c.1) := by
  simp only [memClear, List.mem_filter, Bool.not_eq_true', Bool.and_eq_false_iff, decide_eq_false_iff_not]
  constructor <;> rintro ⟨h, h'⟩ <;> refine ⟨h, ?_⟩ <;> omega

theorem memRead_memClear_outside (m : Memory) {a n b : Nat} (h : b < a ∨ a + n ≤ b) :
    memRead (memClear m a n) b = memRead m b := by
  induction m with
  | nil => rfl
  | cons c t ih =>
    obtain ⟨x, y⟩ := c
    unfold memClear at ih ⊢
    rw [List.filter_cons]
    split
    · rw [memRead, memRead, ih]
    · next hx =>
      have : x ≠ b := by
        rintro rfl
        simp only [Bool.not_eq_true', Bool.and_eq_false_iff, decide_eq_false_iff_not] at hx
        omega
      rw [ih, memRead, if_neg this]

theorem memRead_memClear_inside (m : Memory) {a n b : Nat} (h₁ : a ≤ b) (h₂ : b < a + n) :
    memRead (memClear m a n) b = unwrittenByte :=
  memRead_of_not_mem fun c hc => by
    have := (mem_memClear.1 hc).2
    omega

/-- Clearing a range keeps the canonical form. -/
theorem memClear_wf {m : Memory} (hm : Memory.wf m = true) (a n : Nat) :
    Memory.wf (memClear m a n) = true := by
  induction m with
  | nil => rfl
  | cons c t ih =>
    obtain ⟨hy, hlt, ht⟩ := (Memory.wf_cons _ _).1 hm
    unfold memClear
    rw [List.filter_cons]
    split
    · exact (Memory.wf_cons _ _).2 ⟨hy, fun d hd => hlt d (List.mem_filter.1 hd).1, ih ht⟩
    · exact ih ht

/-! ## Several bytes -/

theorem memWriteBytes_wf {m : Memory} (hm : Memory.wf m = true) (a : Nat) (v : Word) (n : Nat) :
    Memory.wf (memWriteBytes m a v n) = true := by
  induction n with
  | zero => exact hm
  | succ n ih => exact memWrite_wf ih _ _

theorem mem_memWriteBytes {m : Memory} {a : Nat} {v : Word} {n : Nat} {c : Host.Cell}
    (h : c ∈ memWriteBytes m a v n) : (a ≤ c.1 ∧ c.1 < a + n) ∨ c ∈ m := by
  induction n with
  | zero => exact .inr h
  | succ n ih =>
    rcases mem_memWrite h with h | h
    · exact .inl (by omega)
    · rcases ih h with h | h
      · exact .inl (by omega)
      · exact .inr h

theorem memRead_memWriteBytes_outside (m : Memory) (v : Word) {a n b : Nat} (h : b < a ∨ a + n ≤ b) :
    memRead (memWriteBytes m a v n) b = memRead m b := by
  induction n with
  | zero => rfl
  | succ n ih => rw [memWriteBytes, memRead_memWrite_ne _ _ (by omega), ih (by omega)]

theorem memRead_memWriteBytes_inside {m : Memory} (hm : Memory.wf m = true) (v : Word) {a n i : Nat}
    (h : i < n) : memRead (memWriteBytes m a v n) (a + i) = v.extractLsb' (8 * i) 8 := by
  induction n with
  | zero => omega
  | succ n ih =>
    rw [memWriteBytes]
    by_cases e : i = n
    · subst e; exact memRead_memWrite_self (memWriteBytes_wf hm _ _ _) _ _
    · rw [memRead_memWrite_ne _ _ (by omega), ih (by omega)]

theorem memReadBytes_congr {m m' : Memory} {a n : Nat}
    (h : ∀ b, a ≤ b → b < a + n → memRead m' b = memRead m b) : memReadBytes m' a n = memReadBytes m a n := by
  induction n with
  | zero => rfl
  | succ n ih =>
    rw [memReadBytes, memReadBytes, ih (fun b h1 h2 => h b h1 (by omega)), h (a + n) (by omega) (by omega)]

/-- Bit `j` of a word read from memory is bit `j % 8` of its byte `j / 8`. -/
theorem getLsbD_memReadBytes (m : Memory) (a n j : Nat) :
    (memReadBytes m a n).getLsbD j = (decide (j < 8 * n) && decide (j < 64) && (memRead m (a + j / 8)).getLsbD (j % 8)) := by
  induction n with
  | zero => simp [memReadBytes]
  | succ n ih =>
    rw [memReadBytes, BitVec.getLsbD_or, ih, BitVec.getLsbD_shiftLeft, BitVec.getLsbD_setWidth]
    by_cases h64 : j < 64
    · by_cases h1 : j < 8 * n
      · simp [h64, h1, show j < 8 * (n + 1) by omega]
      · by_cases h2 : j < 8 * (n + 1)
        · have e : j / 8 = n := by omega
          have e2 : j % 8 = j - 8 * n := by omega
          simp [h64, h1, h2, e, e2, show j - 8 * n < 64 by omega]
        · have : (memRead m (a + n)).getLsbD (j - 8 * n) = false := BitVec.getLsbD_of_ge _ _ (by omega)
          simp [h1, h2, this]
    · simp [h64]

/-! ## RAM words -/

theorem truncF_getLsbD (F : Fmt) (v : Word) (j : Nat) :
    (truncF F v).getLsbD j = (decide (j < 8 * fmtBytes F) && v.getLsbD j) := by
  cases F
  · simp only [truncF, fmtBytes, BitVec.getLsbD_setWidth]
    by_cases h : j < 32
    · simp [h, show j < 64 by omega]
    · simp [h]
  · by_cases h : j < 64
    · simp [truncF, fmtBytes, h]
    · simp [truncF, fmtBytes, BitVec.getLsbD_of_ge v j (by omega)]

/-- A RAM word written to a canonical memory is read back, truncated to its format. -/
theorem ramRead_ramWrite_self (F : Fmt) {m : Memory} (hm : Memory.wf m = true) (a : Nat) (v : Word) :
    ramRead F (ramWrite F m a v) a = truncF F v := by
  apply BitVec.eq_of_getLsbD_eq
  intro j hj
  rw [ramRead, getLsbD_memReadBytes, truncF_getLsbD]
  by_cases h : j < 8 * fmtBytes F
  · rw [ramWrite, memRead_memWriteBytes_inside hm v (by omega), BitVec.getLsbD_extractLsb']
    simp [h, hj, show j % 8 < 8 by omega, Nat.div_add_mod]
  · simp [h]

theorem fmtBytes_le (F : Fmt) : fmtBytes F ≤ 8 := by cases F <;> decide

/-- A RAM word written leaves every byte outside it alone. -/
theorem memRead_ramWrite_outside (F : Fmt) (m : Memory) (v : Word) {a b : Nat} (h : b < a ∨ a + 8 ≤ b) :
    memRead (ramWrite F m a v) b = memRead m b :=
  memRead_memWriteBytes_outside m v (by have := fmtBytes_le F; omega)

/-- A RAM word written leaves every word that does not overlap it alone. -/
theorem ramRead_ramWrite_ne (F : Fmt) (m : Memory) (v : Word) {a b : Nat} (h : b + 8 ≤ a ∨ a + 8 ≤ b) :
    ramRead F (ramWrite F m a v) b = ramRead F m b :=
  memReadBytes_congr fun c h1 h2 => memRead_ramWrite_outside F m v (by have := fmtBytes_le F; omega)

theorem ramWrite_wf (F : Fmt) {m : Memory} (hm : Memory.wf m = true) (a : Nat) (v : Word) :
    Memory.wf (ramWrite F m a v) = true := memWriteBytes_wf hm _ _ _

theorem mem_ramWrite {F : Fmt} {m : Memory} {a : Nat} {v : Word} {c : Host.Cell}
    (h : c ∈ ramWrite F m a v) : (a ≤ c.1 ∧ c.1 < a + 8) ∨ c ∈ m := by
  rcases mem_memWriteBytes h with h | h
  · exact .inl (by have := fmtBytes_le F; omega)
  · exact .inr h

theorem ramClear_wf {m : Memory} (hm : Memory.wf m = true) (a n : Nat) : Memory.wf (ramClear m a n) = true :=
  memClear_wf hm _ _

theorem mem_ramClear {m : Memory} {a n : Nat} {c : Host.Cell} (h : c ∈ ramClear m a n) : c ∈ m :=
  (mem_memClear.1 h).1

theorem memRead_ramClear_outside (m : Memory) {a n b : Nat} (h : b < a ∨ a + 8 * n ≤ b) :
    memRead (ramClear m a n) b = memRead m b := memRead_memClear_outside m h

theorem ramRead_ramClear_outside (F : Fmt) (m : Memory) {a n b : Nat} (h : b + 8 ≤ a ∨ a + 8 * n ≤ b) :
    ramRead F (ramClear m a n) b = ramRead F m b :=
  memReadBytes_congr fun c h1 h2 => memRead_ramClear_outside m (by have := fmtBytes_le F; omega)

/-- A cleared word reads as `+0.0`, in either format. -/
theorem ramRead_ramClear_inside (F : Fmt) (m : Memory) {a n i : Nat} (h : i < n) :
    ramRead F (ramClear m a n) (a + 8 * i) = 0 := by
  apply BitVec.eq_of_getLsbD_eq
  intro j hj
  rw [ramRead, getLsbD_memReadBytes]
  by_cases hb : j < 8 * fmtBytes F
  · have hF := fmtBytes_le F
    rw [ramClear, memRead_memClear_inside m (by omega) (by omega)]
    simp [unwrittenByte]
  · simp [hb]

/-- What a RAM word reads as is a value of its format. -/
theorem truncF_ramRead (F : Fmt) (m : Memory) (a : Nat) : truncF F (ramRead F m a) = ramRead F m a := by
  apply BitVec.eq_of_getLsbD_eq
  intro j hj
  rw [truncF_getLsbD, ramRead, getLsbD_memReadBytes]
  by_cases h : j < 8 * fmtBytes F <;> simp [h]

end Sys2Proof.Machine
end

