-- ==== Sys2Proof/Laws/Float.lean ====
section
/-! SUPPORT. What the numeric primitives can answer: values of their format, infinities, zeros and NaNs as such, and exact
results where no rounding is needed. -/

namespace Sys2Proof.Machine

/-! ## The bits of a packed value -/

/-- One more than every magnitude the format has. -/
def magLimit (F : Fmt) : Nat := 2 ^ (mantBits F + expBits F)

theorem packSign_toNat {F : Fmt} {mag : Nat} (h : mag < magLimit F) (neg : Bool) :
    (packSign F neg mag).toNat = mag + if neg then magLimit F else 0 := by
  unfold packSign
  rw [BitVec.toNat_ofNat]
  apply Nat.mod_eq_of_lt
  cases F <;> cases neg <;> simp only [magLimit, mantBits, expBits] at h ⊢ <;> norm_num at h ⊢ <;> omega

@[simp] theorem truncF_truncF (F : Fmt) (r : Word) : truncF F (truncF F r) = truncF F r := by
  apply BitVec.eq_of_getLsbD_eq
  intro j hj
  rw [truncF_getLsbD, truncF_getLsbD]
  by_cases h : j < 8 * fmtBytes F <;> simp [h]

theorem truncF_of_lt {F : Fmt} {r : Word} (h : r.toNat < 2 * magLimit F) : truncF F r = r := by
  cases F with
  | b64 => rfl
  | b32 =>
    apply BitVec.eq_of_toNat_eq
    simp only [magLimit, mantBits, expBits] at h
    norm_num at h
    simp only [truncF, BitVec.toNat_setWidth]
    omega

@[simp] theorem unpack_truncF (F : Fmt) (r : Word) : unpack F (truncF F r) = unpack F r := by
  unfold unpack; rw [truncF_truncF]

theorem truncF_packSign {F : Fmt} {mag : Nat} (h : mag < magLimit F) (neg : Bool) :
    truncF F (packSign F neg mag) = packSign F neg mag := by
  apply truncF_of_lt
  rw [packSign_toNat h]
  split <;> omega

/-- What a packed value means. -/
theorem unpack_packSign {F : Fmt} {mag : Nat} (h : mag < magLimit F) (neg : Bool) :
    unpack F (packSign F neg mag) =
      if mag / 2 ^ mantBits F = maxExpField F then
        (if mag % 2 ^ mantBits F = 0 then .inf neg else .nan)
      else if mag / 2 ^ mantBits F = 0 then .fin neg (mag % 2 ^ mantBits F) (minExp F)
      else .fin neg (2 ^ mantBits F + mag % 2 ^ mantBits F) (minExp F + (mag / 2 ^ mantBits F : Nat) - 1) := by
  have hn := packSign_toNat h neg
  have e1 : (packSign F neg mag).toNat % 2 ^ mantBits F = mag % 2 ^ mantBits F := by
    rw [hn]
    cases F <;> cases neg <;> simp only [magLimit, mantBits, expBits] at h ⊢ <;> norm_num at h ⊢ <;> omega
  have e2 : (packSign F neg mag).toNat / 2 ^ mantBits F % 2 ^ expBits F = mag / 2 ^ mantBits F := by
    rw [hn]
    cases F <;> cases neg <;> simp only [magLimit, mantBits, expBits] at h ⊢ <;> norm_num at h ⊢ <;> omega
  have e3 : decide ((packSign F neg mag).toNat / 2 ^ (mantBits F + expBits F) = 1) = neg := by
    rw [hn]
    cases F <;> cases neg <;> simp only [magLimit, mantBits, expBits] at h ⊢ <;> norm_num at h ⊢ <;> omega
  unfold unpack
  simp only [truncF_packSign h, e1, e2, e3]

theorem inf_lt (F : Fmt) : maxExpField F * 2 ^ mantBits F < magLimit F := by cases F <;> decide

@[simp] theorem unpack_infF (F : Fmt) (neg : Bool) : unpack F (infF F neg) = .inf neg := by
  rw [infF, unpack_packSign (inf_lt F)]
  cases F <;> rfl

@[simp] theorem unpack_zeroF (F : Fmt) (neg : Bool) : unpack F (zeroF F neg) = .fin neg 0 (minExp F) := by
  rw [zeroF, unpack_packSign (by cases F <;> decide)]
  cases F <;> rfl

theorem nanMag_lt (F : Fmt) (r : Nat) :
    maxExpField F * 2 ^ mantBits F + (if r % 2 ^ mantBits F = 0 then 1 else r % 2 ^ mantBits F) < magLimit F := by
  have : (if r % 2 ^ mantBits F = 0 then 1 else r % 2 ^ mantBits F) < 2 ^ mantBits F := by
    split
    · cases F <;> decide
    · exact Nat.mod_lt _ (by positivity)
  refine Nat.lt_of_lt_of_le (Nat.add_lt_add_left this _) ?_
  cases F <;> decide

/-- A drawn NaN is a NaN, whatever the draw. -/
@[simp] theorem unpack_nanF (F : Fmt) (d : Draw) : unpack F (nanF F d) = .nan := by
  unfold nanF
  rw [unpack_packSign (nanMag_lt F _)]
  have h : (if (drawF F d).toNat % 2 ^ mantBits F = 0 then 1 else (drawF F d).toNat % 2 ^ mantBits F) < 2 ^ mantBits F := by
    split
    · cases F <;> decide
    · exact Nat.mod_lt _ (by positivity)
  have h0 : (if (drawF F d).toNat % 2 ^ mantBits F = 0 then 1 else (drawF F d).toNat % 2 ^ mantBits F) ≠ 0 := by
    split <;> omega
  have hp : 0 < 2 ^ mantBits F := by positivity
  have e1 : (maxExpField F * 2 ^ mantBits F +
      (if (drawF F d).toNat % 2 ^ mantBits F = 0 then 1 else (drawF F d).toNat % 2 ^ mantBits F)) / 2 ^ mantBits F
      = maxExpField F := by
    rw [Nat.add_comm, Nat.add_mul_div_right _ _ hp, Nat.div_eq_of_lt h, Nat.zero_add]
  have e2 : (maxExpField F * 2 ^ mantBits F +
      (if (drawF F d).toNat % 2 ^ mantBits F = 0 then 1 else (drawF F d).toNat % 2 ^ mantBits F)) % 2 ^ mantBits F ≠ 0 := by
    rw [Nat.add_comm, Nat.add_mul_mod_self_right, Nat.mod_eq_of_lt h]; exact h0
  rw [if_pos e1, if_neg e2]

@[simp] theorem isNan_nanF (F : Fmt) (d : Draw) : isNan F (nanF F d) = true := by simp [isNan]

/-! ## Every primitive answers a value of its format -/

@[simp] theorem truncF_infF (F : Fmt) (neg : Bool) : truncF F (infF F neg) = infF F neg := truncF_packSign (inf_lt F) _
@[simp] theorem truncF_zeroF (F : Fmt) (neg : Bool) : truncF F (zeroF F neg) = zeroF F neg :=
  truncF_packSign (by cases F <;> decide) _
@[simp] theorem truncF_nanF (F : Fmt) (d : Draw) : truncF F (nanF F d) = nanF F d := truncF_packSign (nanMag_lt F _) _
@[simp] theorem truncF_drawF (F : Fmt) (d : Draw) : truncF F (drawF F d) = drawF F d := truncF_truncF F _

theorem roundMag_lt (F : Fmt) (n : Nat) : min n (maxExpField F * 2 ^ mantBits F) < magLimit F :=
  Nat.lt_of_le_of_lt (Nat.min_le_right _ _) (inf_lt F)

@[simp] theorem truncF_roundFin (F : Fmt) (neg : Bool) (m : Nat) (e : Int) :
    truncF F (roundFin F neg m e) = roundFin F neg m e := by
  unfold roundFin
  split
  · exact truncF_zeroF _ _
  · exact truncF_packSign (roundMag_lt F _) _

@[simp] theorem truncF_roundQuot (F : Fmt) (neg : Bool) (m : Nat) (e : Int) (n : Nat) (f : Int) :
    truncF F (roundQuot F neg m e n f) = roundQuot F neg m e n f := truncF_roundFin _ _ _ _

@[simp] theorem truncF_roundSqrt (F : Fmt) (m : Nat) (e : Int) : truncF F (roundSqrt F m e) = roundSqrt F m e :=
  truncF_roundFin _ _ _ _

@[simp] theorem truncF_addFin (F : Fmt) (s : Bool) (m : Nat) (e : Int) (t : Bool) (n : Nat) (f : Int) :
    truncF F (addFin F s m e t n f) = addFin F s m e t n f := by
  simp only [addFin]; split <;> simp

@[simp] theorem truncF_fadd (F : Fmt) (d : Draw) (a b : Word) : truncF F (fadd F d a b) = fadd F d a b := by
  unfold fadd; repeat' (first | split | simp)

@[simp] theorem truncF_fsub (F : Fmt) (d : Draw) (a b : Word) : truncF F (fsub F d a b) = fsub F d a b :=
  truncF_fadd _ _ _ _

@[simp] theorem truncF_fmul (F : Fmt) (d : Draw) (a b : Word) : truncF F (fmul F d a b) = fmul F d a b := by
  unfold fmul; repeat' (first | split | simp)

@[simp] theorem truncF_fdiv (F : Fmt) (d : Draw) (a b : Word) : truncF F (fdiv F d a b) = fdiv F d a b := by
  unfold fdiv; repeat' (first | split | simp)

@[simp] theorem truncF_fsqrt (F : Fmt) (d : Draw) (a : Word) : truncF F (fsqrt F d a) = fsqrt F d a := by
  unfold fsqrt; repeat' (first | split | simp)

@[simp] theorem truncF_ofNatF (F : Fmt) (n : Nat) : truncF F (ofNatF F n) = ofNatF F n := truncF_roundFin _ _ _ _
@[simp] theorem truncF_oneF (F : Fmt) : truncF F (oneF F) = oneF F := truncF_ofNatF _ _
@[simp] theorem truncF_litF (F : Fmt) (n d : Nat) : truncF F (litF F n d) = litF F n d := truncF_roundQuot _ _ _ _ _ _

@[simp] theorem truncF_efuApply (f : Fmt → Word → Word) (F : Fmt) (d : Draw) (x : Word) :
    truncF F (efuApply f F d x) = efuApply f F d x := by
  unfold efuApply; split <;> simp

@[simp] theorem truncF_efuSin (F : Fmt) (d : Draw) (x : Word) : truncF F (efuSin F d x) = efuSin F d x := by
  simp only [efuSin]; repeat' (first | split | simp)

@[simp] theorem truncF_efuCos (F : Fmt) (d : Draw) (x : Word) : truncF F (efuCos F d x) = efuCos F d x :=
  truncF_efuApply _ _ _ _
@[simp] theorem truncF_efuTan (F : Fmt) (d : Draw) (x : Word) : truncF F (efuTan F d x) = efuTan F d x :=
  truncF_efuApply _ _ _ _

@[simp] theorem truncF_efuLn (F : Fmt) (d : Draw) (x : Word) : truncF F (efuLn F d x) = efuLn F d x := by
  unfold efuLn; split <;> simp

@[simp] theorem truncF_efuExp (F : Fmt) (d : Draw) (x : Word) : truncF F (efuExp F d x) = efuExp F d x := by
  unfold efuExp; split <;> simp

/-! ## Exact results -/

/-- Where `m * 2 ^ e` is a value of the format, rounding gives it back. -/
theorem unpack_roundFin_exact (F : Fmt) (neg : Bool) {m : Nat} {e : Int} (h0 : 0 < m)
    (hm : m < 2 ^ (mantBits F + 1)) (he : minExp F ≤ e)
    (hmax : e + Nat.log2 m < minExp F + maxExpField F - 1 + mantBits F) :
    ∃ m' e', unpack F (roundFin F neg m e) = .fin neg m' e' ∧ e' ≤ e ∧ m' = m * 2 ^ (e - e').toNat := by
  have hlog : Nat.log2 m < mantBits F + 1 := (Nat.log2_lt (by omega)).2 hm
  have hl : lastPlace F m e ≤ e := by
    unfold lastPlace
    exact max_le (by omega) he
  have hl2 : minExp F ≤ lastPlace F m e := le_max_right _ _
  set l := lastPlace F m e with hldef
  set sh := (e - l).toNat with hsh
  have hlogsh : Nat.log2 m + sh ≤ mantBits F := by
    have : e + (Nat.log2 m + 1 : Nat) - (mantBits F + 1 : Nat) ≤ l := le_max_left _ _
    omega
  have hsig : m * 2 ^ sh < 2 ^ (mantBits F + 1) := by
    have h1 : m < 2 ^ (Nat.log2 m + 1) := Nat.lt_log2_self
    calc m * 2 ^ sh < 2 ^ (Nat.log2 m + 1) * 2 ^ sh := Nat.mul_lt_mul_of_pos_right h1 (by positivity)
      _ = 2 ^ (Nat.log2 m + 1 + sh) := by rw [← pow_add]
      _ ≤ 2 ^ (mantBits F + 1) := Nat.pow_le_pow_right (by norm_num) (by omega)
  have hmag : roundedMag F m e l = (l - minExp F).toNat * 2 ^ mantBits F + m * 2 ^ sh := by
    simp only [roundedMag, if_pos hl, hsh]
  have hP : 2 ^ (mantBits F + 1) = 2 * 2 ^ mantBits F := by rw [pow_succ, Nat.mul_comm]
  have hPpos : 0 < 2 ^ mantBits F := by positivity
  refine ⟨m * 2 ^ sh, l, ?_, hl, rfl⟩
  unfold roundFin
  rw [if_neg (by omega), ← hldef, hmag]
  rcases (show l = minExp F ∨ minExp F < l by omega) with hlm | hlm
  · -- the last place is that of a subnormal
    have e0 : (l - minExp F).toNat = 0 := by omega
    rw [e0, Nat.zero_mul, Nat.zero_add]
    have hle : m * 2 ^ sh ≤ maxExpField F * 2 ^ mantBits F := by
      refine Nat.le_of_lt (Nat.lt_of_lt_of_le hsig ?_)
      cases F <;> decide
    rw [Nat.min_eq_left hle, unpack_packSign (Nat.lt_of_le_of_lt hle (inf_lt F))]
    by_cases hs : m * 2 ^ sh < 2 ^ mantBits F
    · rw [Nat.div_eq_of_lt hs, Nat.mod_eq_of_lt hs, hlm]
      cases F <;> rfl
    · have hd : m * 2 ^ sh / 2 ^ mantBits F = 1 := by
        apply Nat.div_eq_of_lt_le <;> omega
      have hr : m * 2 ^ sh % 2 ^ mantBits F = m * 2 ^ sh - 2 ^ mantBits F := by
        rw [Nat.mod_eq_sub_mod (by omega), Nat.mod_eq_of_lt (by omega)]
      rw [hd, hr, if_neg (by cases F <;> decide), if_neg (by norm_num), hlm]
      congr 1
      · omega
      · push_cast; ring
  · -- a normal value: the significand fills its field
    have hln : l = e + (Nat.log2 m + 1 : Nat) - (mantBits F + 1 : Nat) := by
      rcases max_choice (e + (Nat.log2 m + 1 : Nat) - (mantBits F + 1 : Nat)) (minExp F) with h | h
      · rw [hldef, lastPlace, h]
      · rw [hldef, lastPlace, h] at hlm; omega
    have hfull : 2 ^ mantBits F ≤ m * 2 ^ sh := by
      have h1 : 2 ^ Nat.log2 m ≤ m := Nat.log2_self_le (by omega)
      calc 2 ^ mantBits F = 2 ^ (Nat.log2 m + sh) := by congr 1; omega
        _ = 2 ^ Nat.log2 m * 2 ^ sh := by rw [pow_add]
        _ ≤ m * 2 ^ sh := Nat.mul_le_mul_right _ h1
    obtain ⟨x, hx⟩ : ∃ x : Nat, (l - minExp F).toNat = x := ⟨_, rfl⟩
    have hxl : l = minExp F + x := by omega
    have hxmax : x + 2 ≤ maxExpField F := by omega
    rw [hx]
    have hsum : x * 2 ^ mantBits F + m * 2 ^ sh = (m * 2 ^ sh - 2 ^ mantBits F) + (x + 1) * 2 ^ mantBits F := by
      rw [Nat.add_mul, Nat.one_mul]; omega
    have hlt : m * 2 ^ sh - 2 ^ mantBits F < 2 ^ mantBits F := by omega
    have hle : x * 2 ^ mantBits F + m * 2 ^ sh ≤ maxExpField F * 2 ^ mantBits F := by
      have := Nat.mul_le_mul_right (2 ^ mantBits F) hxmax
      rw [Nat.add_mul] at this
      omega
    rw [Nat.min_eq_left hle, unpack_packSign (Nat.lt_of_le_of_lt hle (inf_lt F)), hsum,
      Nat.add_mul_div_right _ _ hPpos, Nat.div_eq_of_lt hlt, Nat.zero_add, Nat.add_mul_mod_self_right,
      Nat.mod_eq_of_lt hlt, if_neg (by omega), if_neg (by omega)]
    congr 1
    · omega
    · push_cast; omega

/-- A small integer is exact: its bits mean it (R16). -/
theorem unpack_ofNatF (F : Fmt) {n : Nat} (h0 : 0 < n) (h : n < 2 ^ 24) :
    ∃ m e, unpack F (ofNatF F n) = .fin false m e ∧ e ≤ 0 ∧ m = n * 2 ^ (-e).toNat := by
  have hlog : Nat.log2 n < 24 := (Nat.log2_lt (by omega)).2 h
  obtain ⟨m, e, h1, h2, h3⟩ := unpack_roundFin_exact F false (m := n) (e := 0) h0
    (Nat.lt_of_lt_of_le h (by cases F <;> decide)) (by cases F <;> decide)
    (by cases F <;> simp only [minExp, maxExpField, mantBits, expBits] <;> norm_num <;> omega)
  exact ⟨m, e, h1, h2, by simpa using h3⟩

/-! ## Where a result is no NaN it does not depend on the draw -/

theorem isFinite_iff {F : Fmt} {a : Word} : isFinite F a = true ↔ ∃ s m e, unpack F a = .fin s m e := by
  unfold isFinite
  cases unpack F a <;> simp

theorem isNan_iff {F : Fmt} {a : Word} : isNan F a = true ↔ unpack F a = .nan := by
  unfold isNan
  cases unpack F a <;> simp

theorem fadd_draw {F : Fmt} {a b : Word} (ha : isFinite F a = true) (hb : isFinite F b = true) (d d' : Draw) :
    fadd F d a b = fadd F d' a b := by
  obtain ⟨s, m, e, ha⟩ := isFinite_iff.1 ha
  obtain ⟨t, n, f, hb⟩ := isFinite_iff.1 hb
  simp only [fadd, ha, hb]

theorem fmul_draw {F : Fmt} {a b : Word} (ha : isFinite F a = true) (hb : isFinite F b = true) (d d' : Draw) :
    fmul F d a b = fmul F d' a b := by
  obtain ⟨s, m, e, ha⟩ := isFinite_iff.1 ha
  obtain ⟨t, n, f, hb⟩ := isFinite_iff.1 hb
  simp only [fmul, ha, hb]

/-! ## Scaling -/

/-- Rounding a shift does not see a common factor. -/
theorem roundShift_scale (n k j : Nat) : roundShift (n * 2 ^ j) (k + j) = roundShift n k := by
  have hp : 0 < 2 ^ j := by positivity
  have hd : n * 2 ^ j / 2 ^ (k + j) = n / 2 ^ k := by rw [pow_add, Nat.mul_div_mul_right _ _ hp]
  have hr : n * 2 ^ j % 2 ^ (k + j) = n % 2 ^ k * 2 ^ j := by rw [pow_add, Nat.mul_mod_mul_right]
  unfold roundShift
  simp only [hd, hr]
  have h1 : 2 * (n % 2 ^ k * 2 ^ j) < 2 ^ (k + j) ↔ 2 * (n % 2 ^ k) < 2 ^ k := by
    rw [pow_add, ← Nat.mul_assoc]; exact Nat.mul_lt_mul_right hp
  have h2 : 2 ^ (k + j) < 2 * (n % 2 ^ k * 2 ^ j) ↔ 2 ^ k < 2 * (n % 2 ^ k) := by
    rw [pow_add, ← Nat.mul_assoc]; exact Nat.mul_lt_mul_right hp
  simp only [h1, h2]

/-- An exact shift rounds to itself. -/
theorem roundShift_exact (n j : Nat) : roundShift (n * 2 ^ j) j = n := by
  have := roundShift_scale n 0 j
  rw [Nat.zero_add] at this
  rw [this]
  simp [roundShift, Nat.mod_one]

theorem log2_mul_two_pow {m : Nat} (h : 0 < m) (j : Nat) : Nat.log2 (m * 2 ^ j) = Nat.log2 m + j := by
  refine (Nat.log2_eq_iff (by positivity)).2 ⟨?_, ?_⟩
  · rw [pow_add]; exact Nat.mul_le_mul_right _ (Nat.log2_self_le (by omega))
  · rw [show Nat.log2 m + j + 1 = (Nat.log2 m + 1) + j by omega, pow_add]
    exact Nat.mul_lt_mul_of_pos_right Nat.lt_log2_self (by positivity)

/-- The rounded value depends on the number alone, not on how it is written. -/
theorem roundFin_scale (F : Fmt) (neg : Bool) (m : Nat) (e : Int) (j : Nat) :
    roundFin F neg (m * 2 ^ j) (e - j) = roundFin F neg m e := by
  by_cases h0 : m = 0
  · subst h0; simp [roundFin]
  have hm : m * 2 ^ j ≠ 0 := by positivity
  have hl : lastPlace F (m * 2 ^ j) (e - j) = lastPlace F m e := by
    unfold lastPlace
    rw [log2_mul_two_pow (by omega)]
    congr 1
    push_cast; omega
  rw [roundFin, roundFin, if_neg h0, if_neg hm, hl]
  congr 2
  obtain ⟨l, hle⟩ : ∃ l, lastPlace F m e = l := ⟨_, rfl⟩
  rw [hle]
  simp only [roundedMag]
  congr 1
  by_cases h1 : l ≤ e - j
  · rw [if_pos h1, if_pos (by omega), Nat.mul_assoc, ← pow_add, show j + (e - j - l).toNat = (e - l).toNat by omega]
  · rw [if_neg h1]
    by_cases h2 : l ≤ e
    · rw [if_pos h2]
      obtain ⟨a, ha⟩ : ∃ a : Nat, (e - l).toNat = a := ⟨_, rfl⟩
      have : j = a + (l - (e - j)).toNat := by omega
      conv => lhs; rw [this, pow_add, ← Nat.mul_assoc]
      rw [show (l - (e - ((a + (l - (e - j)).toNat : Nat) : Int))).toNat = (l - (e - j)).toNat by omega, roundShift_exact, ha]
    · rw [if_neg h2, show (l - (e - j)).toNat = (l - e).toNat + j by omega, roundShift_scale]

/-! ## Small integers -/

/-- The sum of a small integer and 1.0 is exact. -/
theorem fadd_ofNatF_oneF (F : Fmt) (d : Draw) {n : Nat} (h0 : 0 < n) (h : n < 2 ^ 24) :
    fadd F d (ofNatF F n) (oneF F) = ofNatF F (n + 1) := by
  obtain ⟨m, e, h1, he, rfl⟩ := unpack_ofNatF F h0 h
  obtain ⟨m', e', h1', he', rfl⟩ := unpack_ofNatF F (n := 1) (by omega) (by norm_num)
  rw [fadd, h1, oneF, h1']
  obtain ⟨g, hg⟩ : ∃ g, min e e' = g := ⟨_, rfl⟩
  have hge : g ≤ e := hg ▸ min_le_left e e'
  have hge' : g ≤ e' := hg ▸ min_le_right e e'
  have a1 : (-e).toNat + (e - g).toNat = (-g).toNat := by omega
  have a2 : (-e').toNat + (e' - g).toNat = (-g).toNat := by omega
  have hx : alignedInt false (n * 2 ^ (-e).toNat) e g + alignedInt false (1 * 2 ^ (-e').toNat) e' g =
      (((n + 1) * 2 ^ (-g).toNat : Nat) : Int) := by
    simp only [alignedInt, Bool.false_eq_true, if_false, Nat.mul_assoc, ← pow_add, a1, a2]
    push_cast; ring
  have hpos : 0 < (n + 1) * 2 ^ (-g).toNat := by positivity
  simp only [addFin, hg, hx]
  rw [if_neg (by omega), decide_eq_false (by omega), Int.natAbs_natCast, ofNatF,
    ← roundFin_scale F false (n + 1) 0 (-g).toNat]
  congr 1; omega

/-- Flipping the bit above a number adds its weight. -/
theorem xor_two_pow_of_lt {n k : Nat} (h : n < 2 ^ k) : n ^^^ 2 ^ k = 2 ^ k + n := by
  apply Nat.eq_of_testBit_eq
  intro i
  rw [Nat.testBit_xor, Nat.testBit_two_pow]
  rcases Nat.lt_trichotomy i k with hi | hi | hi
  · rw [Nat.testBit_two_pow_add_gt hi]; simp [show k ≠ i by omega]
  · subst hi; rw [Nat.testBit_two_pow_add_eq]; simp
  · have h1 : 2 ^ k + n < 2 ^ i := by
      have := Nat.pow_le_pow_right (n := 2) (by norm_num) hi
      rw [Nat.succ_eq_add_one, pow_succ] at this
      omega
    rw [Nat.testBit_lt_two_pow h1, Nat.testBit_lt_two_pow (by omega)]
    simp [show k ≠ i by omega]

/-- The bits of a value of the format, as sign and magnitude. -/
theorem truncF_eq_packSign (F : Fmt) (a : Word) :
    ∃ neg mag, mag < magLimit F ∧ truncF F a = packSign F neg mag := by
  have hlt : (truncF F a).toNat < 2 * magLimit F := by
    cases F
    · simp only [truncF, magLimit, mantBits, expBits, BitVec.toNat_setWidth]; omega
    · simp only [truncF, magLimit, mantBits, expBits]; have := a.isLt; omega
  by_cases h : (truncF F a).toNat < magLimit F
  · exact ⟨false, _, h, BitVec.eq_of_toNat_eq (by rw [packSign_toNat h]; simp)⟩
  · refine ⟨true, (truncF F a).toNat - magLimit F, by omega, BitVec.eq_of_toNat_eq ?_⟩
    rw [packSign_toNat (by omega)]
    simp only [if_true, magLimit] at *
    omega

/-- Negation flips the sign and keeps the magnitude. -/
theorem fneg_eq_packSign {F : Fmt} {a : Word} {neg : Bool} {mag : Nat} (hm : mag < magLimit F)
    (h : truncF F a = packSign F neg mag) : fneg F a = packSign F (!neg) mag := by
  have h0 : 0 < magLimit F := by cases F <;> decide
  have hP : magLimit F = 2 ^ (mantBits F + expBits F) := rfl
  apply BitVec.eq_of_toNat_eq
  rw [fneg, h, BitVec.toNat_xor, packSign_toNat hm, packSign_toNat h0, packSign_toNat hm]
  rw [hP] at hm
  cases neg with
  | false => simp only [Bool.false_eq_true, if_false, if_true, Bool.not_false, Nat.add_zero, Nat.zero_add, hP]; rw [xor_two_pow_of_lt hm]; omega
  | true =>
    simp only [Bool.false_eq_true, if_false, if_true, Bool.not_true, Nat.add_zero, Nat.zero_add, hP]
    rw [Nat.add_comm mag, ← xor_two_pow_of_lt hm, Nat.xor_assoc, Nat.xor_self, Nat.xor_zero]

/-- Negation flips the sign of what a finite value means. -/
theorem unpack_fneg_fin {F : Fmt} {a : Word} {s : Bool} {m : Nat} {e : Int} (h : unpack F a = .fin s m e) :
    unpack F (fneg F a) = .fin (!s) m e := by
  obtain ⟨neg, mag, hm, ht⟩ := truncF_eq_packSign F a
  rw [← unpack_truncF, ht, unpack_packSign hm] at h
  rw [fneg_eq_packSign hm ht, unpack_packSign hm]
  split at h
  · split at h <;> simp at h
  · next h1 =>
    rw [if_neg h1]
    split at h
    · next h2 => rw [if_pos h2]; cases h; rfl
    · next h2 => rw [if_neg h2]; cases h; rfl

/-- The difference of a small integer and 1.0 is exact. -/
theorem fsub_ofNatF_oneF (F : Fmt) (d : Draw) {n : Nat} (h0 : 1 < n) (h : n < 2 ^ 24) :
    fsub F d (ofNatF F n) (oneF F) = ofNatF F (n - 1) := by
  obtain ⟨m, e, h1, he, rfl⟩ := unpack_ofNatF F (by omega) h
  obtain ⟨m', e', h1', he', rfl⟩ := unpack_ofNatF F (n := 1) (by omega) (by norm_num)
  rw [fsub, fadd, h1, oneF, unpack_fneg_fin h1']
  obtain ⟨g, hg⟩ : ∃ g, min e e' = g := ⟨_, rfl⟩
  have hge : g ≤ e := hg ▸ min_le_left e e'
  have hge' : g ≤ e' := hg ▸ min_le_right e e'
  have a1 : (-e).toNat + (e - g).toNat = (-g).toNat := by omega
  have a2 : (-e').toNat + (e' - g).toNat = (-g).toNat := by omega
  have hx : alignedInt false (n * 2 ^ (-e).toNat) e g + alignedInt (!false) (1 * 2 ^ (-e').toNat) e' g =
      (((n - 1) * 2 ^ (-g).toNat : Nat) : Int) := by
    simp only [alignedInt, Bool.false_eq_true, Bool.not_false, if_true, if_false, Nat.mul_assoc, ← pow_add, a1, a2]
    push_cast [show 1 ≤ n by omega]; ring
  have hpos : 0 < (n - 1) * 2 ^ (-g).toNat := Nat.mul_pos (by omega) (by positivity)
  simp only [addFin, hg, hx]
  rw [if_neg (by omega), decide_eq_false (by omega), Int.natAbs_natCast, ofNatF,
    ← roundFin_scale F false (n - 1) 0 (-g).toNat]
  congr 1; omega

/-- A value below a small integer has its integer part below it. -/
theorem floorUint_lt_of_ltF {F : Fmt} {v : Word} {n : Nat} (h0 : 0 < n) (hn : n < 2 ^ 24)
    (h : ltF F v (ofNatF F n) = true) : floorUint F v < n := by
  obtain ⟨m', e', h1', he', rfl⟩ := unpack_ofNatF F h0 hn
  unfold floorUint
  unfold ltF at h
  rw [h1'] at h
  cases hv : unpack F v with
  | nan => exact h0
  | inf s => exact h0
  | fin s m e =>
    rw [hv] at h
    cases s with
    | true => simpa using h0
    | false =>
      simp only [alignedInt, Bool.false_eq_true, if_false, decide_eq_true_eq, Int.ofNat_lt] at h ⊢
      obtain ⟨g, hg⟩ : ∃ g, min e e' = g := ⟨_, rfl⟩
      have hge : g ≤ e := hg ▸ min_le_left e e'
      have hge' : g ≤ e' := hg ▸ min_le_right e e'
      rw [hg, Nat.mul_assoc, ← pow_add, show (-e').toNat + (e' - g).toNat = (-g).toNat by omega] at h
      by_cases he : 0 ≤ e
      · rw [if_pos he]
        rw [show (e - g).toNat = e.toNat + (-g).toNat by omega, pow_add, ← Nat.mul_assoc] at h
        exact Nat.lt_of_mul_lt_mul_right h
      · rw [if_neg he, Nat.div_lt_iff_lt_mul (by positivity)]
        rw [show (-g).toNat = (-e).toNat + (e - g).toNat by omega, pow_add, ← Nat.mul_assoc] at h
        exact Nat.lt_of_mul_lt_mul_right h

/-- A finite value that is at least a small integer has its integer part at least that. -/
theorem le_floorUint_of_leF {F : Fmt} {v : Word} {n : Nat} (h0 : 0 < n) (hn : n < 2 ^ 24) (hf : isFinite F v = true)
    (h : leF F (ofNatF F n) v = true) : n ≤ floorUint F v := by
  obtain ⟨m', e', h1', he', rfl⟩ := unpack_ofNatF F h0 hn
  obtain ⟨s, m, e, hv⟩ := isFinite_iff.1 hf
  simp only [leF, Bool.and_eq_true, Bool.not_eq_true', ltF, hv, h1', decide_eq_false_iff_not] at h
  obtain ⟨-, h⟩ := h
  obtain ⟨g, hg⟩ : ∃ g, min e e' = g := ⟨_, rfl⟩
  have hge : g ≤ e := hg ▸ min_le_left e e'
  have hge' : g ≤ e' := hg ▸ min_le_right e e'
  have hP : 0 < n * 2 ^ (-e').toNat * 2 ^ (e' - g).toNat := by positivity
  simp only [floorUint, hv]
  cases s with
  | true =>
    simp only [alignedInt, hg, Bool.false_eq_true, if_false, if_true] at h
    omega
  | false =>
    simp only [alignedInt, hg, Bool.false_eq_true, if_false, Int.ofNat_lt, Nat.not_lt] at h ⊢
    rw [Nat.mul_assoc, ← pow_add, show (-e').toNat + (e' - g).toNat = (-g).toNat by omega] at h
    by_cases he : 0 ≤ e
    · rw [if_pos he]
      rw [show (e - g).toNat = e.toNat + (-g).toNat by omega, pow_add, ← Nat.mul_assoc] at h
      exact Nat.le_of_mul_le_mul_right h (by positivity)
    · rw [if_neg he, Nat.le_div_iff_mul_le (by positivity)]
      rw [show (-g).toNat = (-e).toNat + (e - g).toNat by omega, pow_add, ← Nat.mul_assoc] at h
      exact Nat.le_of_mul_le_mul_right h (by positivity)

end Sys2Proof.Machine
end

