-- ==== Sys2Proof/Laws/State.lean ====
section
/-! SUPPORT. One lemma per field per named update of the state, and what taking a fault does to each field. -/

namespace Sys2Proof.Machine

/-! ## `State.setStage` -/

@[simp] theorem State.setStage_cmd (s : State) (k : Nat) (st : Stage) : (s.setStage k st).cmd = s.cmd := rfl
@[simp] theorem State.setStage_fault (s : State) (k : Nat) (st : Stage) : (s.setStage k st).fault = s.fault := rfl
@[simp] theorem State.setStage_firWarn (s : State) (k : Nat) (st : Stage) : (s.setStage k st).firWarn = s.firWarn := rfl
@[simp] theorem State.setStage_uvOk (s : State) (k : Nat) (st : Stage) : (s.setStage k st).uvOk = s.uvOk := rfl
@[simp] theorem State.setStage_iirOk (s : State) (k : Nat) (st : Stage) : (s.setStage k st).iirOk = s.iirOk := rfl
@[simp] theorem State.setStage_firOk (s : State) (k : Nat) (st : Stage) : (s.setStage k st).firOk = s.firOk := rfl
@[simp] theorem State.setStage_fcode (s : State) (k : Nat) (st : Stage) : (s.setStage k st).fcode = s.fcode := rfl
@[simp] theorem State.setStage_finfo (s : State) (k : Nat) (st : Stage) : (s.setStage k st).finfo = s.finfo := rfl
@[simp] theorem State.setStage_res (s : State) (k : Nat) (st : Stage) : (s.setStage k st).res = s.res := rfl
@[simp] theorem State.setStage_arg0 (s : State) (k : Nat) (st : Stage) : (s.setStage k st).arg0 = s.arg0 := rfl
@[simp] theorem State.setStage_arg1 (s : State) (k : Nat) (st : Stage) : (s.setStage k st).arg1 = s.arg1 := rfl
@[simp] theorem State.setStage_arg2 (s : State) (k : Nat) (st : Stage) : (s.setStage k st).arg2 = s.arg2 := rfl
@[simp] theorem State.setStage_arg3 (s : State) (k : Nat) (st : Stage) : (s.setStage k st).arg3 = s.arg3 := rfl
@[simp] theorem State.setStage_arg4 (s : State) (k : Nat) (st : Stage) : (s.setStage k st).arg4 = s.arg4 := rfl
@[simp] theorem State.setStage_uvSr (s : State) (k : Nat) (st : Stage) : (s.setStage k st).uvSr = s.uvSr := rfl
@[simp] theorem State.setStage_uvBase (s : State) (k : Nat) (st : Stage) : (s.setStage k st).uvBase = s.uvBase := rfl
@[simp] theorem State.setStage_uvRange (s : State) (k : Nat) (st : Stage) : (s.setStage k st).uvRange = s.uvRange := rfl
@[simp] theorem State.setStage_uvNst (s : State) (k : Nat) (st : Stage) : (s.setStage k st).uvNst = s.uvNst := rfl
@[simp] theorem State.setStage_iirSr (s : State) (k : Nat) (st : Stage) : (s.setStage k st).iirSr = s.iirSr := rfl
@[simp] theorem State.setStage_iirB0 (s : State) (k : Nat) (st : Stage) : (s.setStage k st).iirB0 = s.iirB0 := rfl
@[simp] theorem State.setStage_iirA1 (s : State) (k : Nat) (st : Stage) : (s.setStage k st).iirA1 = s.iirA1 := rfl
@[simp] theorem State.setStage_iirY1 (s : State) (k : Nat) (st : Stage) : (s.setStage k st).iirY1 = s.iirY1 := rfl
@[simp] theorem State.setStage_firSr (s : State) (k : Nat) (st : Stage) : (s.setStage k st).firSr = s.firSr := rfl
@[simp] theorem State.setStage_firOrder (s : State) (k : Nat) (st : Stage) : (s.setStage k st).firOrder = s.firOrder := rfl
@[simp] theorem State.setStage_stages (s : State) (k : Nat) (st : Stage) : (s.setStage k st).stages = s.stages.setIfInBounds k st := rfl
@[simp] theorem State.setStage_mem (s : State) (k : Nat) (st : Stage) : (s.setStage k st).mem = s.mem := rfl
@[simp] theorem State.setStage_cfg (s : State) (k : Nat) (st : Stage) : (s.setStage k st).cfg = s.cfg := rfl
@[simp] theorem State.setStage_draws (s : State) (k : Nat) (st : Stage) : (s.setStage k st).draws = s.draws := rfl
@[simp] theorem State.setStage_inReset (s : State) (k : Nat) (st : Stage) : (s.setStage k st).inReset = s.inReset := rfl
@[simp] theorem State.setStage_pending (s : State) (k : Nat) (st : Stage) : (s.setStage k st).pending = s.pending := rfl
@[simp] theorem State.setStage_readLog (s : State) (k : Nat) (st : Stage) : (s.setStage k st).readLog = s.readLog := rfl

/-! ## `State.setMem` -/

@[simp] theorem State.setMem_cmd (s : State) (m : Memory) : (s.setMem m).cmd = s.cmd := rfl
@[simp] theorem State.setMem_fault (s : State) (m : Memory) : (s.setMem m).fault = s.fault := rfl
@[simp] theorem State.setMem_firWarn (s : State) (m : Memory) : (s.setMem m).firWarn = s.firWarn := rfl
@[simp] theorem State.setMem_uvOk (s : State) (m : Memory) : (s.setMem m).uvOk = s.uvOk := rfl
@[simp] theorem State.setMem_iirOk (s : State) (m : Memory) : (s.setMem m).iirOk = s.iirOk := rfl
@[simp] theorem State.setMem_firOk (s : State) (m : Memory) : (s.setMem m).firOk = s.firOk := rfl
@[simp] theorem State.setMem_fcode (s : State) (m : Memory) : (s.setMem m).fcode = s.fcode := rfl
@[simp] theorem State.setMem_finfo (s : State) (m : Memory) : (s.setMem m).finfo = s.finfo := rfl
@[simp] theorem State.setMem_res (s : State) (m : Memory) : (s.setMem m).res = s.res := rfl
@[simp] theorem State.setMem_arg0 (s : State) (m : Memory) : (s.setMem m).arg0 = s.arg0 := rfl
@[simp] theorem State.setMem_arg1 (s : State) (m : Memory) : (s.setMem m).arg1 = s.arg1 := rfl
@[simp] theorem State.setMem_arg2 (s : State) (m : Memory) : (s.setMem m).arg2 = s.arg2 := rfl
@[simp] theorem State.setMem_arg3 (s : State) (m : Memory) : (s.setMem m).arg3 = s.arg3 := rfl
@[simp] theorem State.setMem_arg4 (s : State) (m : Memory) : (s.setMem m).arg4 = s.arg4 := rfl
@[simp] theorem State.setMem_uvSr (s : State) (m : Memory) : (s.setMem m).uvSr = s.uvSr := rfl
@[simp] theorem State.setMem_uvBase (s : State) (m : Memory) : (s.setMem m).uvBase = s.uvBase := rfl
@[simp] theorem State.setMem_uvRange (s : State) (m : Memory) : (s.setMem m).uvRange = s.uvRange := rfl
@[simp] theorem State.setMem_uvNst (s : State) (m : Memory) : (s.setMem m).uvNst = s.uvNst := rfl
@[simp] theorem State.setMem_iirSr (s : State) (m : Memory) : (s.setMem m).iirSr = s.iirSr := rfl
@[simp] theorem State.setMem_iirB0 (s : State) (m : Memory) : (s.setMem m).iirB0 = s.iirB0 := rfl
@[simp] theorem State.setMem_iirA1 (s : State) (m : Memory) : (s.setMem m).iirA1 = s.iirA1 := rfl
@[simp] theorem State.setMem_iirY1 (s : State) (m : Memory) : (s.setMem m).iirY1 = s.iirY1 := rfl
@[simp] theorem State.setMem_firSr (s : State) (m : Memory) : (s.setMem m).firSr = s.firSr := rfl
@[simp] theorem State.setMem_firOrder (s : State) (m : Memory) : (s.setMem m).firOrder = s.firOrder := rfl
@[simp] theorem State.setMem_stages (s : State) (m : Memory) : (s.setMem m).stages = s.stages := rfl
@[simp] theorem State.setMem_mem (s : State) (m : Memory) : (s.setMem m).mem = m := rfl
@[simp] theorem State.setMem_cfg (s : State) (m : Memory) : (s.setMem m).cfg = s.cfg := rfl
@[simp] theorem State.setMem_draws (s : State) (m : Memory) : (s.setMem m).draws = s.draws := rfl
@[simp] theorem State.setMem_inReset (s : State) (m : Memory) : (s.setMem m).inReset = s.inReset := rfl
@[simp] theorem State.setMem_pending (s : State) (m : Memory) : (s.setMem m).pending = s.pending := rfl
@[simp] theorem State.setMem_readLog (s : State) (m : Memory) : (s.setMem m).readLog = s.readLog := rfl

/-! ## `State.setRes` -/

@[simp] theorem State.setRes_cmd (s : State) (v : Word) : (s.setRes v).cmd = s.cmd := rfl
@[simp] theorem State.setRes_fault (s : State) (v : Word) : (s.setRes v).fault = s.fault := rfl
@[simp] theorem State.setRes_firWarn (s : State) (v : Word) : (s.setRes v).firWarn = s.firWarn := rfl
@[simp] theorem State.setRes_uvOk (s : State) (v : Word) : (s.setRes v).uvOk = s.uvOk := rfl
@[simp] theorem State.setRes_iirOk (s : State) (v : Word) : (s.setRes v).iirOk = s.iirOk := rfl
@[simp] theorem State.setRes_firOk (s : State) (v : Word) : (s.setRes v).firOk = s.firOk := rfl
@[simp] theorem State.setRes_fcode (s : State) (v : Word) : (s.setRes v).fcode = s.fcode := rfl
@[simp] theorem State.setRes_finfo (s : State) (v : Word) : (s.setRes v).finfo = s.finfo := rfl
@[simp] theorem State.setRes_res (s : State) (v : Word) : (s.setRes v).res = v := rfl
@[simp] theorem State.setRes_arg0 (s : State) (v : Word) : (s.setRes v).arg0 = s.arg0 := rfl
@[simp] theorem State.setRes_arg1 (s : State) (v : Word) : (s.setRes v).arg1 = s.arg1 := rfl
@[simp] theorem State.setRes_arg2 (s : State) (v : Word) : (s.setRes v).arg2 = s.arg2 := rfl
@[simp] theorem State.setRes_arg3 (s : State) (v : Word) : (s.setRes v).arg3 = s.arg3 := rfl
@[simp] theorem State.setRes_arg4 (s : State) (v : Word) : (s.setRes v).arg4 = s.arg4 := rfl
@[simp] theorem State.setRes_uvSr (s : State) (v : Word) : (s.setRes v).uvSr = s.uvSr := rfl
@[simp] theorem State.setRes_uvBase (s : State) (v : Word) : (s.setRes v).uvBase = s.uvBase := rfl
@[simp] theorem State.setRes_uvRange (s : State) (v : Word) : (s.setRes v).uvRange = s.uvRange := rfl
@[simp] theorem State.setRes_uvNst (s : State) (v : Word) : (s.setRes v).uvNst = s.uvNst := rfl
@[simp] theorem State.setRes_iirSr (s : State) (v : Word) : (s.setRes v).iirSr = s.iirSr := rfl
@[simp] theorem State.setRes_iirB0 (s : State) (v : Word) : (s.setRes v).iirB0 = s.iirB0 := rfl
@[simp] theorem State.setRes_iirA1 (s : State) (v : Word) : (s.setRes v).iirA1 = s.iirA1 := rfl
@[simp] theorem State.setRes_iirY1 (s : State) (v : Word) : (s.setRes v).iirY1 = s.iirY1 := rfl
@[simp] theorem State.setRes_firSr (s : State) (v : Word) : (s.setRes v).firSr = s.firSr := rfl
@[simp] theorem State.setRes_firOrder (s : State) (v : Word) : (s.setRes v).firOrder = s.firOrder := rfl
@[simp] theorem State.setRes_stages (s : State) (v : Word) : (s.setRes v).stages = s.stages := rfl
@[simp] theorem State.setRes_mem (s : State) (v : Word) : (s.setRes v).mem = s.mem := rfl
@[simp] theorem State.setRes_cfg (s : State) (v : Word) : (s.setRes v).cfg = s.cfg := rfl
@[simp] theorem State.setRes_draws (s : State) (v : Word) : (s.setRes v).draws = s.draws := rfl
@[simp] theorem State.setRes_inReset (s : State) (v : Word) : (s.setRes v).inReset = s.inReset := rfl
@[simp] theorem State.setRes_pending (s : State) (v : Word) : (s.setRes v).pending = s.pending := rfl
@[simp] theorem State.setRes_readLog (s : State) (v : Word) : (s.setRes v).readLog = s.readLog := rfl

/-! ## `State.setCmd` -/

@[simp] theorem State.setCmd_cmd (s : State) (w : CmdWord) : (s.setCmd w).cmd = w := rfl
@[simp] theorem State.setCmd_fault (s : State) (w : CmdWord) : (s.setCmd w).fault = s.fault := rfl
@[simp] theorem State.setCmd_firWarn (s : State) (w : CmdWord) : (s.setCmd w).firWarn = s.firWarn := rfl
@[simp] theorem State.setCmd_uvOk (s : State) (w : CmdWord) : (s.setCmd w).uvOk = s.uvOk := rfl
@[simp] theorem State.setCmd_iirOk (s : State) (w : CmdWord) : (s.setCmd w).iirOk = s.iirOk := rfl
@[simp] theorem State.setCmd_firOk (s : State) (w : CmdWord) : (s.setCmd w).firOk = s.firOk := rfl
@[simp] theorem State.setCmd_fcode (s : State) (w : CmdWord) : (s.setCmd w).fcode = s.fcode := rfl
@[simp] theorem State.setCmd_finfo (s : State) (w : CmdWord) : (s.setCmd w).finfo = s.finfo := rfl
@[simp] theorem State.setCmd_res (s : State) (w : CmdWord) : (s.setCmd w).res = s.res := rfl
@[simp] theorem State.setCmd_arg0 (s : State) (w : CmdWord) : (s.setCmd w).arg0 = s.arg0 := rfl
@[simp] theorem State.setCmd_arg1 (s : State) (w : CmdWord) : (s.setCmd w).arg1 = s.arg1 := rfl
@[simp] theorem State.setCmd_arg2 (s : State) (w : CmdWord) : (s.setCmd w).arg2 = s.arg2 := rfl
@[simp] theorem State.setCmd_arg3 (s : State) (w : CmdWord) : (s.setCmd w).arg3 = s.arg3 := rfl
@[simp] theorem State.setCmd_arg4 (s : State) (w : CmdWord) : (s.setCmd w).arg4 = s.arg4 := rfl
@[simp] theorem State.setCmd_uvSr (s : State) (w : CmdWord) : (s.setCmd w).uvSr = s.uvSr := rfl
@[simp] theorem State.setCmd_uvBase (s : State) (w : CmdWord) : (s.setCmd w).uvBase = s.uvBase := rfl
@[simp] theorem State.setCmd_uvRange (s : State) (w : CmdWord) : (s.setCmd w).uvRange = s.uvRange := rfl
@[simp] theorem State.setCmd_uvNst (s : State) (w : CmdWord) : (s.setCmd w).uvNst = s.uvNst := rfl
@[simp] theorem State.setCmd_iirSr (s : State) (w : CmdWord) : (s.setCmd w).iirSr = s.iirSr := rfl
@[simp] theorem State.setCmd_iirB0 (s : State) (w : CmdWord) : (s.setCmd w).iirB0 = s.iirB0 := rfl
@[simp] theorem State.setCmd_iirA1 (s : State) (w : CmdWord) : (s.setCmd w).iirA1 = s.iirA1 := rfl
@[simp] theorem State.setCmd_iirY1 (s : State) (w : CmdWord) : (s.setCmd w).iirY1 = s.iirY1 := rfl
@[simp] theorem State.setCmd_firSr (s : State) (w : CmdWord) : (s.setCmd w).firSr = s.firSr := rfl
@[simp] theorem State.setCmd_firOrder (s : State) (w : CmdWord) : (s.setCmd w).firOrder = s.firOrder := rfl
@[simp] theorem State.setCmd_stages (s : State) (w : CmdWord) : (s.setCmd w).stages = s.stages := rfl
@[simp] theorem State.setCmd_mem (s : State) (w : CmdWord) : (s.setCmd w).mem = s.mem := rfl
@[simp] theorem State.setCmd_cfg (s : State) (w : CmdWord) : (s.setCmd w).cfg = s.cfg := rfl
@[simp] theorem State.setCmd_draws (s : State) (w : CmdWord) : (s.setCmd w).draws = s.draws := rfl
@[simp] theorem State.setCmd_inReset (s : State) (w : CmdWord) : (s.setCmd w).inReset = s.inReset := rfl
@[simp] theorem State.setCmd_pending (s : State) (w : CmdWord) : (s.setCmd w).pending = s.pending := rfl
@[simp] theorem State.setCmd_readLog (s : State) (w : CmdWord) : (s.setCmd w).readLog = s.readLog := rfl

/-! ## `State.tick` -/

@[simp] theorem State.tick_cmd (s : State) : (s.tick).cmd = s.cmd := rfl
@[simp] theorem State.tick_fault (s : State) : (s.tick).fault = s.fault := rfl
@[simp] theorem State.tick_firWarn (s : State) : (s.tick).firWarn = s.firWarn := rfl
@[simp] theorem State.tick_uvOk (s : State) : (s.tick).uvOk = s.uvOk := rfl
@[simp] theorem State.tick_iirOk (s : State) : (s.tick).iirOk = s.iirOk := rfl
@[simp] theorem State.tick_firOk (s : State) : (s.tick).firOk = s.firOk := rfl
@[simp] theorem State.tick_fcode (s : State) : (s.tick).fcode = s.fcode := rfl
@[simp] theorem State.tick_finfo (s : State) : (s.tick).finfo = s.finfo := rfl
@[simp] theorem State.tick_res (s : State) : (s.tick).res = s.res := rfl
@[simp] theorem State.tick_arg0 (s : State) : (s.tick).arg0 = s.arg0 := rfl
@[simp] theorem State.tick_arg1 (s : State) : (s.tick).arg1 = s.arg1 := rfl
@[simp] theorem State.tick_arg2 (s : State) : (s.tick).arg2 = s.arg2 := rfl
@[simp] theorem State.tick_arg3 (s : State) : (s.tick).arg3 = s.arg3 := rfl
@[simp] theorem State.tick_arg4 (s : State) : (s.tick).arg4 = s.arg4 := rfl
@[simp] theorem State.tick_uvSr (s : State) : (s.tick).uvSr = s.uvSr := rfl
@[simp] theorem State.tick_uvBase (s : State) : (s.tick).uvBase = s.uvBase := rfl
@[simp] theorem State.tick_uvRange (s : State) : (s.tick).uvRange = s.uvRange := rfl
@[simp] theorem State.tick_uvNst (s : State) : (s.tick).uvNst = s.uvNst := rfl
@[simp] theorem State.tick_iirSr (s : State) : (s.tick).iirSr = s.iirSr := rfl
@[simp] theorem State.tick_iirB0 (s : State) : (s.tick).iirB0 = s.iirB0 := rfl
@[simp] theorem State.tick_iirA1 (s : State) : (s.tick).iirA1 = s.iirA1 := rfl
@[simp] theorem State.tick_iirY1 (s : State) : (s.tick).iirY1 = s.iirY1 := rfl
@[simp] theorem State.tick_firSr (s : State) : (s.tick).firSr = s.firSr := rfl
@[simp] theorem State.tick_firOrder (s : State) : (s.tick).firOrder = s.firOrder := rfl
@[simp] theorem State.tick_stages (s : State) : (s.tick).stages = s.stages := rfl
@[simp] theorem State.tick_mem (s : State) : (s.tick).mem = s.mem := rfl
@[simp] theorem State.tick_cfg (s : State) : (s.tick).cfg = s.cfg := rfl
@[simp] theorem State.tick_draws (s : State) : (s.tick).draws = s.draws + 1 := rfl
@[simp] theorem State.tick_inReset (s : State) : (s.tick).inReset = s.inReset := rfl
@[simp] theorem State.tick_pending (s : State) : (s.tick).pending = s.pending := rfl
@[simp] theorem State.tick_readLog (s : State) : (s.tick).readLog = s.readLog := rfl

/-! ## `State.returnF` -/

@[simp] theorem State.returnF_cmd (s : State) (F : Fmt) (v : Word) : (s.returnF F v).cmd = s.cmd := rfl
@[simp] theorem State.returnF_fault (s : State) (F : Fmt) (v : Word) : (s.returnF F v).fault = s.fault := rfl
@[simp] theorem State.returnF_firWarn (s : State) (F : Fmt) (v : Word) : (s.returnF F v).firWarn = s.firWarn := rfl
@[simp] theorem State.returnF_uvOk (s : State) (F : Fmt) (v : Word) : (s.returnF F v).uvOk = s.uvOk := rfl
@[simp] theorem State.returnF_iirOk (s : State) (F : Fmt) (v : Word) : (s.returnF F v).iirOk = s.iirOk := rfl
@[simp] theorem State.returnF_firOk (s : State) (F : Fmt) (v : Word) : (s.returnF F v).firOk = s.firOk := rfl
@[simp] theorem State.returnF_fcode (s : State) (F : Fmt) (v : Word) : (s.returnF F v).fcode = s.fcode := rfl
@[simp] theorem State.returnF_finfo (s : State) (F : Fmt) (v : Word) : (s.returnF F v).finfo = s.finfo := rfl
@[simp] theorem State.returnF_res (s : State) (F : Fmt) (v : Word) : (s.returnF F v).res = truncF F v := rfl
@[simp] theorem State.returnF_arg0 (s : State) (F : Fmt) (v : Word) : (s.returnF F v).arg0 = s.arg0 := rfl
@[simp] theorem State.returnF_arg1 (s : State) (F : Fmt) (v : Word) : (s.returnF F v).arg1 = s.arg1 := rfl
@[simp] theorem State.returnF_arg2 (s : State) (F : Fmt) (v : Word) : (s.returnF F v).arg2 = s.arg2 := rfl
@[simp] theorem State.returnF_arg3 (s : State) (F : Fmt) (v : Word) : (s.returnF F v).arg3 = s.arg3 := rfl
@[simp] theorem State.returnF_arg4 (s : State) (F : Fmt) (v : Word) : (s.returnF F v).arg4 = s.arg4 := rfl
@[simp] theorem State.returnF_uvSr (s : State) (F : Fmt) (v : Word) : (s.returnF F v).uvSr = s.uvSr := rfl
@[simp] theorem State.returnF_uvBase (s : State) (F : Fmt) (v : Word) : (s.returnF F v).uvBase = s.uvBase := rfl
@[simp] theorem State.returnF_uvRange (s : State) (F : Fmt) (v : Word) : (s.returnF F v).uvRange = s.uvRange := rfl
@[simp] theorem State.returnF_uvNst (s : State) (F : Fmt) (v : Word) : (s.returnF F v).uvNst = s.uvNst := rfl
@[simp] theorem State.returnF_iirSr (s : State) (F : Fmt) (v : Word) : (s.returnF F v).iirSr = s.iirSr := rfl
@[simp] theorem State.returnF_iirB0 (s : State) (F : Fmt) (v : Word) : (s.returnF F v).iirB0 = s.iirB0 := rfl
@[simp] theorem State.returnF_iirA1 (s : State) (F : Fmt) (v : Word) : (s.returnF F v).iirA1 = s.iirA1 := rfl
@[simp] theorem State.returnF_iirY1 (s : State) (F : Fmt) (v : Word) : (s.returnF F v).iirY1 = s.iirY1 := rfl
@[simp] theorem State.returnF_firSr (s : State) (F : Fmt) (v : Word) : (s.returnF F v).firSr = s.firSr := rfl
@[simp] theorem State.returnF_firOrder (s : State) (F : Fmt) (v : Word) : (s.returnF F v).firOrder = s.firOrder := rfl
@[simp] theorem State.returnF_stages (s : State) (F : Fmt) (v : Word) : (s.returnF F v).stages = s.stages := rfl
@[simp] theorem State.returnF_mem (s : State) (F : Fmt) (v : Word) : (s.returnF F v).mem = s.mem := rfl
@[simp] theorem State.returnF_cfg (s : State) (F : Fmt) (v : Word) : (s.returnF F v).cfg = s.cfg := rfl
@[simp] theorem State.returnF_draws (s : State) (F : Fmt) (v : Word) : (s.returnF F v).draws = s.draws := rfl
@[simp] theorem State.returnF_inReset (s : State) (F : Fmt) (v : Word) : (s.returnF F v).inReset = s.inReset := rfl
@[simp] theorem State.returnF_pending (s : State) (F : Fmt) (v : Word) : (s.returnF F v).pending = s.pending := rfl
@[simp] theorem State.returnF_readLog (s : State) (F : Fmt) (v : Word) : (s.returnF F v).readLog = s.readLog := rfl

/-! ## `State.clearFault` -/

@[simp] theorem State.clearFault_cmd (s : State) : (s.clearFault).cmd = s.cmd := rfl
@[simp] theorem State.clearFault_fault (s : State) : (s.clearFault).fault = false := rfl
@[simp] theorem State.clearFault_firWarn (s : State) : (s.clearFault).firWarn = s.firWarn := rfl
@[simp] theorem State.clearFault_uvOk (s : State) : (s.clearFault).uvOk = s.uvOk := rfl
@[simp] theorem State.clearFault_iirOk (s : State) : (s.clearFault).iirOk = s.iirOk := rfl
@[simp] theorem State.clearFault_firOk (s : State) : (s.clearFault).firOk = s.firOk := rfl
@[simp] theorem State.clearFault_fcode (s : State) : (s.clearFault).fcode = 0 := rfl
@[simp] theorem State.clearFault_finfo (s : State) : (s.clearFault).finfo = 0 := rfl
@[simp] theorem State.clearFault_res (s : State) : (s.clearFault).res = s.res := rfl
@[simp] theorem State.clearFault_arg0 (s : State) : (s.clearFault).arg0 = s.arg0 := rfl
@[simp] theorem State.clearFault_arg1 (s : State) : (s.clearFault).arg1 = s.arg1 := rfl
@[simp] theorem State.clearFault_arg2 (s : State) : (s.clearFault).arg2 = s.arg2 := rfl
@[simp] theorem State.clearFault_arg3 (s : State) : (s.clearFault).arg3 = s.arg3 := rfl
@[simp] theorem State.clearFault_arg4 (s : State) : (s.clearFault).arg4 = s.arg4 := rfl
@[simp] theorem State.clearFault_uvSr (s : State) : (s.clearFault).uvSr = s.uvSr := rfl
@[simp] theorem State.clearFault_uvBase (s : State) : (s.clearFault).uvBase = s.uvBase := rfl
@[simp] theorem State.clearFault_uvRange (s : State) : (s.clearFault).uvRange = s.uvRange := rfl
@[simp] theorem State.clearFault_uvNst (s : State) : (s.clearFault).uvNst = s.uvNst := rfl
@[simp] theorem State.clearFault_iirSr (s : State) : (s.clearFault).iirSr = s.iirSr := rfl
@[simp] theorem State.clearFault_iirB0 (s : State) : (s.clearFault).iirB0 = s.iirB0 := rfl
@[simp] theorem State.clearFault_iirA1 (s : State) : (s.clearFault).iirA1 = s.iirA1 := rfl
@[simp] theorem State.clearFault_iirY1 (s : State) : (s.clearFault).iirY1 = s.iirY1 := rfl
@[simp] theorem State.clearFault_firSr (s : State) : (s.clearFault).firSr = s.firSr := rfl
@[simp] theorem State.clearFault_firOrder (s : State) : (s.clearFault).firOrder = s.firOrder := rfl
@[simp] theorem State.clearFault_stages (s : State) : (s.clearFault).stages = s.stages := rfl
@[simp] theorem State.clearFault_mem (s : State) : (s.clearFault).mem = s.mem := rfl
@[simp] theorem State.clearFault_cfg (s : State) : (s.clearFault).cfg = s.cfg := rfl
@[simp] theorem State.clearFault_draws (s : State) : (s.clearFault).draws = s.draws := rfl
@[simp] theorem State.clearFault_inReset (s : State) : (s.clearFault).inReset = s.inReset := rfl
@[simp] theorem State.clearFault_pending (s : State) : (s.clearFault).pending = s.pending := rfl
@[simp] theorem State.clearFault_readLog (s : State) : (s.clearFault).readLog = s.readLog := rfl

/-! ## `State.clearFirWarn` -/

@[simp] theorem State.clearFirWarn_cmd (s : State) : (s.clearFirWarn).cmd = s.cmd := rfl
@[simp] theorem State.clearFirWarn_fault (s : State) : (s.clearFirWarn).fault = s.fault := rfl
@[simp] theorem State.clearFirWarn_firWarn (s : State) : (s.clearFirWarn).firWarn = false := rfl
@[simp] theorem State.clearFirWarn_uvOk (s : State) : (s.clearFirWarn).uvOk = s.uvOk := rfl
@[simp] theorem State.clearFirWarn_iirOk (s : State) : (s.clearFirWarn).iirOk = s.iirOk := rfl
@[simp] theorem State.clearFirWarn_firOk (s : State) : (s.clearFirWarn).firOk = s.firOk := rfl
@[simp] theorem State.clearFirWarn_fcode (s : State) : (s.clearFirWarn).fcode = s.fcode := rfl
@[simp] theorem State.clearFirWarn_finfo (s : State) : (s.clearFirWarn).finfo = s.finfo := rfl
@[simp] theorem State.clearFirWarn_res (s : State) : (s.clearFirWarn).res = s.res := rfl
@[simp] theorem State.clearFirWarn_arg0 (s : State) : (s.clearFirWarn).arg0 = s.arg0 := rfl
@[simp] theorem State.clearFirWarn_arg1 (s : State) : (s.clearFirWarn).arg1 = s.arg1 := rfl
@[simp] theorem State.clearFirWarn_arg2 (s : State) : (s.clearFirWarn).arg2 = s.arg2 := rfl
@[simp] theorem State.clearFirWarn_arg3 (s : State) : (s.clearFirWarn).arg3 = s.arg3 := rfl
@[simp] theorem State.clearFirWarn_arg4 (s : State) : (s.clearFirWarn).arg4 = s.arg4 := rfl
@[simp] theorem State.clearFirWarn_uvSr (s : State) : (s.clearFirWarn).uvSr = s.uvSr := rfl
@[simp] theorem State.clearFirWarn_uvBase (s : State) : (s.clearFirWarn).uvBase = s.uvBase := rfl
@[simp] theorem State.clearFirWarn_uvRange (s : State) : (s.clearFirWarn).uvRange = s.uvRange := rfl
@[simp] theorem State.clearFirWarn_uvNst (s : State) : (s.clearFirWarn).uvNst = s.uvNst := rfl
@[simp] theorem State.clearFirWarn_iirSr (s : State) : (s.clearFirWarn).iirSr = s.iirSr := rfl
@[simp] theorem State.clearFirWarn_iirB0 (s : State) : (s.clearFirWarn).iirB0 = s.iirB0 := rfl
@[simp] theorem State.clearFirWarn_iirA1 (s : State) : (s.clearFirWarn).iirA1 = s.iirA1 := rfl
@[simp] theorem State.clearFirWarn_iirY1 (s : State) : (s.clearFirWarn).iirY1 = s.iirY1 := rfl
@[simp] theorem State.clearFirWarn_firSr (s : State) : (s.clearFirWarn).firSr = s.firSr := rfl
@[simp] theorem State.clearFirWarn_firOrder (s : State) : (s.clearFirWarn).firOrder = s.firOrder := rfl
@[simp] theorem State.clearFirWarn_stages (s : State) : (s.clearFirWarn).stages = s.stages := rfl
@[simp] theorem State.clearFirWarn_mem (s : State) : (s.clearFirWarn).mem = s.mem := rfl
@[simp] theorem State.clearFirWarn_cfg (s : State) : (s.clearFirWarn).cfg = s.cfg := rfl
@[simp] theorem State.clearFirWarn_draws (s : State) : (s.clearFirWarn).draws = s.draws := rfl
@[simp] theorem State.clearFirWarn_inReset (s : State) : (s.clearFirWarn).inReset = s.inReset := rfl
@[simp] theorem State.clearFirWarn_pending (s : State) : (s.clearFirWarn).pending = s.pending := rfl
@[simp] theorem State.clearFirWarn_readLog (s : State) : (s.clearFirWarn).readLog = s.readLog := rfl

/-! ## `State.logRead` -/

@[simp] theorem State.logRead_cmd (s : State) (v : Word) : (s.logRead v).cmd = s.cmd := rfl
@[simp] theorem State.logRead_fault (s : State) (v : Word) : (s.logRead v).fault = s.fault := rfl
@[simp] theorem State.logRead_firWarn (s : State) (v : Word) : (s.logRead v).firWarn = s.firWarn := rfl
@[simp] theorem State.logRead_uvOk (s : State) (v : Word) : (s.logRead v).uvOk = s.uvOk := rfl
@[simp] theorem State.logRead_iirOk (s : State) (v : Word) : (s.logRead v).iirOk = s.iirOk := rfl
@[simp] theorem State.logRead_firOk (s : State) (v : Word) : (s.logRead v).firOk = s.firOk := rfl
@[simp] theorem State.logRead_fcode (s : State) (v : Word) : (s.logRead v).fcode = s.fcode := rfl
@[simp] theorem State.logRead_finfo (s : State) (v : Word) : (s.logRead v).finfo = s.finfo := rfl
@[simp] theorem State.logRead_res (s : State) (v : Word) : (s.logRead v).res = s.res := rfl
@[simp] theorem State.logRead_arg0 (s : State) (v : Word) : (s.logRead v).arg0 = s.arg0 := rfl
@[simp] theorem State.logRead_arg1 (s : State) (v : Word) : (s.logRead v).arg1 = s.arg1 := rfl
@[simp] theorem State.logRead_arg2 (s : State) (v : Word) : (s.logRead v).arg2 = s.arg2 := rfl
@[simp] theorem State.logRead_arg3 (s : State) (v : Word) : (s.logRead v).arg3 = s.arg3 := rfl
@[simp] theorem State.logRead_arg4 (s : State) (v : Word) : (s.logRead v).arg4 = s.arg4 := rfl
@[simp] theorem State.logRead_uvSr (s : State) (v : Word) : (s.logRead v).uvSr = s.uvSr := rfl
@[simp] theorem State.logRead_uvBase (s : State) (v : Word) : (s.logRead v).uvBase = s.uvBase := rfl
@[simp] theorem State.logRead_uvRange (s : State) (v : Word) : (s.logRead v).uvRange = s.uvRange := rfl
@[simp] theorem State.logRead_uvNst (s : State) (v : Word) : (s.logRead v).uvNst = s.uvNst := rfl
@[simp] theorem State.logRead_iirSr (s : State) (v : Word) : (s.logRead v).iirSr = s.iirSr := rfl
@[simp] theorem State.logRead_iirB0 (s : State) (v : Word) : (s.logRead v).iirB0 = s.iirB0 := rfl
@[simp] theorem State.logRead_iirA1 (s : State) (v : Word) : (s.logRead v).iirA1 = s.iirA1 := rfl
@[simp] theorem State.logRead_iirY1 (s : State) (v : Word) : (s.logRead v).iirY1 = s.iirY1 := rfl
@[simp] theorem State.logRead_firSr (s : State) (v : Word) : (s.logRead v).firSr = s.firSr := rfl
@[simp] theorem State.logRead_firOrder (s : State) (v : Word) : (s.logRead v).firOrder = s.firOrder := rfl
@[simp] theorem State.logRead_stages (s : State) (v : Word) : (s.logRead v).stages = s.stages := rfl
@[simp] theorem State.logRead_mem (s : State) (v : Word) : (s.logRead v).mem = s.mem := rfl
@[simp] theorem State.logRead_cfg (s : State) (v : Word) : (s.logRead v).cfg = s.cfg := rfl
@[simp] theorem State.logRead_draws (s : State) (v : Word) : (s.logRead v).draws = s.draws := rfl
@[simp] theorem State.logRead_inReset (s : State) (v : Word) : (s.logRead v).inReset = s.inReset := rfl
@[simp] theorem State.logRead_pending (s : State) (v : Word) : (s.logRead v).pending = s.pending := rfl
@[simp] theorem State.logRead_readLog (s : State) (v : Word) : (s.logRead v).readLog = s.readLog ++ [v] := rfl

/-! ## `State.raise` -/

@[simp] theorem State.raise_cmd (s : State) (c : FaultCause) (v : Word) : (s.raise c v).cmd = s.cmd := by
  unfold State.raise; split <;> rfl
@[simp] theorem State.raise_firWarn (s : State) (c : FaultCause) (v : Word) : (s.raise c v).firWarn = s.firWarn := by
  unfold State.raise; split <;> rfl
@[simp] theorem State.raise_uvOk (s : State) (c : FaultCause) (v : Word) : (s.raise c v).uvOk = s.uvOk := by
  unfold State.raise; split <;> rfl
@[simp] theorem State.raise_iirOk (s : State) (c : FaultCause) (v : Word) : (s.raise c v).iirOk = s.iirOk := by
  unfold State.raise; split <;> rfl
@[simp] theorem State.raise_firOk (s : State) (c : FaultCause) (v : Word) : (s.raise c v).firOk = s.firOk := by
  unfold State.raise; split <;> rfl
@[simp] theorem State.raise_res (s : State) (c : FaultCause) (v : Word) : (s.raise c v).res = s.res := by
  unfold State.raise; split <;> rfl
@[simp] theorem State.raise_arg0 (s : State) (c : FaultCause) (v : Word) : (s.raise c v).arg0 = s.arg0 := by
  unfold State.raise; split <;> rfl
@[simp] theorem State.raise_arg1 (s : State) (c : FaultCause) (v : Word) : (s.raise c v).arg1 = s.arg1 := by
  unfold State.raise; split <;> rfl
@[simp] theorem State.raise_arg2 (s : State) (c : FaultCause) (v : Word) : (s.raise c v).arg2 = s.arg2 := by
  unfold State.raise; split <;> rfl
@[simp] theorem State.raise_arg3 (s : State) (c : FaultCause) (v : Word) : (s.raise c v).arg3 = s.arg3 := by
  unfold State.raise; split <;> rfl
@[simp] theorem State.raise_arg4 (s : State) (c : FaultCause) (v : Word) : (s.raise c v).arg4 = s.arg4 := by
  unfold State.raise; split <;> rfl
@[simp] theorem State.raise_uvSr (s : State) (c : FaultCause) (v : Word) : (s.raise c v).uvSr = s.uvSr := by
  unfold State.raise; split <;> rfl
@[simp] theorem State.raise_uvBase (s : State) (c : FaultCause) (v : Word) : (s.raise c v).uvBase = s.uvBase := by
  unfold State.raise; split <;> rfl
@[simp] theorem State.raise_uvRange (s : State) (c : FaultCause) (v : Word) : (s.raise c v).uvRange = s.uvRange := by
  unfold State.raise; split <;> rfl
@[simp] theorem State.raise_uvNst (s : State) (c : FaultCause) (v : Word) : (s.raise c v).uvNst = s.uvNst := by
  unfold State.raise; split <;> rfl
@[simp] theorem State.raise_iirSr (s : State) (c : FaultCause) (v : Word) : (s.raise c v).iirSr = s.iirSr := by
  unfold State.raise; split <;> rfl
@[simp] theorem State.raise_iirB0 (s : State) (c : FaultCause) (v : Word) : (s.raise c v).iirB0 = s.iirB0 := by
  unfold State.raise; split <;> rfl
@[simp] theorem State.raise_iirA1 (s : State) (c : FaultCause) (v : Word) : (s.raise c v).iirA1 = s.iirA1 := by
  unfold State.raise; split <;> rfl
@[simp] theorem State.raise_iirY1 (s : State) (c : FaultCause) (v : Word) : (s.raise c v).iirY1 = s.iirY1 := by
  unfold State.raise; split <;> rfl
@[simp] theorem State.raise_firSr (s : State) (c : FaultCause) (v : Word) : (s.raise c v).firSr = s.firSr := by
  unfold State.raise; split <;> rfl
@[simp] theorem State.raise_firOrder (s : State) (c : FaultCause) (v : Word) : (s.raise c v).firOrder = s.firOrder := by
  unfold State.raise; split <;> rfl
@[simp] theorem State.raise_stages (s : State) (c : FaultCause) (v : Word) : (s.raise c v).stages = s.stages := by
  unfold State.raise; split <;> rfl
@[simp] theorem State.raise_mem (s : State) (c : FaultCause) (v : Word) : (s.raise c v).mem = s.mem := by
  unfold State.raise; split <;> rfl
@[simp] theorem State.raise_cfg (s : State) (c : FaultCause) (v : Word) : (s.raise c v).cfg = s.cfg := by
  unfold State.raise; split <;> rfl
@[simp] theorem State.raise_draws (s : State) (c : FaultCause) (v : Word) : (s.raise c v).draws = s.draws := by
  unfold State.raise; split <;> rfl
@[simp] theorem State.raise_inReset (s : State) (c : FaultCause) (v : Word) : (s.raise c v).inReset = s.inReset := by
  unfold State.raise; split <;> rfl
@[simp] theorem State.raise_pending (s : State) (c : FaultCause) (v : Word) : (s.raise c v).pending = s.pending := by
  unfold State.raise; split <;> rfl
@[simp] theorem State.raise_readLog (s : State) (c : FaultCause) (v : Word) : (s.raise c v).readLog = s.readLog := by
  unfold State.raise; split <;> rfl

@[simp] theorem State.raise_fault (s : State) (c : FaultCause) (v : Word) : (s.raise c v).fault = true := by
  unfold State.raise; split
  · assumption
  · rfl

/-- The first fault is recorded (R290). -/
theorem State.raise_of_clear {s : State} (h : s.fault = false) (c : FaultCause) (v : Word) :
    s.raise c v = { s with fault := true, fcode := causeCode c, finfo := v } := by
  simp [State.raise, h]

/-- A later fault is not (R293). -/
theorem State.raise_of_set {s : State} (h : s.fault = true) (c : FaultCause) (v : Word) : s.raise c v = s := by
  simp [State.raise, h]

end Sys2Proof.Machine
end

