-- ==== Sys2Proof/Laws/Ops.lean ====
section
/-! SUPPORT. What each shared operation over the stages and the RAMs can do, said once. -/

namespace Sys2Proof.Machine

/-! ## The stage registers -/

/-- A replaced stage reads as written, and no other stage changes. -/
theorem State.stage_setStage (s : State) (k j : Nat) (st : Stage) :
    (s.setStage k st).stage j = if k = j ∧ j < 16 then st else s.stage j := by
  unfold State.stage State.setStage
  rw [Vector.getElem?_setIfInBounds]
  by_cases hj : j < 16
  · by_cases hk : k = j
    · subst hk; simp [hj]
    · simp [hk]
  · by_cases hk : k = j
    · subst hk; simp [hj]
    · simp [hk]

theorem State.stage_setStage_self (s : State) {k : Nat} (h : k < 16) (st : Stage) :
    (s.setStage k st).stage k = st := by simp [State.stage_setStage, h]

theorem State.stage_setStage_ne (s : State) {k j : Nat} (h : k ≠ j) (st : Stage) :
    (s.setStage k st).stage j = s.stage j := by simp [State.stage_setStage, h]

/-- A stage the vector does not have reads as empty. -/
theorem State.stage_of_ge (s : State) {k : Nat} (h : 16 ≤ k) : s.stage k = Stage.empty := by
  simp [State.stage, Vector.getElem?_eq_none h]

theorem State.stage_congr {s t : State} (h : t.stages = s.stages) (k : Nat) : t.stage k = s.stage k := by
  rw [State.stage, State.stage, h]

@[simp] theorem State.stage_setMem (s : State) (m : Memory) (k : Nat) : (s.setMem m).stage k = s.stage k := rfl
@[simp] theorem State.stage_setRes (s : State) (v : Word) (k : Nat) : (s.setRes v).stage k = s.stage k := rfl
@[simp] theorem State.stage_setCmd (s : State) (w : CmdWord) (k : Nat) : (s.setCmd w).stage k = s.stage k := rfl
@[simp] theorem State.stage_tick (s : State) (k : Nat) : s.tick.stage k = s.stage k := rfl
@[simp] theorem State.stage_returnF (s : State) (F : Fmt) (v : Word) (k : Nat) :
    (s.returnF F v).stage k = s.stage k := rfl
@[simp] theorem State.stage_raise (s : State) (c : FaultCause) (v : Word) (k : Nat) :
    (s.raise c v).stage k = s.stage k := State.stage_congr (State.raise_stages s c v) k
@[simp] theorem State.stage_raiseCmd (s : State) (c : FaultCause) (i : Instr) (k : Nat) :
    (s.raiseCmd c i).stage k = s.stage k := State.stage_raise s c _ k

/-! ## Loops over the stages -/

/-- A property that the body keeps for each stage is kept by the loop. -/
theorem forStages_induction {f : Nat → State → State} {P : Nat → State → Prop} {s : State} (n : Nat)
    (h₀ : P 0 s) (hs : ∀ k t, k < n → P k t → P (k + 1) (f k t)) : P n (forStages f n s) := by
  induction n with
  | zero => exact h₀
  | succ n ih => exact hs n _ (by omega) (ih fun k t hk => hs k t (by omega))

/-! ## The all-pass operations: exactly the registers and bytes of one stage -/

/-- Nothing but the registers of the stages and the RAMs changed. -/
def sameButStages (s t : State) : Prop := t = { s with stages := t.stages, mem := t.mem }

theorem sameButStages_refl (s : State) : sameButStages s s := rfl

theorem sameButStages_trans {s t u : State} (h₁ : sameButStages s t) (h₂ : sameButStages t u) :
    sameButStages s u := by
  unfold sameButStages at *
  rw [h₂, h₁]

theorem apResize_same (cap k : Nat) (s : State) : sameButStages s (apResize cap k s) := rfl
theorem apClear_same (k : Nat) (s : State) : sameButStages s (apClear k s) := rfl
theorem apCreate_same (cap k : Nat) (s : State) : sameButStages s (apCreate cap k s) := rfl
theorem lfoZero_same (k : Nat) (s : State) : sameButStages s (lfoZero k s) := rfl
theorem setStage_same (k : Nat) (st : Stage) (s : State) : sameButStages s (s.setStage k st) := rfl

theorem forStages_same {f : Nat → State → State} (h : ∀ k s, sameButStages s (f k s)) (n : Nat) (s : State) :
    sameButStages s (forStages f n s) :=
  forStages_induction (P := fun _ t => sameButStages s t) n (sameButStages_refl s)
    fun k t _ hP => sameButStages_trans hP (h k t)

theorem apResize_mem (cap k : Nat) (s : State) :
    (apResize cap k s).mem = ramClear s.mem (apBufAddr k 0) cap := rfl
theorem apClear_mem (k : Nat) (s : State) :
    (apClear k s).mem = ramClear s.mem (apBufAddr k 0) (s.stage k).len.toNat := rfl
theorem apCreate_mem (cap k : Nat) (s : State) :
    (apCreate cap k s).mem = ramClear s.mem (apBufAddr k 0) cap := rfl
theorem lfoZero_mem (k : Nat) (s : State) : (lfoZero k s).mem = s.mem := rfl

theorem apResize_stage (cap k j : Nat) (s : State) :
    (apResize cap k s).stage j =
      if k = j ∧ j < 16 then { s.stage k with len := BitVec.ofNat 32 cap, idx := 0 } else s.stage j := by
  rw [apResize, State.stage_setStage]; simp
theorem apClear_stage (k j : Nat) (s : State) :
    (apClear k s).stage j = if k = j ∧ j < 16 then { s.stage k with idx := 0 } else s.stage j := by
  rw [apClear, State.stage_setStage]; simp
theorem apCreate_stage (cap k j : Nat) (s : State) :
    (apCreate cap k s).stage j =
      if k = j ∧ j < 16 then { s.stage k with len := BitVec.ofNat 32 cap, idx := 0, fb := 0 } else s.stage j := by
  rw [apCreate, State.stage_setStage]; simp
theorem lfoZero_stage (k j : Nat) (s : State) :
    (lfoZero k s).stage j = if k = j ∧ j < 16 then { s.stage k with lfo := 0 } else s.stage j := by
  rw [lfoZero, State.stage_setStage]

/-! ## The RAM words of the windows do not overlap -/

theorem apBufAddr_eq (k i : Nat) : apBufAddr k i = apBufAddr k 0 + 8 * i := by
  simp only [apBufAddr, byteAddr]; omega

theorem firCoefAddr_eq (i : Nat) : firCoefAddr i = firCoefAddr 0 + 8 * i := by
  simp only [firCoefAddr, byteAddr]; omega

theorem firHistAddr_eq (i : Nat) : firHistAddr i = firHistAddr 0 + 8 * i := by
  simp only [firHistAddr, byteAddr]; omega

/-- A buffer cleared reads as zeros. -/
theorem apBufRead_of_cleared {s t : State} {k cap i : Nat} (hm : t.mem = ramClear s.mem (apBufAddr k 0) cap)
    (h : i < cap) : apBufRead t k i = 0 := by
  rw [apBufRead, hm, apBufAddr_eq k i, ramRead_ramClear_inside _ _ h]

/-! ## The parameters (R7) -/

theorem Config.ok_iff {c : Config} : c.ok = true ↔ 1 ≤ c.maxStages ∧ c.maxStages ≤ 16 ∧ 2 ≤ c.apMaxCap ∧
    c.apMaxCap ≤ 4096 ∧ 2 ≤ c.firMaxOrder ∧ c.firMaxOrder ≤ 4095 := by
  simp only [Config.ok, Bool.and_eq_true, decide_eq_true_eq, and_assoc]

/-! ## What the invariant says of the buffers -/

theorem State.Inv.len_le {s : State} (h : s.Inv) (k : Nat) : (s.stage k).len.toNat ≤ 0x1000 := by
  have := h.lenFits k
  have := (Config.ok_iff.1 h.cfgOk).2.2.2.1
  omega

theorem State.Inv.idx_lt {s : State} (h : s.Inv) (k : Nat) : (s.stage k).idx.toNat < 0x1000 := by
  have := h.len_le k
  rcases h.idxBelow k with h | ⟨-, h⟩
  · omega
  · rw [h]; decide

theorem State.Inv.uvNst_le {s : State} (h : s.Inv) : s.uvNst.toNat ≤ 16 := by
  have := h.nstFits
  have := (Config.ok_iff.1 h.cfgOk).2.1
  omega

theorem State.Inv.firOrder_le {s : State} (h : s.Inv) : s.firOrder.toNat ≤ 4095 := by
  have := h.orderFits
  have := (Config.ok_iff.1 h.cfgOk).2.2.2.2.2
  omega

/-! ## Faults -/

/-- A command's fault, when none is latched, is the state with exactly the latch changed (R290, R291). -/
theorem State.raiseCmd_of_clear {s : State} (h : s.fault = false) (c : FaultCause) (i : Instr) :
    s.raiseCmd c i = faultedState s (causeCode c) (zextCmd (encode i)) :=
  State.raise_of_clear h c _

end Sys2Proof.Machine
end

