-- ==== Sys2Proof/Laws/Fir.lean ====
section
/-! SUPPORT. What each loop of the FIR commands does, said once: the tap loop, the history push, the dot product. -/

namespace Sys2Proof.Machine

/-! ## The tap loop (R165) -/

theorem firWriteTaps_wf {F : Fmt} {c n : Nat} {fc : Word} {m : Memory} (hm : Memory.wf m = true) (k : Nat) :
    Memory.wf (firWriteTaps F c n fc k m) = true := by
  induction k with
  | zero => exact hm
  | succ k ih => exact ramWrite_wf F ih _ _

/-- The first `k` iterations write the first `k` coefficient words and no other byte. -/
theorem memRead_firWriteTaps_outside {F : Fmt} {c n : Nat} {fc : Word} {m : Memory} {k b : Nat}
    (h : b < firCoefAddr 0 ∨ firCoefAddr k ≤ b) : memRead (firWriteTaps F c n fc k m) b = memRead m b := by
  induction k with
  | zero => rfl
  | succ k ih =>
    have e := firCoefAddr_eq k
    have e' := firCoefAddr_eq (k + 1)
    rw [firWriteTaps, memRead_ramWrite_outside _ _ _ (by omega), ih (by omega)]

theorem mem_firWriteTaps {F : Fmt} {c n : Nat} {fc : Word} {m : Memory} {k : Nat} {x : Host.Cell}
    (h : x ∈ firWriteTaps F c n fc k m) : (firCoefAddr 0 ≤ x.1 ∧ x.1 < firCoefAddr k) ∨ x ∈ m := by
  induction k with
  | zero => exact .inr h
  | succ k ih =>
    rw [firCoefAddr_eq (k + 1)]
    rcases mem_ramWrite h with h | h
    · rw [firCoefAddr_eq k] at h; exact .inl (by omega)
    · rcases ih h with h | h
      · rw [firCoefAddr_eq k] at h; exact .inl (by omega)
      · exact .inr h

/-- After `k` iterations coefficient `i < k` is the tap `i` (R163). -/
theorem ramRead_firWriteTaps {F : Fmt} {c n : Nat} {fc : Word} {m : Memory} (hm : Memory.wf m = true) {k i : Nat}
    (h : i < k) : ramRead F (firWriteTaps F c n fc k m) (firCoefAddr i) = firTap F c n fc i := by
  induction k with
  | zero => omega
  | succ k ih =>
    rw [firWriteTaps]
    by_cases e : i = k
    · subst e
      rw [ramRead_ramWrite_self F (firWriteTaps_wf hm _), firTap, truncF_fmul]
    · rw [ramRead_ramWrite_ne _ _ _ (by rw [firCoefAddr_eq k, firCoefAddr_eq i]; omega), ih (by omega)]

/-! ## The history push (R171) -/

theorem firShift_wf {F : Fmt} {m : Memory} (hm : Memory.wf m = true) (k : Nat) : Memory.wf (firShift F k m) = true := by
  induction k generalizing m with
  | zero => exact hm
  | succ k ih => exact ih (ramWrite_wf F hm _ _)

theorem memRead_firShift_outside {F : Fmt} {m : Memory} {k b : Nat} (h : b < firHistAddr 1 ∨ firHistAddr (k + 1) ≤ b) :
    memRead (firShift F k m) b = memRead m b := by
  induction k generalizing m with
  | zero => rfl
  | succ k ih =>
    rw [firHistAddr_eq 1, firHistAddr_eq (k + 1 + 1)] at h
    rw [firShift, ih (by rw [firHistAddr_eq 1, firHistAddr_eq (k + 1)]; omega),
      memRead_ramWrite_outside _ _ _ (by rw [firHistAddr_eq (k + 1)]; omega)]

theorem mem_firShift {F : Fmt} {m : Memory} {k : Nat} {x : Host.Cell} (h : x ∈ firShift F k m) :
    (firHistAddr 1 ≤ x.1 ∧ x.1 < firHistAddr (k + 1)) ∨ x ∈ m := by
  induction k generalizing m with
  | zero => exact .inr h
  | succ k ih =>
    have e := firHistAddr_eq (k + 1)
    have e1 := firHistAddr_eq 1
    have e2 := firHistAddr_eq (k + 1 + 1)
    rcases ih h with h | h
    · exact .inl (by omega)
    · rcases mem_ramWrite h with h | h
      · exact .inl (by omega)
      · exact .inr h

/-- The shift moves each sample one slot up. -/
theorem ramRead_firShift {F : Fmt} {m : Memory} (hm : Memory.wf m = true) {k i : Nat} (h : i < k) :
    ramRead F (firShift F k m) (firHistAddr (i + 1)) = ramRead F m (firHistAddr i) := by
  induction k generalizing m with
  | zero => omega
  | succ k ih =>
    have hF := fmtBytes_le F
    have e := firHistAddr_eq (k + 1)
    have e1 := firHistAddr_eq i
    rw [firShift]
    by_cases hk : i = k
    · subst hk
      have : ramRead F (firShift F i (ramWrite F m (firHistAddr (i + 1)) (ramRead F m (firHistAddr i))))
          (firHistAddr (i + 1)) =
          ramRead F (ramWrite F m (firHistAddr (i + 1)) (ramRead F m (firHistAddr i))) (firHistAddr (i + 1)) :=
        memReadBytes_congr fun b h1 h2 => memRead_firShift_outside (.inr h1)
      rw [this, ramRead_ramWrite_self F hm, truncF_ramRead]
    · rw [ih (ramWrite_wf F hm _ _) (by omega), ramRead_ramWrite_ne _ _ _ (by omega)]

theorem firPush_wf {F : Fmt} {m : Memory} (hm : Memory.wf m = true) (n : Nat) (x : Word) :
    Memory.wf (firPush F n x m) = true := by
  cases n with
  | zero => exact hm
  | succ k => exact ramWrite_wf F (firShift_wf hm k) _ _

/-- The push writes the history words in use and no other byte. -/
theorem memRead_firPush_outside {F : Fmt} {m : Memory} {n b : Nat} {x : Word}
    (h : b < firHistAddr 0 ∨ firHistAddr n ≤ b) : memRead (firPush F n x m) b = memRead m b := by
  cases n with
  | zero => rfl
  | succ k =>
    have e1 := firHistAddr_eq 1
    have e2 := firHistAddr_eq (k + 1)
    rw [firPush, memRead_ramWrite_outside _ _ _ (by omega), memRead_firShift_outside (by omega)]

theorem mem_firPush {F : Fmt} {m : Memory} {n : Nat} {x : Word} {c : Host.Cell} (h : c ∈ firPush F n x m) :
    (firHistAddr 0 ≤ c.1 ∧ c.1 < firHistAddr n) ∨ c ∈ m := by
  cases n with
  | zero => exact .inr h
  | succ k =>
    have e1 := firHistAddr_eq 1
    have e2 := firHistAddr_eq (k + 1)
    rcases mem_ramWrite h with h | h
    · exact .inl (by omega)
    · rcases mem_firShift h with h | h
      · exact .inl (by omega)
      · exact .inr h

/-- After the push slot 0 holds the new sample. -/
theorem ramRead_firPush_zero {F : Fmt} {m : Memory} (hm : Memory.wf m = true) {n : Nat} (h : 0 < n) (x : Word) :
    ramRead F (firPush F n x m) (firHistAddr 0) = truncF F x := by
  cases n with
  | zero => omega
  | succ k => exact ramRead_ramWrite_self F (firShift_wf hm k) _ _

/-- After the push every other slot holds the sample of the slot before it. -/
theorem ramRead_firPush_succ {F : Fmt} {m : Memory} (hm : Memory.wf m = true) {n i : Nat} (h : i + 1 < n) (x : Word) :
    ramRead F (firPush F n x m) (firHistAddr (i + 1)) = ramRead F m (firHistAddr i) := by
  cases n with
  | zero => omega
  | succ k =>
    rw [firPush, ramRead_ramWrite_ne _ _ _ (by rw [firHistAddr_eq (i + 1)]; omega), ramRead_firShift hm (by omega)]

/-! ## The dot product (R172) -/

theorem firDot_dotProduct (F : Fmt) (c : Nat) (m : Memory) (n : Nat) :
    DotProduct F (fun i => ramRead F m (firCoefAddr i)) (fun i => ramRead F m (firHistAddr i)) n (firDot F c m n) :=
  ⟨firDot F c m, rfl, fun _ _ => ⟨_, _, rfl⟩, rfl⟩

@[simp] theorem truncF_firDot (F : Fmt) (c : Nat) (m : Memory) (n : Nat) :
    truncF F (firDot F c m n) = firDot F c m n := by
  cases n with
  | zero => exact truncF_zeroF F false
  | succ n => exact truncF_fadd F _ _ _

@[simp] theorem truncF_firFc (F : Fmt) (c : Nat) (cutoff sr : Word) : truncF F (firFc F c cutoff sr) = firFc F c cutoff sr :=
  truncF_fdiv F _ _ _

/-! ## The formulas are those of R164 to R167 -/

theorem firFc_fcStep (F : Fmt) (c : Nat) (cutoff sr : Word) : FcStep F cutoff sr (firFc F c cutoff sr) := ⟨_, _, rfl⟩

theorem firSinc_sincStep (F : Fmt) (c i m : Nat) (fc : Word) : SincStep F i m fc (firSinc F c i m fc) := by
  unfold SincStep firSinc
  split
  · rfl
  · exact ⟨_, _, _, _, _, _, rfl⟩

theorem firHamming_hammingStep (F : Fmt) (c i n : Nat) : HammingStep F i n (firHamming F c i n) :=
  ⟨_, _, _, _, _, _, rfl⟩

theorem firTap_tapStep (F : Fmt) (c n : Nat) (fc : Word) (i : Nat) : TapStep F n fc i (firTap F c n fc i) :=
  ⟨_, _, _, firSinc_sincStep F c i _ fc, firHamming_hammingStep F c i n, rfl⟩

/-- The warning of R168 as a proposition. -/
theorem firWarns_iff (F : Fmt) (n : Nat) (fc : Word) : firWarns F n fc = true ↔
    n % 2 = 1 ∨ n < 2 ∨ ¬ (geF F fc (zeroF F false) = true ∧ leF F fc (oneF F) = true) := by
  simp only [firWarns, Bool.or_eq_true, decide_eq_true_eq, Bool.not_eq_true', Bool.and_eq_false_iff]
  cases geF F fc (zeroF F false) <;> cases leF F fc (oneF F) <;> simp

end Sys2Proof.Machine
end

