-- ==== Sys2Proof/Laws/PerInstr.lean ====
section
/-! SUPPORT. A law of the encoder, proved per command: the three fields of the encoded word (R92). -/

namespace Sys2Proof.Laws.EncodeFields

/-- The word of a well-formed command has its opcode, its stage index and a zero reserved field. -/
def Statement (i : Instr) : Prop :=
  i.wellFormed = true →
    opField (encode i) = opOf i ∧ stageField (encode i) = stageOf i ∧ reservedField (encode i) = 0

/-- The bits of a word put together from an opcode, a stage field and a zero reserved field. -/
theorem getLsbD_word (a b : BitVec 8) (j : Nat) :
    (a ++ b ++ (0 : BitVec 16)).getLsbD j =
      if j < 16 then false else if j < 24 then b.getLsbD (j - 16) else a.getLsbD (j - 24) := by
  rw [BitVec.getLsbD_append, BitVec.getLsbD_append]
  by_cases h : j < 16
  · simp [h]
  · by_cases h' : j < 24
    · simp [h, h', show j - 16 < 8 by omega]
    · simp [h, h', show ¬ j - 16 < 8 by omega, show j - 16 - 8 = j - 24 by omega]

theorem fields_of_append (a b : BitVec 8) :
    opField (a ++ b ++ (0 : BitVec 16)) = a ∧ stageField (a ++ b ++ (0 : BitVec 16)) = b ∧
      reservedField (a ++ b ++ (0 : BitVec 16)) = 0 := by
  refine ⟨?_, ?_, ?_⟩ <;> apply BitVec.eq_of_getLsbD_eq <;> intro j hj
  · rw [opField, BitVec.getLsbD_extractLsb']
    refine (congrArg _ (getLsbD_word a b (24 + j))).trans ?_
    simp [hj, show ¬ 24 + j < 16 by omega]
  · rw [stageField, BitVec.getLsbD_extractLsb']
    refine (congrArg _ (getLsbD_word a b (16 + j))).trans ?_
    simp [hj, show 16 + j < 24 by omega]
  · rw [reservedField, BitVec.getLsbD_extractLsb']
    refine (congrArg _ (getLsbD_word a b (0 + j))).trans ?_
    simp [hj]

theorem nop : Statement .nop := fun _ => fields_of_append _ _
theorem apNew (k : Nat) : Statement (.apNew k) := fun _ => fields_of_append _ _
theorem apReset (k : Nat) : Statement (.apReset k) := fun _ => fields_of_append _ _
theorem apSetFb (k : Nat) : Statement (.apSetFb k) := fun _ => fields_of_append _ _
theorem iirNew : Statement .iirNew := fun _ => fields_of_append _ _
theorem iirSetCut : Statement .iirSetCut := fun _ => fields_of_append _ _
theorem iirProc : Statement .iirProc := fun _ => fields_of_append _ _
theorem firNew : Statement .firNew := fun _ => fields_of_append _ _
theorem firSetCut : Statement .firSetCut := fun _ => fields_of_append _ _
theorem firProc : Statement .firProc := fun _ => fields_of_append _ _
theorem wsGreen : Statement .wsGreen := fun _ => fields_of_append _ _
theorem wsRed : Statement .wsRed := fun _ => fields_of_append _ _
theorem wsSigmoid : Statement .wsSigmoid := fun _ => fields_of_append _ _
theorem wsHard : Statement .wsHard := fun _ => fields_of_append _ _
theorem uvNew : Statement .uvNew := fun _ => fields_of_append _ _
theorem uvSetSr : Statement .uvSetSr := fun _ => fields_of_append _ _
theorem uvReset : Statement .uvReset := fun _ => fields_of_append _ _
theorem uvProc : Statement .uvProc := fun _ => fields_of_append _ _

end Sys2Proof.Laws.EncodeFields
end

