-- ==== Sys2Proof/Laws/Rounding.lean ====
section
/-! SUPPORT. What rounding answers, said once: `roundFin`, `roundQuot` and `roundSqrt` give the real number they stand for
correctly rounded (R11). -/

namespace Sys2Proof.Machine

/-! ## Rounding to an integer -/

/-- `sig` is the integer nearest to `y`, and even where `y` lies halfway between two. -/
structure NearestInt (y : ℝ) (sig : ℕ) : Prop where
  le : 2 * (sig : ℝ) ≤ 2 * y + 1
  ge : 2 * y ≤ 2 * sig + 1
  tie : 2 * y = 2 * sig + 1 ∨ 2 * y + 1 = 2 * (sig : ℝ) → sig % 2 = 0

/-- No even number separates `n` from `w`: a number and the stand-in that keeps all its bits but one, with the last bit
saying whether the rest is zero. -/
def SameGap (n : ℕ) (w : ℝ) : Prop := ∀ b : ℤ, (2 * (b : ℝ) ≤ n ↔ 2 * (b : ℝ) ≤ w) ∧ ((n : ℝ) ≤ 2 * b ↔ w ≤ 2 * b)

theorem sameGap_self (n : ℕ) : SameGap n n := fun _ => ⟨Iff.rfl, Iff.rfl⟩

/-- An inexact value stands for everything strictly between its even neighbours. -/
theorem sameGap_odd {q : ℕ} {w : ℝ} (h1 : (2 * q : ℝ) < w) (h2 : w < 2 * q + 2) : SameGap (2 * q + 1) w := by
  intro b
  rcases le_or_gt b q with h | h
  · have h' : (b : ℝ) ≤ q := by exact_mod_cast h
    push_cast
    exact ⟨⟨fun _ => by linarith, fun _ => by linarith⟩, ⟨fun h3 => by linarith, fun h3 => by linarith⟩⟩
  · have h' : (q : ℝ) + 1 ≤ b := by exact_mod_cast h
    push_cast
    exact ⟨⟨fun h3 => by linarith, fun h3 => by linarith⟩, ⟨fun _ => by linarith, fun _ => by linarith⟩⟩

/-- `roundShift` rounds to the nearest integer, ties to even. -/
theorem roundShift_nearest (n k : ℕ) : NearestInt ((n : ℝ) / 2 ^ k) (roundShift n k) := by
  have hP : 0 < 2 ^ k := by positivity
  have hn := Nat.div_add_mod n (2 ^ k)
  have hr := Nat.mod_lt n hP
  obtain ⟨q, hq⟩ : ∃ q, n / 2 ^ k = q := ⟨_, rfl⟩
  obtain ⟨r, hr'⟩ : ∃ r, n % 2 ^ k = r := ⟨_, rfl⟩
  rw [hq, hr'] at hn
  rw [hr'] at hr
  have hPr : (0 : ℝ) < 2 ^ k := by positivity
  have hy : (n : ℝ) / 2 ^ k = q + r / 2 ^ k := by
    have : (n : ℝ) = 2 ^ k * q + r := by exact_mod_cast hn.symm
    rw [this]; field_simp
  have hr0 : (0 : ℝ) ≤ r / 2 ^ k := by positivity
  have hr1 : (r : ℝ) / 2 ^ k < 1 := by rw [div_lt_one hPr]; exact_mod_cast hr
  rw [hy]
  simp only [roundShift, hq, hr']
  by_cases h1 : 2 * r < 2 ^ k
  · have h1' : 2 * ((r : ℝ) / 2 ^ k) < 1 := by
      rw [← mul_div_assoc, div_lt_one hPr]; exact_mod_cast h1
    rw [if_pos h1]
    exact ⟨by linarith, by linarith, by rintro (h | h) <;> linarith⟩
  rw [if_neg h1]
  by_cases h2 : 2 ^ k < 2 * r
  · have h2' : 1 < 2 * ((r : ℝ) / 2 ^ k) := by
      rw [← mul_div_assoc, one_lt_div hPr]; exact_mod_cast h2
    rw [if_pos h2]
    have e : ((q + 1 : ℕ) : ℝ) = q + 1 := by push_cast; rfl
    refine ⟨by rw [e]; linarith, by rw [e]; linarith, fun h => ?_⟩
    rw [e] at h
    rcases h with h | h <;> exfalso <;> linarith
  rw [if_neg h2]
  have h3 : 2 * ((r : ℝ) / 2 ^ k) = 1 := by
    rw [← mul_div_assoc, div_eq_one_iff_eq hPr.ne']; exact_mod_cast (by omega : 2 * r = 2 ^ k)
  rcases Nat.mod_two_eq_zero_or_one q with h4 | h4
  · rw [h4]
    exact ⟨by rw [Nat.add_zero]; linarith, by rw [Nat.add_zero]; linarith, fun _ => by omega⟩
  · have e : ((q + 1 : ℕ) : ℝ) = q + 1 := by push_cast; rfl
    rw [h4]
    exact ⟨by rw [e]; linarith, by rw [e]; linarith, fun _ => by omega⟩

/-- The rounding of a stand-in is the rounding of what it stands for, if two bits or more are dropped. -/
theorem NearestInt.of_sameGap {n k sig : ℕ} {w : ℝ} (hk : 2 ≤ k) (h : SameGap n w)
    (hn : NearestInt ((n : ℝ) / 2 ^ k) sig) : NearestInt (w / 2 ^ k) sig := by
  obtain ⟨j, rfl⟩ : ∃ j, k = j + 2 := ⟨k - 2, by omega⟩
  have hP : (0 : ℝ) < 2 ^ (j + 2) := by positivity
  have up := h ((2 * sig + 1) * 2 ^ j)
  have dn := h ((2 * sig - 1) * 2 ^ j)
  push_cast at up dn
  have e1 (x : ℝ) : 2 * (x / 2 ^ (j + 2)) ≤ 2 * sig + 1 ↔ x ≤ 2 * ((2 * sig + 1) * 2 ^ j) := by
    rw [← mul_div_assoc, div_le_iff₀ hP, pow_add]; constructor <;> intro h <;> nlinarith
  have e2 (x : ℝ) : 2 * (sig : ℝ) + 1 ≤ 2 * (x / 2 ^ (j + 2)) ↔ 2 * ((2 * sig + 1) * 2 ^ j) ≤ x := by
    rw [← mul_div_assoc, le_div_iff₀ hP, pow_add]; constructor <;> intro h <;> nlinarith
  have e3 (x : ℝ) : 2 * (sig : ℝ) ≤ 2 * (x / 2 ^ (j + 2)) + 1 ↔ 2 * ((2 * sig - 1) * 2 ^ j) ≤ x := by
    rw [← sub_le_iff_le_add, ← mul_div_assoc, le_div_iff₀ hP, pow_add]; constructor <;> intro h <;> nlinarith
  have e4 (x : ℝ) : 2 * (x / 2 ^ (j + 2)) + 1 ≤ 2 * (sig : ℝ) ↔ x ≤ 2 * ((2 * sig - 1) * 2 ^ j) := by
    rw [← le_sub_iff_add_le, ← mul_div_assoc, div_le_iff₀ hP, pow_add]; constructor <;> intro h <;> nlinarith
  refine ⟨(e3 w).2 (dn.1.1 ((e3 n).1 hn.le)), (e1 w).2 (up.2.1 ((e1 n).1 hn.ge)), fun ht => hn.tie ?_⟩
  rcases ht with ht | ht
  · exact .inl (le_antisymm ((e1 n).2 (up.2.2 ((e1 w).1 ht.le))) ((e2 n).2 (up.1.2 ((e2 w).1 ht.ge))))
  · exact .inr (le_antisymm ((e4 n).2 (dn.2.2 ((e4 w).1 ht.le))) ((e3 n).2 (dn.1.2 ((e3 w).1 ht.ge))))

/-- No integer is nearer than the nearest one, and where another is as near it is even. -/
theorem NearestInt.le_abs {y : ℝ} {sig : ℕ} (h : NearestInt y sig) (j : ℤ) :
    |(sig : ℝ) - y| ≤ |(j : ℝ) - y| ∧ (|(sig : ℝ) - y| = |(j : ℝ) - y| → (j : ℝ) ≠ sig → sig % 2 = 0) := by
  have hd : |(sig : ℝ) - y| ≤ 1 / 2 := abs_le.2 ⟨by linarith [h.ge], by linarith [h.le]⟩
  by_cases e : j = sig
  · subst e
    exact ⟨le_of_eq (by push_cast; rfl), fun _ hne => absurd (by push_cast; rfl) hne⟩
  have hj : 1 / 2 ≤ |(j : ℝ) - y| := by
    rcases lt_or_gt_of_ne e with e | e
    · have : (j : ℝ) + 1 ≤ sig := by exact_mod_cast e
      exact le_trans (by linarith [h.le]) (neg_le_abs _)
    · have : (sig : ℝ) + 1 ≤ j := by exact_mod_cast e
      exact le_trans (by linarith [h.ge]) (le_abs_self _)
  refine ⟨hd.trans hj, fun he _ => h.tie ?_⟩
  have h2 : |(sig : ℝ) - y| = 1 / 2 := le_antisymm hd (by rw [he]; exact hj)
  rcases abs_choice ((sig : ℝ) - y) with h3 | h3 <;> rw [h3] at h2
  · exact .inr (by linarith)
  · exact .inl (by linarith)

/-! ## The bits of a rounded value -/

theorem signBit_packSign {F : Fmt} {mag : ℕ} (h : mag < magLimit F) (neg : Bool) : signBit F (packSign F neg mag) = neg := by
  rw [signBit, truncF_packSign h, BitVec.getLsbD, packSign_toNat h]
  cases neg with
  | false => exact Nat.testBit_lt_two_pow h
  | true =>
    simp only [if_true]
    rw [Nat.add_comm, magLimit, Nat.testBit_two_pow_add_eq, Nat.testBit_lt_two_pow h]
    rfl

theorem evenSignificand_packSign {F : Fmt} {mag : ℕ} (h : mag < magLimit F) (neg : Bool) (he : mag % 2 = 0) :
    evenSignificand F (packSign F neg mag) := by
  rw [evenSignificand, truncF_packSign h, BitVec.getLsbD, packSign_toNat h, Nat.testBit_zero]
  have : magLimit F % 2 = 0 := by cases F <;> decide
  cases neg <;> simp <;> omega

/-- The sign bit is the sign of what a finite value means. -/
theorem signBit_of_unpack {F : Fmt} {a : Word} {s : Bool} {m : ℕ} {e : ℤ} (h : unpack F a = .fin s m e) : signBit F a = s := by
  obtain ⟨neg, mag, hm, ht⟩ := truncF_eq_packSign F a
  have h2 : signBit F a = neg := by
    have := signBit_packSign hm neg
    rwa [← ht, signBit, truncF_truncF] at this
  rw [← unpack_truncF, ht, unpack_packSign hm] at h
  rw [h2]
  split at h
  · split at h <;> cases h
  · split at h <;> cases h <;> rfl

@[simp] theorem signBit_zeroF (F : Fmt) (neg : Bool) : signBit F (zeroF F neg) = neg := signBit_of_unpack (unpack_zeroF F neg)

@[simp] theorem signBit_roundFin (F : Fmt) (neg : Bool) (m : ℕ) (e : ℤ) : signBit F (roundFin F neg m e) = neg := by
  unfold roundFin
  split
  · exact signBit_zeroF F neg
  · exact signBit_packSign (roundMag_lt F _) neg

/-- A correctly rounded number is no NaN. -/
theorem CorrectlyRounded.isNan {F : Fmt} {r : Word} {x : ℝ} (h : CorrectlyRounded F r x) : isNan F r = false := by
  rcases lt_or_ge |x| (overflowBound F : ℝ) with c | c
  · obtain ⟨q, ⟨s, m, e, hu, _⟩, _⟩ := h.1 c
    simp [Machine.isNan, hu]
  · simp [Machine.isNan, h.2.1 c]

/-- The significand and the exponent of a finite value are inside the format's. -/
theorem unpack_fin_bounds {F : Fmt} {c : Word} {s : Bool} {n : ℕ} {f : ℤ} (h : unpack F c = .fin s n f) :
    n < 2 * 2 ^ mantBits F ∧ minExp F ≤ f := by
  have hr := Nat.mod_lt (truncF F c).toNat (show 0 < 2 ^ mantBits F by positivity)
  simp only [unpack] at h
  split at h
  · split at h <;> cases h
  · split at h
    · cases h; exact ⟨by omega, le_refl _⟩
    · cases h; exact ⟨by omega, by omega⟩

/-- Magnitude bits put together from a significand `sig` at the last place `minExp + t` mean just that, carried out of the
field or not. -/
theorem unpack_assembled (F : Fmt) (neg : Bool) {t sig : ℕ} (ht : t = 0 ∨ 2 ^ mantBits F ≤ sig) (hs : sig ≤ 2 * 2 ^ mantBits F)
    (hm : t * 2 ^ mantBits F + sig < maxExpField F * 2 ^ mantBits F) :
    ∃ m e, unpack F (packSign F neg (t * 2 ^ mantBits F + sig)) = .fin neg m e ∧
      (m : ℝ) * 2 ^ e = sig * 2 ^ (minExp F + t) := by
  have hP : 0 < 2 ^ mantBits F := by positivity
  rw [unpack_packSign (hm.trans (inf_lt F))]
  generalize 2 ^ mantBits F = P at *
  have hdiv : (t * P + sig) / P < maxExpField F := by rw [Nat.div_lt_iff_lt_mul hP]; exact hm
  rw [if_neg (by omega)]
  rcases Nat.lt_or_ge sig P with h | h
  · obtain rfl : t = 0 := by omega
    rw [Nat.zero_mul, Nat.zero_add, Nat.div_eq_of_lt h, if_pos rfl, Nat.mod_eq_of_lt h]
    exact ⟨_, _, rfl, by simp⟩
  rcases Nat.lt_or_ge sig (2 * P) with h2 | h2
  · have e : t * P + sig = (sig - P) + (t + 1) * P := by rw [Nat.add_mul, Nat.one_mul]; omega
    rw [e, Nat.add_mul_div_right _ _ hP, Nat.div_eq_of_lt (by omega), Nat.add_mul_mod_self_right, Nat.mod_eq_of_lt (by omega),
      if_neg (by omega)]
    refine ⟨_, _, rfl, ?_⟩
    rw [show P + (sig - P) = sig by omega]
    congr 2
    push_cast; ring
  · have e : t * P + sig = (t + 2) * P := by rw [Nat.add_mul]; omega
    rw [e, Nat.mul_div_cancel _ hP, Nat.mul_mod_left, if_neg (by omega)]
    refine ⟨_, _, rfl, ?_⟩
    rw [show sig = 2 * P by omega, show minExp F + ((t + 2 : ℕ) : ℤ) - 1 = minExp F + t + 1 by push_cast; ring,
      zpow_add_one₀ (by norm_num)]
    push_cast; ring

theorem overflowBound_eq (F : Fmt) :
    (overflowBound F : ℝ) = (2 * 2 ^ mantBits F - 1 / 2) * 2 ^ (minExp F + maxExpField F - 2) := by
  simp only [overflowBound, largestFinite]
  push_cast
  rw [pow_succ]; ring

/-! ## Rounding to the format -/

section
variable {F : Fmt} {t sig : ℕ} {y : ℝ}

/-- The significand carried out of the largest exponent exactly where the magnitude has reached the overflow bound. -/
theorem overflow_iff (hy : y < 2 * 2 ^ mantBits F) (ht : t = 0 ∨ (2 : ℝ) ^ mantBits F ≤ y) (h : NearestInt y sig)
    (hs : sig ≤ 2 * 2 ^ mantBits F) (hts : t = 0 ∨ 2 ^ mantBits F ≤ sig) :
    (overflowBound F : ℝ) ≤ y * 2 ^ (minExp F + t) ↔
      maxExpField F * 2 ^ mantBits F ≤ t * 2 ^ mantBits F + sig := by
  have hM : 2 < maxExpField F := by cases F <;> decide
  obtain ⟨T, hT⟩ : ∃ T, maxExpField F = T + 2 := ⟨maxExpField F - 2, by omega⟩
  have hP1 : 1 ≤ 2 ^ mantBits F := Nat.one_le_two_pow
  have hPr : (1 : ℝ) ≤ 2 ^ mantBits F := by exact_mod_cast hP1
  rw [overflowBound_eq, hT, show minExp F + ((T + 2 : ℕ) : ℤ) - 2 = minExp F + T by push_cast; ring]
  rcases Nat.lt_trichotomy t T with c | c | c
  · have h1 : ¬ (T + 2) * 2 ^ mantBits F ≤ t * 2 ^ mantBits F + sig := by
      have := Nat.mul_le_mul_right (2 ^ mantBits F) (show t + 1 ≤ T from c)
      rw [Nat.add_mul] at this ⊢
      omega
    refine iff_of_false (not_le.2 ?_) h1
    have h2 : (2 : ℝ) ^ (minExp F + t + 1) ≤ 2 ^ (minExp F + T) := zpow_le_zpow_right₀ (by norm_num) (by omega)
    rw [zpow_add_one₀ (by norm_num)] at h2
    have h3 : (0 : ℝ) < 2 ^ (minExp F + t) := by positivity
    nlinarith
  · subst c
    have h3 : (0 : ℝ) < 2 ^ (minExp F + t) := by positivity
    rw [mul_le_mul_iff_left₀ h3, Nat.add_mul]
    constructor
    · intro h4
      by_contra h5
      have h6 : sig + 1 ≤ 2 * 2 ^ mantBits F := by omega
      have h7 : (sig : ℝ) + 1 ≤ 2 * 2 ^ mantBits F := by exact_mod_cast h6
      have h8 : (sig : ℝ) + 1 = 2 * 2 ^ mantBits F := by linarith [h.ge]
      have h9 : sig + 1 = 2 * 2 ^ mantBits F := by exact_mod_cast h8
      have := h.tie (.inl (by linarith [h.ge]))
      omega
    · intro h4
      have h6 : (2 : ℝ) * 2 ^ mantBits F ≤ sig := by exact_mod_cast (by omega : 2 * 2 ^ mantBits F ≤ sig)
      linarith [h.le]
  · have h1 : (T + 2) * 2 ^ mantBits F ≤ t * 2 ^ mantBits F + sig := by
      have := Nat.mul_le_mul_right (2 ^ mantBits F) (show T + 1 ≤ t from c)
      rw [Nat.add_mul] at this ⊢
      omega
    refine iff_of_true ?_ h1
    have h2 : (2 : ℝ) ^ (minExp F + T + 1) ≤ 2 ^ (minExp F + t) := zpow_le_zpow_right₀ (by norm_num) (by omega)
    rw [zpow_add_one₀ (by norm_num)] at h2
    have h3 : (0 : ℝ) < 2 ^ (minExp F + T) := by positivity
    have h4 : (2 : ℝ) ^ mantBits F ≤ y := ht.resolve_left (by omega)
    nlinarith

/-- Below the overflow bound the assembled magnitude is the nearest value, ties to even: every value of the format is a multiple
of the last place, or is below every number of this exponent. -/
theorem nearestEven_assembled (neg : Bool) (ht : t = 0 ∨ (2 : ℝ) ^ mantBits F ≤ y)
    (h : NearestInt y sig) (hs : sig ≤ 2 * 2 ^ mantBits F) (hts : t = 0 ∨ 2 ^ mantBits F ≤ sig)
    (hm : t * 2 ^ mantBits F + sig < maxExpField F * 2 ^ mantBits F) :
    NearestEven F (packSign F neg (t * 2 ^ mantBits F + sig))
      ((if neg then -1 else 1) * (y * 2 ^ (minExp F + t))) := by
  obtain ⟨m, e, hu, hv⟩ := unpack_assembled F neg hts hs hm
  have hU : (0 : ℝ) < 2 ^ (minExp F + t) := by positivity
  obtain ⟨σ, hσ⟩ : ∃ σ : ℝ, (if neg then -1 else 1) = σ := ⟨_, rfl⟩
  have hσ1 : σ = 1 ∨ σ = -1 := by rw [← hσ]; cases neg <;> simp
  have hσa : |σ| = 1 := by rcases hσ1 with h | h <;> rw [h] <;> norm_num
  have hq : ((ratOf neg m e : ℚ) : ℝ) = σ * (sig * 2 ^ (minExp F + t)) := by
    rw [← hσ, ← hv, ratOf]; push_cast
    cases neg <;> simp
  have dist (z : ℝ) : |σ * (z * 2 ^ (minExp F + t)) - σ * (y * 2 ^ (minExp F + t))| = |z - y| * 2 ^ (minExp F + t) := by
    rw [← mul_sub, abs_mul, hσa, one_mul, ← sub_mul, abs_mul, abs_of_pos hU]
  refine ⟨ratOf neg m e, ⟨neg, m, e, hu, rfl⟩, fun c p ⟨s, n, f, hc, hp⟩ => ?_⟩
  obtain ⟨hn, hf⟩ := unpack_fin_bounds hc
  -- the other value, as a multiple of the last place
  obtain ⟨z, hz⟩ : ∃ z : ℝ, (p : ℝ) = σ * (z * 2 ^ (minExp F + t)) := by
    refine ⟨σ * p / 2 ^ (minExp F + t), ?_⟩
    rw [div_mul_cancel₀ _ hU.ne', ← mul_assoc]
    rcases hσ1 with h | h <;> rw [h] <;> ring
  have hpabs : |(p : ℝ)| = n * 2 ^ f := by
    rw [← hp, ratOf]; push_cast
    rw [abs_mul, abs_of_pos (show (0 : ℝ) < 2 ^ f by positivity)]
    cases s <;> simp
  have hzabs : |z| * 2 ^ (minExp F + t) = n * 2 ^ f := by
    rw [← hpabs, hz, abs_mul, hσa, one_mul, abs_mul, abs_of_pos hU]
  rw [hσ, hq, hz, dist, dist]
  have key : |(sig : ℝ) - y| ≤ |z - y| ∧ (|(sig : ℝ) - y| = |z - y| → z ≠ sig → sig % 2 = 0) := by
    by_cases hft : minExp F + t ≤ f
    · have hzi : |z| = ((n * 2 ^ (f - (minExp F + t)).toNat : ℕ) : ℝ) := by
        have e1 : (2 : ℝ) ^ f = 2 ^ (f - (minExp F + t)).toNat * 2 ^ (minExp F + t) := by
          rw [← zpow_natCast, ← zpow_add₀ (by norm_num)]; congr 1; omega
        rw [e1, ← mul_assoc] at hzabs
        have := mul_right_cancel₀ hU.ne' hzabs
        rw [this]; push_cast; rfl
      rcases abs_choice z with hc | hc <;> rw [hc] at hzi
      · have := h.le_abs ((n * 2 ^ (f - (minExp F + t)).toNat : ℕ) : ℤ)
        rw [Int.cast_natCast, ← hzi] at this
        exact this
      · have := h.le_abs (-((n * 2 ^ (f - (minExp F + t)).toNat : ℕ) : ℤ))
        rw [Int.cast_neg, Int.cast_natCast, ← hzi, neg_neg] at this
        exact this
    · have hPy : (2 : ℝ) ^ mantBits F ≤ y := ht.resolve_left (by omega)
      have hzP : |z| < 2 ^ mantBits F := by
        have e1 : (2 : ℝ) ^ (f + 1) ≤ 2 ^ (minExp F + t) := zpow_le_zpow_right₀ (by norm_num) (by omega)
        rw [zpow_add_one₀ (by norm_num)] at e1
        have e2 : (n : ℝ) < 2 * 2 ^ mantBits F := by exact_mod_cast hn
        have e3 : (0 : ℝ) < 2 ^ f := by positivity
        have e4 : (0 : ℝ) < 2 ^ mantBits F := by positivity
        have : |z| * 2 ^ (minExp F + t) < 2 ^ mantBits F * 2 ^ (minExp F + t) := by rw [hzabs]; nlinarith
        exact lt_of_mul_lt_mul_right this hU.le
      have hlt : |(sig : ℝ) - y| < |z - y| := by
        have h1 := (h.le_abs ((2 ^ mantBits F : ℕ) : ℤ)).1
        rw [Int.cast_natCast] at h1
        push_cast at h1
        rw [abs_of_nonpos (by linarith : (2 : ℝ) ^ mantBits F - y ≤ 0)] at h1
        have h2 := le_abs_self z
        rw [abs_of_neg (by linarith : z - y < 0)]
        linarith
      exact ⟨hlt.le, fun he => absurd he hlt.ne⟩
  refine ⟨mul_le_mul_of_nonneg_right key.1 hU.le, fun he hne => ?_⟩
  refine evenSignificand_packSign (hm.trans (inf_lt F)) neg ?_
  have h2 := key.2 (mul_right_cancel₀ hU.ne' he) fun hzs => hne (by
    have : (p : ℝ) = ((ratOf neg m e : ℚ) : ℝ) := by rw [hz, hq, hzs]
    exact_mod_cast this)
  have : 2 ^ mantBits F % 2 = 0 := by cases F <;> decide
  rw [Nat.add_mod, Nat.mul_mod, this, Nat.mul_zero, h2]

/-- A significand rounded to the nearest integer at its last place is the number correctly rounded. -/
theorem correctlyRounded_assembled (neg : Bool) (hy0 : 0 < y) (hy : y < 2 * 2 ^ mantBits F)
    (ht : t = 0 ∨ (2 : ℝ) ^ mantBits F ≤ y) (h : NearestInt y sig) :
    CorrectlyRounded F (packSign F neg (min (t * 2 ^ mantBits F + sig) (maxExpField F * 2 ^ mantBits F)))
      ((if neg then -1 else 1) * (y * 2 ^ (minExp F + t))) := by
  have hU : (0 : ℝ) < 2 ^ (minExp F + t) := by positivity
  have hx : 0 < y * 2 ^ (minExp F + t) := by positivity
  have hs : sig ≤ 2 * 2 ^ mantBits F := by
    have : 2 * (sig : ℝ) < ((4 * 2 ^ mantBits F + 1 : ℕ) : ℝ) := by push_cast; linarith [h.le]
    have : 2 * sig < 4 * 2 ^ mantBits F + 1 := by exact_mod_cast this
    omega
  have hts : t = 0 ∨ 2 ^ mantBits F ≤ sig := ht.imp_right fun h1 => by
    have : ((2 * 2 ^ mantBits F : ℕ) : ℝ) ≤ ((2 * sig + 1 : ℕ) : ℝ) := by push_cast; linarith [h.ge]
    have : 2 * 2 ^ mantBits F ≤ 2 * sig + 1 := by exact_mod_cast this
    omega
  have hov := overflow_iff hy ht h hs hts
  have habs : |(if neg then -1 else 1) * (y * 2 ^ (minExp F + t))| = y * 2 ^ (minExp F + t) := by
    cases neg <;> simp [abs_of_pos hy0]
  have hsgn : decide ((if neg then -1 else 1) * (y * 2 ^ (minExp F + t)) < 0) = neg := by
    cases neg
    · simpa using hx.le
    · simpa using hx
  rw [CorrectlyRounded, habs, hsgn, signBit_packSign (roundMag_lt F _)]
  refine ⟨fun hlt => ?_, fun hle => ?_, fun _ => rfl⟩
  · have hm := not_le.1 (mt hov.2 (not_le.2 hlt))
    rw [Nat.min_eq_left hm.le]
    exact nearestEven_assembled neg ht h hs hts hm
  · rw [Nat.min_eq_right (hov.1 hle)]
    exact unpack_infF F neg

end

/-- `roundFin` rounds correctly, also for a number `w` that `n` only stands for, if it drops two bits or more. -/
theorem roundFin_sticky (F : Fmt) (neg : Bool) {n : ℕ} {e : ℤ} {w : ℝ} (h0 : 0 < n) (hw : 0 < w)
    (hg : w = n ∨ SameGap n w ∧ e + 2 ≤ lastPlace F n e) :
    CorrectlyRounded F (roundFin F neg n e) ((if neg then -1 else 1) * (w * 2 ^ e)) := by
  have hgap : SameGap n w := hg.elim (fun h => h ▸ sameGap_self n) And.left
  have lt_pow (i : ℕ) (h : n < 2 ^ (i + 1)) : w < 2 ^ (i + 1) := by
    have h1 : ¬ 2 * (((2 ^ i : ℕ) : ℤ) : ℝ) ≤ n := by
      rw [pow_succ, Nat.mul_comm] at h
      push_cast; rw [not_le]; exact_mod_cast h
    have h2 := not_le.1 (mt (hgap _).1.2 h1)
    rw [pow_succ, mul_comm]; push_cast at h2; exact h2
  have pow_le (i : ℕ) (h : 2 ^ (i + 1) ≤ n) : (2 : ℝ) ^ (i + 1) ≤ w := by
    have h1 : 2 * (((2 ^ i : ℕ) : ℤ) : ℝ) ≤ n := by
      rw [pow_succ, Nat.mul_comm] at h
      push_cast; exact_mod_cast h
    have h2 := (hgap _).1.1 h1
    rw [pow_succ, mul_comm]; push_cast at h2; exact h2
  obtain ⟨L, hL⟩ : ∃ L, Nat.log2 n = L := ⟨_, rfl⟩
  have hn1 : n < 2 ^ (L + 1) := hL ▸ Nat.lt_log2_self
  have hn2 : 2 ^ L ≤ n := hL ▸ Nat.log2_self_le (by omega)
  obtain ⟨l, hl⟩ : ∃ l, lastPlace F n e = l := ⟨_, rfl⟩
  have hl1 : e + L ≤ l + mantBits F := by
    have : e + (Nat.log2 n + 1 : ℕ) - (mantBits F + 1 : ℕ) ≤ l := hl ▸ le_max_left _ _
    omega
  have hl2 : minExp F ≤ l := hl ▸ le_max_right _ _
  have hl3 : l = minExp F ∨ e + L = l + mantBits F := by
    rcases max_choice (e + (Nat.log2 n + 1 : ℕ) - (mantBits F + 1 : ℕ)) (minExp F) with h | h <;>
      rw [← lastPlace, hl] at h
    · exact .inr (by omega)
    · exact .inl h
  obtain ⟨t, ht⟩ : ∃ t : ℕ, l = minExp F + t := ⟨(l - minExp F).toNat, by omega⟩
  rw [roundFin, if_neg (by omega), hl, roundedMag, show (l - minExp F).toNat = t by omega]
  by_cases hle : l ≤ e
  · obtain rfl : w = n := hg.resolve_right fun h => by omega
    obtain ⟨k, hk⟩ : ∃ k : ℕ, e = l + k := ⟨(e - l).toNat, by omega⟩
    have hx : (n : ℝ) * 2 ^ e = (n * 2 ^ k : ℕ) * 2 ^ (minExp F + t) := by
      rw [hk, zpow_add₀ (by norm_num), zpow_natCast, ← ht]; push_cast; ring
    rw [if_pos hle, show (e - l).toNat = k by omega, hx]
    refine correctlyRounded_assembled neg (by positivity) ?_ ?_ ⟨by linarith, by linarith, by rintro (h | h) <;> linarith⟩
    · have : n * 2 ^ k < 2 * 2 ^ mantBits F := by
        calc n * 2 ^ k < 2 ^ (L + 1) * 2 ^ k := Nat.mul_lt_mul_of_pos_right hn1 (by positivity)
          _ = 2 ^ (L + 1 + k) := (pow_add _ _ _).symm
          _ ≤ 2 ^ (mantBits F + 1) := Nat.pow_le_pow_right (by norm_num) (by omega)
          _ = 2 * 2 ^ mantBits F := by rw [pow_succ, Nat.mul_comm]
      exact_mod_cast this
    · refine hl3.imp (fun h => by omega) fun h => ?_
      have : 2 ^ mantBits F ≤ n * 2 ^ k := by
        calc 2 ^ mantBits F = 2 ^ L * 2 ^ k := by rw [← pow_add]; congr 1; omega
          _ ≤ n * 2 ^ k := Nat.mul_le_mul_right _ hn2
      exact_mod_cast this
  · obtain ⟨k, hk⟩ : ∃ k : ℕ, l = e + k := ⟨(l - e).toNat, by omega⟩
    have hP : (0 : ℝ) < 2 ^ k := by positivity
    have hx : w * 2 ^ e = w / 2 ^ k * 2 ^ (minExp F + t) := by
      rw [← ht, hk, zpow_add₀ (by norm_num), zpow_natCast]; field_simp
    rw [if_neg hle, show (l - e).toNat = k by omega, hx]
    refine correctlyRounded_assembled neg (by positivity) ?_ ?_ ?_
    · rw [div_lt_iff₀ hP, show (2 : ℝ) * 2 ^ mantBits F * 2 ^ k = 2 ^ (mantBits F + k + 1) by ring]
      exact lt_pow _ (hn1.trans_le (Nat.pow_le_pow_right (by norm_num) (by omega)))
    · refine hl3.imp (fun h => by omega) fun h => ?_
      have hM : 1 ≤ mantBits F := by cases F <;> decide
      rw [le_div_iff₀ hP, ← pow_add, show mantBits F + k = mantBits F + k - 1 + 1 by omega]
      exact pow_le _ (le_trans (Nat.pow_le_pow_right (by norm_num) (by omega)) hn2)
    · rcases hg with rfl | ⟨hg, h2⟩
      · exact roundShift_nearest n k
      · exact (roundShift_nearest n k).of_sameGap (by omega) hg

/-! ## What the three roundings answer -/

/-- A zero is zero, correctly rounded. -/
theorem correctlyRounded_zero (F : Fmt) (neg : Bool) : CorrectlyRounded F (zeroF F neg) 0 := by
  have hpos : (0 : ℝ) < overflowBound F := by
    rw [overflowBound_eq]
    have : (1 : ℝ) ≤ 2 ^ mantBits F := one_le_pow₀ (by norm_num)
    have : (0 : ℝ) < 2 ^ (minExp F + maxExpField F - 2) := by positivity
    nlinarith
  refine ⟨fun _ => ⟨0, ⟨neg, 0, minExp F, unpack_zeroF F neg, by simp [ratOf]⟩, fun c p _ => ⟨by simp, fun h hne => ?_⟩⟩,
    fun h => ?_, fun h => absurd rfl h⟩
  · exact absurd (by simpa using h.symm) hne
  · rw [abs_zero] at h; linarith

/-- `roundFin` answers `± m * 2 ^ e` correctly rounded (R11). -/
theorem roundFin_correctlyRounded (F : Fmt) (neg : Bool) (m : ℕ) (e : ℤ) :
    CorrectlyRounded F (roundFin F neg m e) ((ratOf neg m e : ℚ) : ℝ) := by
  by_cases h0 : m = 0
  · subst h0
    rw [roundFin, if_pos rfl, show ((ratOf neg 0 e : ℚ) : ℝ) = 0 by simp [ratOf]]
    exact correctlyRounded_zero F neg
  · have := roundFin_sticky F neg (n := m) (e := e) (w := m) (by omega) (by positivity) (.inl rfl)
    convert this using 1
    rw [ratOf]; push_cast
    cases neg <;> simp

/-- The last place of a number with three significant bits more than the format keeps is above its two lowest. -/
theorem two_le_lastPlace (F : Fmt) {n : ℕ} (e : ℤ) (h : mantBits F + 2 ≤ Nat.log2 n) : e + 2 ≤ lastPlace F n e := by
  unfold lastPlace
  exact le_max_of_le_left (by push_cast; omega)

/-- `roundQuot` answers the exact quotient correctly rounded (R11). -/
theorem roundQuot_correctlyRounded (F : Fmt) (neg : Bool) (m : ℕ) (e : ℤ) {n : ℕ} (hn : 0 < n) (f : ℤ) :
    CorrectlyRounded F (roundQuot F neg m e n f) ((if neg then -1 else 1) * (m * 2 ^ e / (n * 2 ^ f))) := by
  have hnr : (0 : ℝ) < n := by exact_mod_cast hn
  obtain ⟨k, hk⟩ : ∃ k, mantBits F + 4 + Nat.log2 n = k := ⟨_, rfl⟩
  simp only [roundQuot, hk]
  by_cases h0 : m = 0
  · subst h0
    simpa [roundFin] using correctlyRounded_zero F neg
  have hdm := Nat.div_add_mod (m * 2 ^ k) n
  have hr := Nat.mod_lt (m * 2 ^ k) hn
  obtain ⟨q, hq⟩ : ∃ q, m * 2 ^ k / n = q := ⟨_, rfl⟩
  obtain ⟨r, hr'⟩ : ∃ r, m * 2 ^ k % n = r := ⟨_, rfl⟩
  rw [hq, hr'] at hdm
  rw [hr'] at hr
  -- the quotient has enough bits
  have hqb : 2 ^ (mantBits F + 3) ≤ q := by
    rw [← hq, Nat.le_div_iff_mul_le hn]
    calc 2 ^ (mantBits F + 3) * n ≤ 2 ^ (mantBits F + 3) * 2 ^ (Nat.log2 n + 1) :=
          Nat.mul_le_mul_left _ Nat.lt_log2_self.le
      _ = 2 ^ k := by rw [← pow_add]; congr 1; omega
      _ ≤ m * 2 ^ k := Nat.le_mul_of_pos_left _ (by omega)
  have hq0 : 0 < q := lt_of_lt_of_le (by positivity) hqb
  have hw : (m : ℝ) * 2 ^ k = n * q + r := by exact_mod_cast hdm.symm
  have hx : (m : ℝ) * 2 ^ e / (n * 2 ^ f) = 2 * (m * 2 ^ k) / n * 2 ^ (e - f - k - 1) := by
    rw [zpow_sub₀ (by norm_num), zpow_sub₀ (by norm_num), zpow_sub₀ (by norm_num), zpow_natCast, zpow_one]
    field_simp
  have hlog : mantBits F + 2 ≤ Nat.log2 (2 * q + if r = 0 then 0 else 1) := by
    rw [Nat.le_log2 (by split <;> omega)]
    refine le_trans (Nat.pow_le_pow_right (by norm_num) (by omega : mantBits F + 2 ≤ mantBits F + 3)) ?_
    omega
  rw [hq, hr', hx]
  refine roundFin_sticky F neg (by split <;> omega) (by positivity) ?_
  by_cases hr0 : r = 0
  · subst hr0
    rw [if_pos rfl]
    left
    rw [hw]; push_cast; field_simp; ring
  · rw [if_neg hr0] at hlog ⊢
    have hr1 : (0 : ℝ) < r := by exact_mod_cast Nat.pos_of_ne_zero hr0
    have hr2 : (r : ℝ) < n := by exact_mod_cast hr
    refine .inr ⟨sameGap_odd ?_ ?_, two_le_lastPlace F _ hlog⟩
    · rw [lt_div_iff₀ hnr, hw]; nlinarith
    · rw [div_lt_iff₀ hnr, hw]; nlinarith

/-- `isqrtFrom` finds the integer square root of a number of at most `2 * k` bits. -/
theorem isqrtFrom_spec (n : ℕ) : ∀ k r, r * r ≤ n → n < (r + 2 ^ k) * (r + 2 ^ k) →
    isqrtFrom n k r * isqrtFrom n k r ≤ n ∧ n < (isqrtFrom n k r + 1) * (isqrtFrom n k r + 1)
  | 0, r, h1, h2 => ⟨h1, by simpa [isqrtFrom] using h2⟩
  | k + 1, r, h1, h2 => by
    rw [isqrtFrom]
    by_cases h : (r + 2 ^ k) * (r + 2 ^ k) ≤ n
    · rw [if_pos h]
      refine isqrtFrom_spec n k _ h ?_
      rwa [Nat.add_assoc, ← Nat.two_mul, Nat.mul_comm 2, ← pow_succ]
    · rw [if_neg h]
      exact isqrtFrom_spec n k r h1 (by omega)

/-- `roundSqrt` answers the real square root correctly rounded (R11), for a significand of at most 53 bits. -/
theorem roundSqrt_correctlyRounded (F : Fmt) {m : ℕ} (h0 : 0 < m) (hm : m < 2 ^ 53) (e : ℤ) :
    CorrectlyRounded F (roundSqrt F m e) (Real.sqrt (m * 2 ^ e)) := by
  obtain ⟨k, hk⟩ : ∃ k : ℕ, 2 * (mantBits F + 4) + (if e % 2 = 0 then 0 else 1) = k := ⟨_, rfl⟩
  have hk1 : 2 * (mantBits F + 4) ≤ k := by omega
  have hk2 : k ≤ 113 := by
    have : mantBits F ≤ 52 := by cases F <;> decide
    split at hk <;> omega
  obtain ⟨c, hc⟩ : ∃ c : ℤ, e = k + 2 * c := by
    refine ⟨(e - k) / 2, ?_⟩
    split at hk <;> omega
  have hn : m * 2 ^ k < (0 + 2 ^ 96) * (0 + 2 ^ 96) := by
    calc m * 2 ^ k < 2 ^ 53 * 2 ^ k := Nat.mul_lt_mul_of_pos_right hm (by positivity)
      _ ≤ 2 ^ 53 * 2 ^ 113 := Nat.mul_le_mul_left _ (Nat.pow_le_pow_right (by norm_num) hk2)
      _ < _ := by norm_num
  obtain ⟨hr1, hr2⟩ := isqrtFrom_spec (m * 2 ^ k) 96 0 (by omega) hn
  simp only [roundSqrt, hk]
  generalize isqrtFrom (m * 2 ^ k) 96 0 = r at *
  have hrb : 2 ^ (mantBits F + 4) ≤ r := by
    by_contra h
    have h1 : r + 1 ≤ 2 ^ (mantBits F + 4) := by omega
    have h2 := Nat.mul_le_mul h1 h1
    rw [← pow_add, ← Nat.two_mul] at h2
    have h3 : 2 ^ (2 * (mantBits F + 4)) ≤ m * 2 ^ k :=
      (Nat.pow_le_pow_right (by norm_num) hk1).trans (Nat.le_mul_of_pos_left _ h0)
    omega
  have hr0 : 0 < r := lt_of_lt_of_le (by positivity) hrb
  have hx : Real.sqrt (m * 2 ^ e) = 2 * Real.sqrt ((m * 2 ^ k : ℕ) : ℝ) * 2 ^ (c - 1) := by
    have e1 : (m : ℝ) * 2 ^ e = ((m * 2 ^ k : ℕ) : ℝ) * (2 ^ c) ^ 2 := by
      rw [hc, zpow_add₀ (by norm_num), zpow_natCast, ← zpow_natCast ((2 : ℝ) ^ c) 2, ← zpow_mul]
      push_cast; rw [mul_comm c 2]; ring
    rw [e1, Real.sqrt_mul (by positivity), Real.sqrt_sq (by positivity), zpow_sub_one₀ (by norm_num)]
    ring
  have hs1 : (r : ℝ) ≤ Real.sqrt ((m * 2 ^ k : ℕ) : ℝ) := Real.le_sqrt_of_sq_le (by rw [sq]; exact_mod_cast hr1)
  have hs2 : Real.sqrt ((m * 2 ^ k : ℕ) : ℝ) < r + 1 := by
    rw [Real.sqrt_lt' (by positivity), sq]; exact_mod_cast hr2
  have hlog : mantBits F + 2 ≤ Nat.log2 (2 * r + if r * r = m * 2 ^ k then 0 else 1) := by
    rw [Nat.le_log2 (by split <;> omega)]
    refine le_trans (Nat.pow_le_pow_right (by norm_num) (by omega : mantBits F + 2 ≤ mantBits F + 4)) ?_
    omega
  have hr0' : (0 : ℝ) < r := by exact_mod_cast hr0
  rw [hx, show (e - (k : ℤ)) / 2 - 1 = c - 1 by omega]
  have key := roundFin_sticky F false (n := 2 * r + if r * r = m * 2 ^ k then 0 else 1) (e := c - 1)
    (w := 2 * Real.sqrt ((m * 2 ^ k : ℕ) : ℝ)) (by split <;> omega) (by linarith) ?_
  · simpa using key
  by_cases hex : r * r = m * 2 ^ k
  · rw [if_pos hex, ← hex]
    left
    push_cast
    rw [Real.sqrt_mul_self hr0'.le, add_zero]
  · rw [if_neg hex] at hlog ⊢
    refine .inr ⟨sameGap_odd ?_ ?_, two_le_lastPlace F _ hlog⟩
    · have : (r : ℝ) ≠ Real.sqrt ((m * 2 ^ k : ℕ) : ℝ) := fun h => hex (by
        have h3 := Real.mul_self_sqrt (Nat.cast_nonneg (m * 2 ^ k) : (0 : ℝ) ≤ _)
        rw [← h] at h3
        exact_mod_cast h3)
      have := lt_of_le_of_ne hs1 this
      linarith
    · linarith

end Sys2Proof.Machine
end

