-- ==== Sys2Proof/Laws/Step.lean ====
section
/-! SUPPORT. What a step, a transaction and the address map can do, said once. -/

namespace Sys2Proof.Machine

/-! ## The step -/

theorem step_nil {s : State} (h : s.pending = []) : step s = .next s := by rw [step, runEvent, h]

/-- A step of a block out of reset is the next thing its host does. -/
theorem step_cons {s : State} {e : Event} {rest : List Event} (h : s.pending = e :: rest) (hr : s.inReset = false) :
    step s = transact { s with pending := rest } e := by
  rw [step, runEvent, h]; simp only [hr, Bool.false_eq_true, if_false]

theorem step_cons_inReset {s : State} {e : Event} {rest : List Event} (h : s.pending = e :: rest) (hr : s.inReset = true) :
    step s = transactInReset { s with pending := rest } e := by
  rw [step, runEvent, h]; simp only [hr, if_true]

/-! ## Issuing a word (R90, R98, R292) -/

theorem issue_of_fault {s : State} (h : s.fault = true) (w : CmdWord) : issue w s = .next s := by rw [issue, if_pos h]

theorem issue_of_command {s : State} (h : s.fault = false) {w : CmdWord} {i : Instr} (hd : decode w = .command i) :
    issue w s = exec i (s.setCmd w) := by
  rw [issue, if_neg (by simp [h]), hd]

theorem issue_of_illegal {s : State} (h : s.fault = false) {w : CmdWord} {r : IllegalWord} (hd : decode w = .illegal r) :
    issue w s = .next ((s.setCmd w).raise .illegalCmd (zextCmd w)) := by
  rw [issue, if_neg (by simp [h]), hd]

/-- A word that is issued does nothing, or is run as its command, or faults. -/
theorem issue_cases {w : CmdWord} {s t : State} (h : issue w s = .next t) :
    (s.fault = true ∧ t = s) ∨
    (s.fault = false ∧ ∃ i, decode w = .command i ∧ exec i (s.setCmd w) = .next t) ∨
    (s.fault = false ∧ (∃ r, decode w = .illegal r) ∧ t = (s.setCmd w).raise .illegalCmd (zextCmd w)) := by
  cases hf : s.fault with
  | true => rw [issue_of_fault hf] at h; cases h; exact .inl ⟨rfl, rfl⟩
  | false =>
    cases hd : decode w with
    | command i => rw [issue_of_command hf hd] at h; exact .inr (.inl ⟨rfl, i, rfl, h⟩)
    | illegal r => rw [issue_of_illegal hf hd] at h; cases h; exact .inr (.inr ⟨rfl, ⟨r, rfl⟩, rfl⟩)

/-! ## The bus -/

/-- What a store can do: the word is stored, or the block is as it was but for the latch. -/
theorem busStore_cases (s : State) (a : BusAddr) (v : Word) :
    (∃ l t, locate s a = some l ∧ storeLoc s v l = some t ∧ busStore s a v = t) ∨
    ((locate s a = none ∨ ∃ l, locate s a = some l ∧ storeLoc s v l = none) ∧ busStore s a v = s.raiseBus a) := by
  unfold busStore
  cases hl : locate s a with
  | none => exact .inr ⟨.inl rfl, rfl⟩
  | some l =>
    cases ht : storeLoc s v l with
    | none => exact .inr ⟨.inr ⟨l, rfl, ht⟩, by simp [ht]⟩
    | some t => exact .inl ⟨l, t, rfl, ht, by simp [ht]⟩

theorem busStore_of_some {s t : State} {a : BusAddr} {v : Word} {l : Loc} (hl : locate s a = some l)
    (ht : storeLoc s v l = some t) : busStore s a v = t := by simp [busStore, hl, ht]

theorem busRead_of_some {s : State} {a : BusAddr} {l : Loc} (hl : locate s a = some l) :
    busRead s a = s.logRead (loadLoc s l) := by simp [busRead, hl]

theorem busRead_of_none {s : State} {a : BusAddr} (hl : locate s a = none) :
    busRead s a = (s.raiseBus a).logRead 0 := by simp [busRead, hl]

/-- A write of an address other than that of `CMD` is a store. -/
theorem busWrite_of_ne {s : State} {a : BusAddr} (h : a ≠ 0) (v : Word) : busWrite s a v = .next (busStore s a v) := by
  rw [busWrite, if_neg h]

/-! ## The address map (R36, R69) -/

/-- Where a mapped word can be: a register, a per-stage register, or a word of one of the three windows. -/
theorem locate_cases {s : State} {a : BusAddr} {l : Loc} (h : locate s a = some l) :
    (a.toNat < 0x100 ∧ locateRegister a.toNat = some l) ∨
    (∃ k, k < s.cfg.maxStages ∧
      ((a.toNat = 0x100 + 4 * k ∧ l = .apLen k) ∨ (a.toNat = 0x101 + 4 * k ∧ l = .apIdx k) ∨
        (a.toNat = 0x102 + 4 * k ∧ l = .apFb k) ∨ (a.toNat = 0x103 + 4 * k ∧ l = .lfoPhase k))) ∨
    (∃ k i, k < s.cfg.maxStages ∧ i < (s.stage k).len.toNat ∧ k < 16 ∧ i < 0x1000 ∧
      a.toNat = 0x10000 + 0x1000 * k + i ∧ l = .apBuf k i) ∨
    (∃ i, s.firOk = true ∧ i ≤ s.firOrder.toNat ∧ i < 0x1000 ∧ a.toNat = 0x20000 + i ∧ l = .firCoef i) ∨
    (∃ i, s.firOk = true ∧ i < s.firOrder.toNat ∧ i < 0x1000 ∧ a.toNat = 0x21000 + i ∧ l = .firHist i) := by
  simp only [locate] at h
  split at h
  · next h1 => exact .inl ⟨h1, h⟩
  split at h
  · right; left
    unfold locateStage at h
    refine ⟨(a.toNat - 0x100) / 4, ?_⟩
    split at h
    · cases h
    refine ⟨by omega, ?_⟩
    split at h
    · cases h; exact .inl ⟨by omega, rfl⟩
    split at h
    · cases h; exact .inr (.inl ⟨by omega, rfl⟩)
    split at h
    · cases h; exact .inr (.inr (.inl ⟨by omega, rfl⟩))
    · cases h; exact .inr (.inr (.inr ⟨by omega, rfl⟩))
  split at h
  · cases h
  split at h
  · right; right; left
    unfold locateBuffer at h
    split at h
    · next hk => cases h; exact ⟨_, _, hk.1, hk.2, by omega, by omega, by omega, rfl⟩
    · cases h
  split at h
  · right; right; right; left
    unfold locateCoef at h
    split at h
    · next hk => cases h; exact ⟨_, hk.1, hk.2, by omega, by omega, rfl⟩
    · cases h
  split at h
  · right; right; right; right
    unfold locateHist at h
    split at h
    · next hk => cases h; exact ⟨_, hk.1, hk.2, by omega, by omega, rfl⟩
    · cases h
  · cases h

end Sys2Proof.Machine
end

