-- ==== Sys2Proof/Laws/UniVibe.lean ====
section
/-! SUPPORT. What the loops over the stages do, said once: the clearing loops of the constructor, the reset and the
resize, and the stage loop of `UV.PROC`. -/

namespace Sys2Proof.Machine

/-! ## A loop that clears a range of each stage's buffer and replaces its registers -/

/-- What one iteration of `UV.NEW`, `UV.SETSR` and `UV.RESET` does to stage `k`: `c` words cleared, the registers `g`. -/
def clearsStage (f : Nat → State → State) (g : Nat → Stage → Stage) (c : Nat → Stage → Nat) : Prop :=
  ∀ k s, f k s = (s.setMem (ramClear s.mem (apBufAddr k 0) (c k (s.stage k)))).setStage k (g k (s.stage k))

/-- A stage replaced twice is replaced once. -/
theorem State.setStage_setStage (s : State) (k : Nat) (a b : Stage) : (s.setStage k a).setStage k b = s.setStage k b := by
  simp only [State.setStage, Vector.setIfInBounds]
  congr 1
  simp [Array.setIfInBounds_setIfInBounds]

theorem ramClear_zero (m : Memory) (a : Nat) : ramClear m a 0 = m := by
  refine List.filter_eq_self.2 fun c _ => ?_
  simp only [Bool.not_eq_true', Bool.and_eq_false_iff, decide_eq_false_iff_not]
  omega

/-- A stage that does not exist takes no write. -/
theorem State.setStage_of_ge (s : State) {k : Nat} (h : 16 ≤ k) (a : Stage) : s.setStage k a = s := by
  cases s
  simp only [State.setStage, State.mk.injEq, true_and, and_true]
  exact Vector.ext fun i hi => by rw [Vector.getElem_setIfInBounds]; simp [show k ≠ i by omega]

theorem lfoZero_setStage (s : State) (k : Nat) (a : Stage) :
    lfoZero k (s.setStage k a) = s.setStage k { a with lfo := 0 } := by
  by_cases h : k < 16
  · rw [lfoZero, State.stage_setStage_self _ h, State.setStage_setStage]
  · rw [State.setStage_of_ge _ (by omega), State.setStage_of_ge _ (by omega), lfoZero, State.setStage_of_ge _ (by omega)]

theorem lfoZero_apClear_clears : clearsStage (fun k s => lfoZero k (apClear k s))
    (fun _ st => { st with idx := 0, lfo := 0 }) (fun _ st => st.len.toNat) := fun k s => by
  simp only [apClear, lfoZero_setStage]

theorem lfoZero_apResize_clears (cap : Nat) : clearsStage (fun k s => lfoZero k (apResize cap k s))
    (fun _ st => { st with len := BitVec.ofNat 32 cap, idx := 0, lfo := 0 }) (fun _ _ => cap) := fun k s => by
  simp only [apResize, lfoZero_setStage]

theorem uvBuildStage_clears (n cap : Nat) : clearsStage (uvBuildStage n cap)
    (fun k _ => if k < n then { len := BitVec.ofNat 32 cap, idx := 0, fb := 0, lfo := 0 } else Stage.empty)
    (fun k _ => if k < n then cap else 0) := fun k s => by
  unfold uvBuildStage
  by_cases h : k < n
  · simp only [h, if_true, apCreate, lfoZero_setStage]
  · simp only [h, if_false, lfoZero_setStage, ramClear_zero]; rfl

section
variable {f : Nat → State → State} {g : Nat → Stage → Stage} {c : Nat → Stage → Nat}

theorem clearsStage_same (hf : clearsStage f g c) (n : Nat) (s : State) : sameButStages s (forStages f n s) :=
  forStages_same (fun k s => by rw [hf]; rfl) n s

/-- The registers of each stage after the loop. -/
theorem clearsStage_stage (hf : clearsStage f g c) {n : Nat} (hn : n ≤ 16) (s : State) (j : Nat) :
    (forStages f n s).stage j = if j < n then g j (s.stage j) else s.stage j := by
  induction n generalizing j with
  | zero => simp [forStages]
  | succ n ih =>
    rw [forStages, hf, State.stage_setStage, State.stage_setMem, ih (by omega), ih (by omega)]
    by_cases h : n = j
    · subst h; simp [show n < 16 by omega]
    · simp only [h, false_and, if_false]
      exact if_congr (by omega) rfl rfl

/-- Only bytes of the cleared ranges change. -/
theorem clearsStage_memRead (hf : clearsStage f g c) {n : Nat} (hn : n ≤ 16) (s : State) {b : Nat}
    (h : ∀ k, k < n → b < apBufAddr k 0 ∨ apBufAddr k (c k (s.stage k)) ≤ b) :
    memRead (forStages f n s).mem b = memRead s.mem b := by
  induction n with
  | zero => rfl
  | succ n ih =>
    have h1 := h n (by omega)
    rw [apBufAddr_eq n (c n (s.stage n))] at h1
    rw [forStages, hf, State.setStage_mem, State.setMem, clearsStage_stage hf (by omega)]
    simp only [Nat.lt_irrefl, if_false]
    rw [memRead_ramClear_outside _ h1, ih (by omega) fun k hk => h k (by omega)]

theorem clearsStage_mem (hf : clearsStage f g c) (n : Nat) (s : State) {x : Host.Cell} (h : x ∈ (forStages f n s).mem) :
    x ∈ s.mem := by
  induction n with
  | zero => exact h
  | succ n ih => rw [forStages, hf] at h; exact ih (mem_ramClear h)

theorem clearsStage_wf (hf : clearsStage f g c) (n : Nat) {s : State} (hs : Memory.wf s.mem = true) :
    Memory.wf (forStages f n s).mem = true := by
  induction n with
  | zero => exact hs
  | succ n ih => rw [forStages, hf]; exact ramClear_wf ih _ _

/-- The words of the cleared ranges read as `+0.0`. -/
theorem clearsStage_apBufRead (hf : clearsStage f g c) {n : Nat} (hn : n ≤ 16) (s : State)
    (hc : ∀ k, k < n → c k (s.stage k) ≤ 0x1000) {j i : Nat} (hj : j < n) (hi : i < c j (s.stage j)) :
    apBufRead (forStages f n s) j i = 0 := by
  have hcfg : (forStages f n s).cfg = s.cfg := by rw [clearsStage_same hf n s]
  rw [apBufRead, hcfg]
  clear hcfg
  induction n with
  | zero => omega
  | succ n ih =>
    rw [forStages, hf, State.setStage_mem, State.setMem, clearsStage_stage hf (by omega)]
    simp only [Nat.lt_irrefl, if_false]
    by_cases h : j = n
    · subst h; rw [apBufAddr_eq j i, ramRead_ramClear_inside _ _ hi]
    · have h1 := hc n (by omega)
      have h2 := hc j (by omega)
      rw [ramRead_ramClear_outside, ih (by omega) (fun k hk => hc k (by omega)) (by omega)]
      simp only [apBufAddr, byteAddr]
      omega

end

/-! ## The stage datapath stays inside its stage -/

theorem tapIndex_lt (w d : Nat) {len : Nat} (h : 0 < len) : tapIndex w d len < len := by
  unfold tapIndex
  have h1 := Int.emod_nonneg ((w : Int) - d) (b := (len : Int)) (by omega)
  have h2 := Int.emod_lt_of_pos ((w : Int) - d) (b := (len : Int)) (by omega)
  omega

theorem stageStep_same (a : UvArgs) (k : Nat) (x : Word) (s : State) : sameButStages s (stageStep a k x s) := rfl

theorem stageLoop_same (a : UvArgs) (x : Word) (s : State) (n : Nat) : sameButStages s (stageLoop a x s n).1 := by
  induction n with
  | zero => rfl
  | succ n ih => exact sameButStages_trans ih (stageStep_same a n _ _)

/-- The stages the loop has not come to are as they were. -/
theorem stageLoop_stage_ge (a : UvArgs) (x : Word) (s : State) {n j : Nat} (h : n ≤ j) :
    (stageLoop a x s n).1.stage j = s.stage j := by
  induction n with
  | zero => rfl
  | succ n ih => rw [stageLoop, stageStep, State.stage_setStage_ne _ (by omega), State.stage_setMem, ih (by omega)]

/-- The phase, the delay and the read of stage `k` depend on that stage's registers and buffer alone. -/
theorem stagePhase_congr (a : UvArgs) {k : Nat} {s t : State} (h : sameButStages s t) (hk : t.stage k = s.stage k) :
    stagePhase a k t = stagePhase a k s := by
  unfold stagePhase
  rw [hk, h]

/-- Stages with equal phases advance to equal phases, bit for bit (R216). -/
theorem stagePhase_eq_of_lfo_eq (a : UvArgs) {j k : Nat} {s : State} (h : (s.stage j).lfo = (s.stage k).lfo) :
    stagePhase a j s = stagePhase a k s := by
  unfold stagePhase
  rw [h]

theorem stageDelay_congr (a : UvArgs) {k : Nat} {s t : State} (h : sameButStages s t) (hk : t.stage k = s.stage k) :
    stageDelay a k t = stageDelay a k s := by
  unfold stageDelay
  rw [stagePhase_congr a h hk, hk, h]

theorem stageRead_congr (a : UvArgs) {k : Nat} {s t : State} (h : sameButStages s t) (hk : t.stage k = s.stage k)
    (hlen : 0 < (s.stage k).len.toNat)
    (hb : ∀ i, i < (s.stage k).len.toNat → apBufRead t k i = apBufRead s k i) : stageRead a k t = stageRead a k s := by
  unfold stageRead
  simp only [stageDelay_congr a h hk, hk]
  rw [hb _ (tapIndex_lt _ _ hlen), hb _ (tapIndex_lt _ _ hlen), h]

theorem stageOut_congr (a : UvArgs) {k : Nat} (x : Word) {s t : State} (h : sameButStages s t)
    (hk : t.stage k = s.stage k) (hlen : 0 < (s.stage k).len.toNat)
    (hb : ∀ i, i < (s.stage k).len.toNat → apBufRead t k i = apBufRead s k i) : stageOut a k x t = stageOut a k x s := by
  unfold stageOut
  rw [stageRead_congr a h hk hlen hb, h]

/-- One word is written per stage, at its old index (R224). -/
theorem stageLoop_memRead (a : UvArgs) (x : Word) (s : State) {n b : Nat}
    (h : ∀ k, k < n → b < apBufAddr k (s.stage k).idx.toNat ∨ apBufAddr k (s.stage k).idx.toNat + 8 ≤ b) :
    memRead (stageLoop a x s n).1.mem b = memRead s.mem b := by
  induction n with
  | zero => rfl
  | succ n ih =>
    rw [stageLoop, stageStep, State.setStage_mem, State.setMem, stageLoop_stage_ge a x s (Nat.le_refl n),
      memRead_ramWrite_outside _ _ _ (h n (by omega)), ih fun k hk => h k (by omega)]

theorem stageLoop_mem (a : UvArgs) (x : Word) (s : State) {n : Nat} {y : Host.Cell} (h : y ∈ (stageLoop a x s n).1.mem) :
    (∃ k, k < n ∧ apBufAddr k (s.stage k).idx.toNat ≤ y.1 ∧ y.1 < apBufAddr k (s.stage k).idx.toNat + 8) ∨ y ∈ s.mem := by
  induction n with
  | zero => exact .inr h
  | succ n ih =>
    rw [stageLoop, stageStep, State.setStage_mem, State.setMem, stageLoop_stage_ge a x s (Nat.le_refl n)] at h
    rcases mem_ramWrite h with h | h
    · exact .inl ⟨n, by omega, h⟩
    · rcases ih h with ⟨k, hk, h⟩ | h
      · exact .inl ⟨k, by omega, h⟩
      · exact .inr h

theorem stageLoop_wf (a : UvArgs) (x : Word) {s : State} (hs : Memory.wf s.mem = true) (n : Nat) :
    Memory.wf (stageLoop a x s n).1.mem = true := by
  induction n with
  | zero => exact hs
  | succ n ih => exact ramWrite_wf _ ih _ _

/-- A buffer word of a stage that the loop has not come to, or that is not at its write index, is as it was. -/
theorem stageLoop_apBufRead (a : UvArgs) (x : Word) (s : State) {n j i : Nat} (hi : i < 0x1000)
    (hidx : ∀ k, k < n → (s.stage k).idx.toNat < 0x1000) (h : n ≤ j ∨ i ≠ (s.stage j).idx.toNat) :
    apBufRead (stageLoop a x s n).1 j i = apBufRead s j i := by
  rw [apBufRead, stageLoop_same a x s n, apBufRead]
  refine memReadBytes_congr fun b h1 h2 => stageLoop_memRead a x s fun k hk => ?_
  have := hidx k hk
  have := fmtBytes_le s.cfg.fmtUv
  rcases h with h | h
  · simp only [apBufAddr, byteAddr] at *; omega
  · by_cases e : k = j
    · subst e; simp only [apBufAddr, byteAddr] at *; omega
    · simp only [apBufAddr, byteAddr] at *; omega

/-- The registers of a stage the loop has been through (R216, R219, R224). -/
theorem stageLoop_stage_lt (a : UvArgs) (x : Word) (s : State) {n k : Nat} (hk : k < n) (hn : n ≤ 16) :
    (stageLoop a x s n).1.stage k = { s.stage k with
      lfo := stagePhase a k s
      fb := a.feedback
      idx := BitVec.ofNat 32 (((s.stage k).idx.toNat + 1) % (s.stage k).len.toNat) } := by
  induction n with
  | zero => omega
  | succ n ih =>
    rw [stageLoop, stageStep]
    by_cases e : k = n
    · subst e
      rw [State.stage_setStage_self _ (by omega), stageLoop_stage_ge a x s (Nat.le_refl k),
        stagePhase_congr a (stageLoop_same a x s k) (stageLoop_stage_ge a x s (Nat.le_refl k))]
    · rw [State.stage_setStage_ne _ (by omega), State.stage_setMem, ih (by omega) (by omega)]

/-- The signal after stage `k` is that stage's output for the signal before it (R215, R222). -/
theorem stageLoop_signal (a : UvArgs) (x : Word) (s : State) {k : Nat} (hlen : 0 < (s.stage k).len.toNat)
    (hfit : (s.stage k).len.toNat ≤ 0x1000) (hidx : ∀ j, j < k → (s.stage j).idx.toNat < 0x1000) :
    (stageLoop a x s (k + 1)).2 = stageOut a k (stageLoop a x s k).2 s :=
  stageOut_congr a _ (stageLoop_same a x s k) (stageLoop_stage_ge a x s (Nat.le_refl k)) hlen
    fun _ hi => stageLoop_apBufRead a x s (by omega) hidx (.inl (Nat.le_refl k))

/-! ## The stage's formulas are those of R216 to R223 -/

theorem lfoAdvance_lfoStep (F : Fmt) (c : Nat) (lfo rate sr : Word) : LfoStep F lfo rate sr (lfoAdvance F c lfo rate sr) :=
  ⟨_, _, _, rfl⟩

theorem stageDelay_delayStep (a : UvArgs) (k : Nat) (s : State) :
    DelayStep s.cfg.fmtUv (stagePhase a k s) a.depth s.uvBase s.uvRange (s.stage k).len.toNat (stageDelay a k s) :=
  ⟨_, _, _, _, _, _, _, rfl⟩

theorem stageRead_interpStep (a : UvArgs) (k : Nat) (s : State) :
    InterpStep s.cfg.fmtUv (apBufRead s k) (s.stage k).idx.toNat (s.stage k).len.toNat (stageDelay a k s) (stageRead a k s) :=
  ⟨_, _, _, _, _, by
    have e (w fd : Nat) : (w : Int) - (fd + 1 : Nat) = (w : Int) - fd - 1 := by omega
    simp only [stageRead, interpolate, tapIndex, e]; rfl⟩

theorem stageOut_mixStep (a : UvArgs) (k : Nat) (x : Word) (s : State) :
    MixStep s.cfg.fmtUv a.feedback x (stageRead a k s) (stageOut a k x s)
      (mixBack s.cfg.fmtUv s.draws k a.feedback x (stageOut a k x s)) :=
  ⟨_, _, _, _, rfl, rfl⟩

@[simp] theorem truncF_stageOut (a : UvArgs) (k : Nat) (x : Word) (s : State) :
    truncF s.cfg.fmtUv (stageOut a k x s) = stageOut a k x s := truncF_fadd _ _ _ _

@[simp] theorem truncF_mixBack (F : Fmt) (c k : Nat) (g x out : Word) : truncF F (mixBack F c k g x out) = mixBack F c k g x out :=
  truncF_fsub F _ _ _

@[simp] theorem truncF_lfoAdvance (F : Fmt) (c : Nat) (lfo rate sr : Word) :
    truncF F (lfoAdvance F c lfo rate sr) = lfoAdvance F c lfo rate sr := by
  unfold lfoAdvance
  simp only
  split
  · exact truncF_fsub F _ _ _
  · exact truncF_fadd F _ _ _

/-- The signal is a value of the format. -/
theorem truncF_stageLoop (a : UvArgs) {x : Word} (s : State) (hx : truncF s.cfg.fmtUv x = x) (n : Nat) :
    truncF s.cfg.fmtUv (stageLoop a x s n).2 = (stageLoop a x s n).2 := by
  cases n with
  | zero => exact hx
  | succ n =>
    have h := truncF_stageOut a n (stageLoop a x s n).2 (stageLoop a x s n).1
    rw [stageLoop_same a x s n] at h
    rw [stageLoop, stageLoop_same a x s n]
    exact h

/-! ## Derived constants and checks -/

theorem uvDerive_holds (F : Fmt) (c : Nat) (sr : Word) :
    UvDerive F sr (uvDeriveBase F c sr) (uvDeriveRange F c sr) (uvDeriveCapf F c sr) := ⟨_, _, _, _, rfl, rfl, rfl⟩

theorem uvCapFits_of_fits {F : Fmt} {maxCap : Nat} {sr : Word} (h : FitsRam F maxCap sr) (c : Nat) :
    uvCapFits F c maxCap sr = true := h _ _ _ _ (uvDerive_holds F c sr)

/-- A capacity that fits is at most the RAM's (R211, R226). -/
theorem uvCap_le_of_fits {F : Fmt} {maxCap c : Nat} {sr : Word} (h0 : 0 < maxCap) (h : maxCap ≤ 4096)
    (hf : uvCapFits F c maxCap sr = true) : uvCap F c sr ≤ maxCap := by
  rw [uvCapFits, fadd_ofNatF_oneF F _ h0 (by omega)] at hf
  have := floorUint_lt_of_ltF (by omega) (by omega) hf
  rw [uvCap]
  omega

theorem uvCapFits_of_exceeds {F : Fmt} {maxCap : Nat} {sr : Word} (h : ExceedsRam F maxCap sr) (c : Nat) :
    uvCapFits F c maxCap sr = false := h _ _ _ _ (uvDerive_holds F c sr)

theorem shortStage_iff (s : State) (n : Nat) : shortStage s n = true ↔ ∃ k, k < n ∧ (s.stage k).len.toNat < 2 := by
  induction n with
  | zero => simp [shortStage]
  | succ n ih =>
    rw [shortStage, Bool.or_eq_true, ih, decide_eq_true_eq]
    constructor
    · rintro (⟨k, hk, h⟩ | h)
      · exact ⟨k, by omega, h⟩
      · exact ⟨n, by omega, h⟩
    · rintro ⟨k, hk, h⟩
      by_cases e : k = n
      · subst e; exact .inr h
      · exact .inl ⟨k, by omega, h⟩

end Sys2Proof.Machine
end

