-- ==== Sys2Proof/Tests/Slice0.lean ====
section
/-! SUPPORT. Tests: values of spec/95_test_vectors.md and of the rules' worked examples, and for every statement a state
and operands that meet its hypotheses. -/

namespace Sys2Proof.Tests

-- One theorem after the other: each `decide +kernel` elaborated beside the others would hold a thread of its own.
set_option Elab.async false

open Sys2Proof Sys2Proof.Machine

/-! ## WellFormed: each check refuses an ill-formed term -/

theorem test_wellFormed_apNew : (Instr.apNew 256).wellFormed = false := by decide
theorem test_wellFormed_apReset : (Instr.apReset 256).wellFormed = false := by decide
theorem test_wellFormed_apSetFb : (Instr.apSetFb 256).wellFormed = false := by decide
theorem test_wellFormed_boundary : (Instr.apNew 255).wellFormed = true := by decide

/-! ## Decoding: words written out from R92 and R94, and ENC-1 -/

theorem test_decode_nop : decode 0b00000000000000000000000000000000 = .command .nop := by decide
theorem test_decode_apNew : decode 0b00010000000001110000000000000000 = .command (.apNew 7) := by decide
theorem test_decode_apReset : decode 0b00010001000000110000000000000000 = .command (.apReset 3) := by decide
theorem test_decode_apSetFb : decode 0b00010010000000010000000000000000 = .command (.apSetFb 1) := by decide
theorem test_decode_iirNew : decode 0b00100000000000000000000000000000 = .command .iirNew := by decide
theorem test_decode_iirSetCut : decode 0b00100001000000000000000000000000 = .command .iirSetCut := by decide
theorem test_decode_iirProc : decode 0b00100010000000000000000000000000 = .command .iirProc := by decide
theorem test_decode_firNew : decode 0b00110000000000000000000000000000 = .command .firNew := by decide
theorem test_decode_firSetCut : decode 0b00110001000000000000000000000000 = .command .firSetCut := by decide
theorem test_decode_firProc : decode 0b00110010000000000000000000000000 = .command .firProc := by decide
theorem test_decode_wsGreen : decode 0b01000000000000000000000000000000 = .command .wsGreen := by decide
theorem test_decode_wsRed : decode 0b01000001000000000000000000000000 = .command .wsRed := by decide
theorem test_decode_wsSigmoid : decode 0b01000010000000000000000000000000 = .command .wsSigmoid := by decide
theorem test_decode_wsHard : decode 0b01000011000000000000000000000000 = .command .wsHard := by decide
theorem test_decode_uvNew : decode 0b01010000000000000000000000000000 = .command .uvNew := by decide
theorem test_decode_uvSetSr : decode 0b01010001000000000000000000000000 = .command .uvSetSr := by decide
theorem test_decode_uvReset : decode 0b01010010000000000000000000000000 = .command .uvReset := by decide
theorem test_decode_uvProc : decode 0b01010011000000000000000000000000 = .command .uvProc := by decide
theorem test_decode_stage255 : decode 0x10FF0000 = .command (.apNew 255) := by decide
theorem test_decode_notNop : decode 0x00010000 = .illegal .stageField ∧ decode 0x00000001 = .illegal .reservedBits := by decide
theorem test_decode_reserved_apNew : decode 0x10000100 = .illegal .reservedBits := by decide
theorem test_decode_unassigned : decode 0x13000000 = .illegal .unassignedOp ∧ decode 0x54000000 = .illegal .unassignedOp ∧
    decode 0x60000000 = .illegal .unassignedOp := by decide
theorem test_encode_apReset : encode (.apReset 3) = 0x11030000 := by decide
theorem test_decodeTableWord : decodeTableWord 32 0x53000000 = some .uvProc ∧ decodeTableWord 32 0x44000000 = none := by decide

/-! ## States for the tests -/

/-- The reset state with the argument registers written. -/
def withArgs (a0 a1 a2 a3 a4 : Word) : State :=
  { State.reset with arg0 := a0, arg1 := a1, arg2 := a2, arg3 := a3, arg4 := a4 }

/-- Stage 0 with the four-slot buffer of PROG-2 and `AP-2`, the write index at 3. -/
def shortRing : Stage := { len := 4, idx := 3, fb := 0x3F000000, lfo := 0x37982C9F }

/-- Every unit constructed: UniVibe with one stage of four slots, the IIR filter of IIR-1, a FIR filter of order 2; the
arguments are 44100.0, 1, 2, 0.5, 1. -/
def ready : State :=
  { State.reset with
    uvOk := true, iirOk := true, firOk := true
    arg0 := 0x472C4400, arg1 := 1, arg2 := 2, arg3 := 0x3F000000, arg4 := 1
    uvSr := 0x472C4400, uvBase := 0x435C8000, uvRange := 0x42B06667, uvNst := 1
    iirSr := 0x473B8000, iirB0 := 0x3F000000, iirA1 := 0x3E800000
    firSr := 0x473B8000, firOrder := 2
    stages := (Vector.replicate 16 Stage.empty).set 0 shortRing
    mem := [(0x80000, 1), (0x100000, 2), (0x108000, 3)] }

/-- `ready` with a second stage of the same length and phase. -/
def twins : State := { ready with stages := ready.stages.set 1 { shortRing with idx := 0 }, uvNst := 2, arg4 := 2 }

/-- The word read back in `RES` after one command, or none. -/
def resultOf (o : Host.Outcome State Fault Refusal) : Option Word :=
  match o with
  | .next t => some t.res
  | .fault _ => none
  | .refused _ => none

/-- What a test asks of the state after one command. -/
def after (o : Host.Outcome State Fault Refusal) (p : State → Bool) : Bool :=
  match o with
  | .next t => p t
  | .fault _ => false
  | .refused _ => false

/-- One transaction of a host. -/
def doing (s : State) (e : Event) : Host.Outcome State Fault Refusal := step { s with pending := [e] }

/-! ## The constants of R13 -/

theorem test_constants : litF .b32 5 1000 = 0x3BA3D70A ∧ litF .b32 2 1000 = 0x3B03126F ∧ litF .b32 54 100 = 0x3F0A3D71 ∧
    litF .b32 46 100 = 0x3EEB851F ∧ litF .b32 265 100 = 0x4029999A ∧ litF .b32 75 100 = 0x3F400000 ∧
    litF .b32 43 100 = 0x3EDC28F6 ∧ litF .b32 3 10 = 0x3E99999A ∧ litF .b32 1 2 = 0x3F000000 ∧
    litF .b32 3 2 = 0x3FC00000 ∧ piF .b32 = 0x40490FDB := by decide +kernel

theorem test_twoPi (d : Draw) : fmul .b32 d (twoF .b32) (piF .b32) = 0x40C90FDB := by
  have : fmul .b32 ⟨0, 0⟩ (twoF .b32) (piF .b32) = 0x40C90FDB := by decide +kernel
  exact this

/-! ## One command each -/

theorem test_nop : exec .nop ready = .next ready := rfl

/-- AP-1. -/
theorem test_apNew : after (exec (.apNew 0) (withArgs 4 0 0 0 0)) (fun t => t.stage 0 == { Stage.empty with len := 4 }) = true := by
  decide +kernel
/-- AP-4: one word too many. -/
theorem test_apNew_resource : after (exec (.apNew 0) (withArgs 4097 0 0 0 0))
    (fun t => t.fault && t.fcode == 5 && t.finfo == 0x10000000) = true := by decide +kernel
/-- AP-2. -/
theorem test_apReset : after (exec (.apReset 0) ready)
    (fun t => t.stage 0 == { shortRing with idx := 0 } && apBufRead t 0 0 == 0) = true := by decide +kernel
/-- ENC-1: stage 8 of 8. -/
theorem test_apReset_range : after (exec (.apReset 8) ready) (fun t => t.fcode == 3 && t.finfo == 0x11080000) = true := by
  decide +kernel
/-- AP-5: a NaN is stored as given. -/
theorem test_apSetFb : after (exec (.apSetFb 1) (withArgs 0xFFFFFFFF7FC00000 0 0 0 0))
    (fun t => (t.stage 1).fb == 0x7FC00000 && !t.fault) = true := by decide +kernel

theorem test_iirNew : after (exec .iirNew (withArgs 0x473B8000 0x463B8000 0 0 0))
    (fun t => t.iirOk && t.iirSr == 0x473B8000 && t.iirY1 == 0) = true := by decide +kernel
/-- IIR-3. -/
theorem test_iirSetCut_unconstructed : after (exec .iirSetCut State.reset)
    (fun t => t.fcode == 2 && t.finfo == 0x21000000) = true := by decide +kernel
/-- IIR-1, first and second call. -/
theorem test_iirProc : resultOf (exec .iirProc { ready with arg0 := 0x3F800000 }) = some 0x3F000000 := by decide +kernel
theorem test_iirProc_recursive :
    resultOf (exec .iirProc { ready with arg0 := 0x3F800000, iirY1 := 0x3F000000 }) = some 0x3F200000 := by decide +kernel

/-- FIR-2: odd order. -/
theorem test_firNew_warns : after (exec .firNew (withArgs 0x45BB8000 0x473B8000 3 0 0))
    (fun t => t.firWarn && t.firOk && t.firOrder == 3) = true := by decide +kernel
/-- FIR-1: an even order and a cutoff of half the Nyquist frequency do not warn. -/
theorem test_firNew_clean : after (exec .firNew (withArgs 0x463B8000 0x473B8000 2 0 0)) (fun t => !t.firWarn) = true := by
  decide +kernel
/-- A cutoff of 44100 Hz at 48000 Hz is outside [0, 1]. -/
theorem test_firSetCut_warns : after (exec .firSetCut ready) (fun t => t.firWarn && t.firOrder == 2) = true := by decide +kernel
/-- FIR-3, the third sample of 1, 2, 3, 4 in each mode. -/
def firThree (tap : LastTap) : State :=
  { ready with
    cfg := { Config.default with firLastTap := tap }
    arg0 := 0x40400000
    mem := ramWrite .b32 (ramWrite .b32 (ramWrite .b32 (ramWrite .b32 (ramWrite .b32 [] (firCoefAddr 0) 0x3F000000)
      (firCoefAddr 1) 0x3E800000) (firCoefAddr 2) 0x3E000000) (firHistAddr 0) 0x40000000) (firHistAddr 1) 0x3F800000 }
theorem test_firProc_dropped : resultOf (exec .firProc (firThree .dropped)) = some 0x40000000 := by decide +kernel
theorem test_firProc_used : resultOf (exec .firProc (firThree .used)) = some 0x40080000 := by decide +kernel

/-- WS-1. -/
theorem test_wsGreen_zero : resultOf (exec .wsGreen (withArgs 0 0 0 0 0)) = some 0 := by decide +kernel
theorem test_wsGreen_negative_zero : resultOf (exec .wsGreen (withArgs 0x80000000 0 0 0 0)) = some 0 := by decide +kernel
/-- WS-2. -/
theorem test_wsRed_one : resultOf (exec .wsRed (withArgs 0x3F800000 0 0 0 0)) = some 0xBF0A8A06 := by decide +kernel
theorem test_wsRed_four : resultOf (exec .wsRed (withArgs 0xC0800000 0 0 0 0)) = some 0xBFDBF53A := by decide +kernel
/-- WS-3. -/
theorem test_wsSigmoid_one : resultOf (exec .wsSigmoid (withArgs 0x3F800000 0 0 0 0)) = some 0x3F2DBB7D := by decide +kernel
theorem test_wsSigmoid_minus : resultOf (exec .wsSigmoid (withArgs 0xBF800000 0 0 0 0)) = some 0xC00AF1B7 := by decide +kernel
/-- WS-4. -/
theorem test_wsHard_low : resultOf (exec .wsHard (withArgs 0xC0000000 0x3F800000 0 0 0)) = some 0xBF800000 := by decide +kernel
theorem test_wsHard_zero : resultOf (exec .wsHard (withArgs 0xBE800000 0 0 0 0)) = some 0x80000000 := by decide +kernel

/-- UV-1, 48000 Hz: `UV_RANGE` shows its rounding. -/
theorem test_uvNew : after (exec .uvNew (withArgs 0x473B8000 2 0 0 0)) (fun t => t.uvBase == 0x43700000 &&
    t.uvRange == 0x42C00001 && (t.stage 1).len == 432 && (t.stage 2).len == 0 && t.uvNst == 2) = true := by decide +kernel
/-- UV-2: both operands bad, the sample rate is reported. -/
theorem test_uvNew_order : after (exec .uvNew (withArgs 0x80000000 9 0 0 0)) (fun t => t.fcode == 4) = true := by decide +kernel
/-- UV-1, 455200 Hz: the largest capacity; SRC-4 keeps the feedback. -/
theorem test_uvSetSr : after (exec .uvSetSr { ready with arg0 := 0x48DE4400 })
    (fun t => t.stage 0 == { shortRing with len := 4096, idx := 0, lfo := 0 }) = true := by decide +kernel
theorem test_uvSetSr_resource : after (exec .uvSetSr { ready with arg0 := 0x48DE5080 }) (fun t => t.fcode == 5) = true := by
  decide +kernel
theorem test_uvReset : after (exec .uvReset ready)
    (fun t => t.stage 0 == { shortRing with idx := 0, lfo := 0 } && apBufRead t 0 0 == 0) = true := by decide +kernel
/-- UV-3: the second phase; the index wraps. -/
theorem test_uvProc : after (exec .uvProc { ready with arg1 := 0x3F4CCCCD })
    (fun t => (t.stage 0).lfo == 0x38182C9F && (t.stage 0).idx == 0) = true := by decide +kernel
/-- R216: equal phases advance to equal phases bit for bit, for a NaN rate too, whatever NaN they are. -/
theorem test_uvProc_equal_phases (rate : Word) :
    stagePhase { rate := rate, depth := 0, feedback := 0 } 0 twins =
      stagePhase { rate := rate, depth := 0, feedback := 0 } 1 twins := rfl
/-- UV-5. -/
theorem test_uvProc_range : after (exec .uvProc { ready with arg4 := 2 }) (fun t => t.fcode == 3) = true := by decide +kernel

/-! ## The ports -/

/-- BUS-1. -/
theorem test_read_unmapped : after (doing State.reset (.rd 0x00005))
    (fun t => t.readLog == [0] && t.fcode == 7 && t.finfo == 5 && statusWord t == 1) = true := by decide +kernel
/-- BUS-3. -/
theorem test_discard : after (doing { State.reset with fault := true, cmd := 0x53000000 } (.wr 0 0x43000000))
    (fun t => t.cmd == 0x53000000) = true := by decide +kernel
/-- PROG-3. -/
theorem test_illegal : after (doing State.reset (.wr 0 0x10000))
    (fun t => t.fcode == 1 && t.finfo == 0x10000 && t.cmd == 0x10000) = true := by decide +kernel
/-- AP-3. -/
theorem test_index_check : after (doing ready (.wr 0x00101 4)) (fun t => t.fcode == 7 && (t.stage 0).idx == 3) = true := by
  decide +kernel
/-- R64: a little-endian write of `ARG0`. -/
theorem test_bytes : after (doing State.reset (.wrBytes 0x40 [1, 2, 3, 4, 5, 6, 7, 8]))
    (fun t => t.arg0 == 0x0807060504030201) = true := by decide +kernel
theorem test_reset_refuses : step { State.reset with inReset := true, pending := [.rd 0] } =
    .refused .transactionDuringReset := rfl

/-! ## The hypotheses of the statements are met -/

/-- A property of every stage is one of the sixteen and of the empty stage. -/
theorem forall_stage {s : State} {P : Stage → Prop} (h₀ : P Stage.empty) (h : ∀ k, k < 16 → P (s.stage k)) (k : Nat) :
    P (s.stage k) := by
  by_cases hk : k < 16
  · exact h k hk
  · rw [State.stage_of_ge s (by omega)]; exact h₀

theorem ready_inv : ready.Inv where
  cfgOk := by decide
  memWf := by decide
  memInRam := by unfold inRamWindow byteAddr; decide
  lenFits := forall_stage (P := fun st => st.len.toNat ≤ 4096) (by decide) (by decide)
  idxBelow := forall_stage (P := fun st => st.idx.toNat < st.len.toNat ∨ (st.len = 0 ∧ st.idx = 0)) (by decide) (by decide)
  noStage := by
    intro k hk
    by_cases h : k < 16
    · have : ∀ k, k < 16 → 8 ≤ k → ready.stage k = Stage.empty := by decide
      exact this k h hk
    · exact State.stage_of_ge _ (by omega)
  nstFits := by decide
  nstBuilt := by decide
  orderFits := by decide
  latchClear := by decide
  latchSet := by decide
  uvHolds := by unfold holdsF; decide
  stageHolds := forall_stage (P := fun st => holdsF .b32 st.fb ∧ holdsF .b32 st.lfo) (by unfold holdsF; decide)
    (by unfold holdsF; decide)
  iirHolds := by unfold holdsF; decide
  firHolds := by unfold holdsF; decide

theorem twins_inv : twins.Inv := { ready_inv with
  lenFits := forall_stage (P := fun st => st.len.toNat ≤ 4096) (by decide) (by decide)
  idxBelow := forall_stage (P := fun st => st.idx.toNat < st.len.toNat ∨ (st.len = 0 ∧ st.idx = 0)) (by decide) (by decide)
  noStage := by
    intro k hk
    by_cases h : k < 16
    · have : ∀ k, k < 16 → 8 ≤ k → twins.stage k = Stage.empty := by decide
      exact this k h hk
    · exact State.stage_of_ge _ (by omega)
  nstFits := by decide
  nstBuilt := by decide
  stageHolds := forall_stage (P := fun st => holdsF .b32 st.fb ∧ holdsF .b32 st.lfo) (by unfold holdsF; decide)
    (by unfold holdsF; decide) }

/-- The quantities of UV-1 do not depend on the draws: every operand is finite. -/
theorem derive_fixed {sr base range capf : Word} (h : UvDerive .b32 sr base range capf)
    (h₁ : isFinite .b32 sr = true)
    (h₂ : isFinite .b32 (fmul .b32 ⟨0, 0⟩ sr (litF .b32 5 1000)) = true)
    (h₃ : isFinite .b32 (fmul .b32 ⟨0, 0⟩ sr (litF .b32 2 1000)) = true)
    (h₄ : isFinite .b32 (fmul .b32 ⟨0, 0⟩ (twoF .b32) (fmul .b32 ⟨0, 0⟩ sr (litF .b32 2 1000))) = true) :
    capf = fadd .b32 ⟨0, 0⟩ (fmul .b32 ⟨0, 0⟩ sr (litF .b32 5 1000))
      (fmul .b32 ⟨0, 0⟩ (twoF .b32) (fmul .b32 ⟨0, 0⟩ sr (litF .b32 2 1000))) := by
  obtain ⟨d₁, d₂, d₃, d₄, rfl, rfl, rfl⟩ := h
  rw [fmul_draw h₁ (by decide +kernel) d₁ ⟨0, 0⟩, fmul_draw h₁ (by decide +kernel) d₂ ⟨0, 0⟩,
    fmul_draw (by decide +kernel) h₃ d₄ ⟨0, 0⟩, fadd_draw h₂ h₄ d₃ ⟨0, 0⟩]

/-- 44100 Hz needs 396 words: it fits, whatever the draws (UV-1). -/
theorem fits_44100 : FitsRam .b32 4096 0x472C4400 := by
  intro base range capf d h
  rw [derive_fixed h (by decide +kernel) (by decide +kernel) (by decide +kernel) (by decide +kernel),
    fadd_draw (by decide +kernel) (by decide +kernel) d ⟨0, 0⟩]
  decide +kernel

/-- 455300 Hz needs 4097 words: it does not (UV-1). -/
theorem exceeds_455300 : ExceedsRam .b32 4096 0x48DE5080 := by
  intro base range capf d h
  rw [derive_fixed h (by decide +kernel) (by decide +kernel) (by decide +kernel) (by decide +kernel),
    fadd_draw (by decide +kernel) (by decide +kernel) d ⟨0, 0⟩]
  decide +kernel

/-- What `after` says of an outcome that it accepts. -/
theorem exists_of_after {o : Host.Outcome State Fault Refusal} {p : State → Bool} (h : after o p = true) :
    ∃ t, o = .next t ∧ p t = true := by
  cases o with
  | next t => exact ⟨t, rfl, h⟩
  | fault f => cases f
  | refused r => exact absurd h (by simp [after])

/-- A state whose host does `e` next. -/
def asked (s : State) (e : Event) : State := { s with pending := [e] }

/-- `ready` with a fault latched. -/
def faulted : State := { ready with fault := true, fcode := 7, finfo := 5 }

/-! ### Encoding, the step, reset -/

theorem witness_DecodeOfEncodeIsTheCommand : (Instr.apSetFb 0).wellFormed = true ∧ (Instr.apNew 255).wellFormed = true := by
  decide
theorem witness_LegalWordIsTheEncodingOfItsCommand :
    decode 0x12FF0000 = .command (.apSetFb 255) ∧ decode 0 = .command .nop := by decide
theorem witness_StepRunsTheDecodedCommand :
    (∃ (s : State) (v : Word) (rest : List Event) (i : Instr), s.pending = .wr 0 v :: rest ∧ s.inReset = false ∧ s.fault = false ∧
      decode (v.setWidth 32) = .command i) ∧
    (∃ (i : Instr) (s : State), i.wellFormed = true ∧ s.inReset = false ∧ s.fault = false) :=
  ⟨⟨asked ready (.wr 0 0xFFFFFFFF53000000), 0xFFFFFFFF53000000, [], .uvProc, by decide⟩, .apNew 255, ready, by decide⟩
theorem witness_IllegalWordLatchesIllegalCmd : ∃ (s : State) (v : Word) (rest : List Event) (r : IllegalWord), s.pending = .wr 0 v :: rest ∧ s.inReset = false ∧
    s.fault = false ∧ decode (v.setWidth 32) = .illegal r :=
  ⟨asked ready (.wr 0 1), 1, [], .reservedBits, by decide⟩
theorem witness_CommandsAreDiscardedWhileFaulted : ∃ (s : State) (v : Word) (rest : List Event), s.pending = .wr 0 v :: rest ∧ s.inReset = false ∧
    s.fault = true :=
  ⟨asked faulted (.wr 0 0x53000000), 0x53000000, [], by decide⟩
/-- Every clause of the statement about the reset input: each edge in each state of it, each kind of transaction. -/
theorem witness_StepAnswersUnlessResetIsAsserted : ready.inReset = false ∧
    (∃ (s : State) (rest : List Event), s.inReset = false ∧ s.pending = .assertReset :: rest) ∧
    (∃ (s : State) (rest : List Event), s.inReset = true ∧ s.pending = .assertReset :: rest) ∧
    (∃ (s : State) (rest : List Event), s.inReset = false ∧ s.pending = .releaseReset :: rest) ∧
    (∃ s : State, s.inReset = true ∧ s.pending = []) ∧
    (∀ e : Event, ∃ (s : State) (rest : List Event), s.inReset = true ∧ s.pending = e :: rest) :=
  ⟨rfl, ⟨asked ready .assertReset, [], rfl, rfl⟩, ⟨{ asked ready .assertReset with inReset := true }, [], rfl, rfl⟩,
    ⟨asked ready .releaseReset, [], rfl, rfl⟩, ⟨{ ready with inReset := true }, rfl, rfl⟩, fun e => ⟨{ asked ready e with inReset := true }, [], rfl, rfl⟩⟩
theorem witness_ResetRegistersReadZero : locate (State.resetWith Config.default) 0x0011F = some (.lfoPhase 7) := by decide
theorem witness_BlockWaitsForTheHost : ready.pending = [] := rfl
theorem witness_ResetMeetsTheInvariant : Config.default.ok = true := by decide
theorem witness_EveryStepKeepsTheInvariant : ∃ (t : State), ready.Inv ∧ step ready = .next t := ⟨ready, ready_inv, rfl⟩

/-! ### The bus -/

theorem witness_AddressMapIsTheTable :
    locate ready 0x0011F = some (.lfoPhase 7) ∧ locate ready 0x00120 = none ∧ locate ready 0x0013F = none ∧
    locate ready 0x10003 = some (.apBuf 0 3) ∧ locate ready 0x10004 = none ∧ locate ready 0x1FFFF = none ∧
    locate ready 0x20002 = some (.firCoef 2) ∧ locate ready 0x20003 = none ∧ locate ready 0x20FFF = none ∧
    locate ready 0x21001 = some (.firHist 1) ∧ locate ready 0x21002 = none ∧ locate ready 0x21FFF = none ∧
    locate ready 0x00005 = none ∧ locate ready 0x00140 = none ∧ locate ready 0x0FFFF = none ∧
    locate ready 0x22000 = none := by decide
/-- Every clause of the statement about reads: a register, the registers and the last buffer word of a stage, the last words of the
FIR windows, an unmapped address with and without a fault latched. -/
theorem witness_ReadReturnsTheWordOrFaults :
    (∃ (s : State) (a : BusAddr) (rest : List Event), s.pending = .rd a :: rest ∧ s.inReset = false ∧
      a = BitVec.ofNat 20 0x00031 ∧ locate s a = some .firOrder) ∧
    (∃ (s : State) (a : BusAddr) (rest : List Event), s.pending = .rd a :: rest ∧ s.inReset = false ∧
      7 < s.cfg.maxStages ∧ a = BitVec.ofNat 20 (0x00103 + 4 * 7)) ∧
    (∃ (s : State) (a : BusAddr) (rest : List Event), s.pending = .rd a :: rest ∧ s.inReset = false ∧
      0 < s.cfg.maxStages ∧ 3 < (s.stage 0).len.toNat ∧ a = BitVec.ofNat 20 (0x10000 + 0x1000 * 0 + 3)) ∧
    (∃ (s : State) (a : BusAddr) (rest : List Event), s.pending = .rd a :: rest ∧ s.inReset = false ∧
      s.firOk = true ∧ 2 ≤ s.firOrder.toNat ∧ a = BitVec.ofNat 20 (0x20000 + 2)) ∧
    (∃ (s : State) (a : BusAddr) (rest : List Event), s.pending = .rd a :: rest ∧ s.inReset = false ∧
      s.firOk = true ∧ 1 < s.firOrder.toNat ∧ a = BitVec.ofNat 20 (0x21000 + 1)) ∧
    (∃ (s : State) (a : BusAddr) (rest : List Event), s.pending = .rd a :: rest ∧ s.inReset = false ∧ locate s a = none ∧ s.fault = false) ∧
    (∃ (s : State) (a : BusAddr) (rest : List Event), s.pending = .rd a :: rest ∧ s.inReset = false ∧ locate s a = none ∧ s.fault = true) :=
  ⟨⟨asked ready (.rd 0x00031), 0x00031, [], by decide⟩, ⟨asked ready (.rd 0x0011F), 0x0011F, [], by decide⟩,
    ⟨asked ready (.rd 0x10003), 0x10003, [], by decide⟩, ⟨asked ready (.rd 0x20002), 0x20002, [], by decide⟩,
    ⟨asked ready (.rd 0x21001), 0x21001, [], by decide⟩, ⟨asked ready (.rd 0x10004), 0x10004, [], by decide⟩,
    ⟨asked faulted (.rd 0x10004), 0x10004, [], by decide⟩⟩
theorem witness_RefusedWriteChangesNothingAndFaults :
    (∃ (s : State) (a : BusAddr) (v : Word) (rest : List Event), s.pending = .wr a v :: rest ∧ s.inReset = false ∧ locate s a = none ∧ s.fault = false) ∧
    (∃ (s : State) (a : BusAddr) (v : Word) (rest : List Event) (l : Loc), s.pending = .wr a v :: rest ∧ s.inReset = false ∧ locate s a = some l ∧ readOnlyLoc l = true ∧
      s.fault = true) ∧
    (∃ (s : State) (a : BusAddr) (v : Word) (rest : List Event) (k : Nat), s.pending = .wr a v :: rest ∧ s.inReset = false ∧ locate s a = some (.apIdx k) ∧
      (s.stage k).len.toNat ≤ (v.setWidth 32).toNat ∧ s.fault = false) :=
  ⟨⟨asked ready (.wr 0x22000 1), 0x22000, 1, [], by decide⟩, ⟨asked faulted (.wr 0x2 1), 0x2, 1, [], .fcode, by decide⟩,
    ⟨asked ready (.wr 0x101 4), 0x101, 4, [], 0, by decide⟩⟩
theorem witness_AcceptedWriteIsReadBack :
    (∃ (s : State) (a : BusAddr) (v : Word) (rest : List Event) (l : Loc), s.Inv ∧ s.pending = .wr a v :: rest ∧ s.inReset = false ∧ locate s a = some l ∧ wideLoc l = true) ∧
    (∃ (s : State) (a : BusAddr) (v : Word) (rest : List Event) (l : Loc) (F : Fmt), s.Inv ∧ s.pending = .wr a v :: rest ∧ s.inReset = false ∧ locate s a = some l ∧
      floatLoc s.cfg l = some F) ∧
    (∃ (s : State) (a : BusAddr) (v : Word) (rest : List Event) (k : Nat), s.Inv ∧ s.pending = .wr a v :: rest ∧ s.inReset = false ∧ locate s a = some (.apIdx k) ∧
      (v.setWidth 32).toNat < (s.stage k).len.toNat) :=
  ⟨⟨asked ready (.wr 0x0000C 5), 0x0000C, 5, [], .arg4, { ready_inv with }, by decide⟩,
    ⟨asked ready (.wr 0x20002 5), 0x20002, 5, [], .firCoef 2, .b32, { ready_inv with }, by decide⟩,
    ⟨asked ready (.wr 0x101 3), 0x101, 3, [], 0, { ready_inv with }, by decide⟩⟩
theorem witness_AcceptedWriteChangesNoOtherWord : ∃ (s t : State) (a : BusAddr) (v : Word) (rest : List Event) (l : Loc), s.Inv ∧
    s.pending = .wr a v :: rest ∧ s.inReset = false ∧ locate s a = some l ∧ l ≠ .cmd ∧ l ≠ .status ∧ readOnlyLoc l = false ∧
    (∀ k, l = .apIdx k → (v.setWidth 32).toNat < (s.stage k).len.toNat) ∧ step s = .next t ∧
    (∃ b m, locate s b = some m ∧ m ≠ l) ∧ ∃ b, locate s b = none := by
  obtain ⟨t, h, -⟩ := exists_of_after (o := step (asked ready (.wr 0x10003 5))) (p := fun _ => true) (by decide +kernel)
  exact ⟨asked ready (.wr 0x10003 5), t, 0x10003, 5, [], .apBuf 0 3, { ready_inv with }, rfl, rfl, by decide, by decide, by decide, rfl,
    fun k h => by simp at h, h, ⟨0x10002, .apBuf 0 2, by decide⟩, 0x10004, by decide⟩
theorem witness_StatusWordHoldsTheFlags : statusWord ready = 0x70 ∧ statusWord { faulted with firWarn := true } = 0x73 := by
  decide
theorem witness_StatusWriteClearsByOnes : ∃ (s : State) (v : Word) (rest : List Event), s.pending = .wr 0x00001 v :: rest ∧ s.inReset = false :=
  ⟨asked faulted (.wr 1 3), 3, [], by decide⟩
theorem witness_ByteAccessIsOneAlignedWord :
    (∃ (s : State) (a : BusAddr) (b : ByteAddr) (rest : List Event), s.pending = .rdBytes b 8 :: rest ∧ s.inReset = false ∧ b.toNat = 8 * a.toNat ∧ a = (0xFFFFF : BusAddr)) ∧
    (∃ (s : State) (a : BusAddr) (b : ByteAddr) (v : Word) (d : List Byte) (rest : List Event), s.pending = .wrBytes b d :: rest ∧ s.inReset = false ∧ b.toNat = 8 * a.toNat ∧ d.length = 8 ∧
      (∀ j, j < 8 → d[j]? = some (v.extractLsb' (8 * j) 8)) ∧ a = (0x8 : BusAddr)) ∧
    (∀ latched : Bool, ∃ (s : State) (a : BusAddr) (b : ByteAddr) (n : Nat) (rest : List Event), s.pending = .rdBytes b n :: rest ∧
      s.inReset = false ∧ a.toNat = b.toNat / 8 ∧ (n ≠ 8 ∨ b.toNat % 8 ≠ 0) ∧ s.fault = latched) ∧
    (∀ latched : Bool, ∃ (s : State) (a : BusAddr) (b : ByteAddr) (d : List Byte) (rest : List Event), s.pending = .wrBytes b d :: rest ∧
      s.inReset = false ∧ a.toNat = b.toNat / 8 ∧ (d.length ≠ 8 ∨ b.toNat % 8 ≠ 0) ∧ s.fault = latched) :=
  ⟨⟨asked ready (.rdBytes 0x7FFFF8 8), 0xFFFFF, 0x7FFFF8, [], by decide⟩,
    ⟨asked ready (.wrBytes 0x40 [1, 2, 3, 4, 5, 6, 7, 8]), 0x8, 0x40, 0x0807060504030201, [1, 2, 3, 4, 5, 6, 7, 8], [],
      by decide⟩,
    fun l => ⟨asked { ready with fault := l } (.rdBytes 0x47 8), 0x8, 0x47, 8, [], rfl, rfl, by decide, by decide, rfl⟩,
    fun l => ⟨asked { ready with fault := l } (.wrBytes 0x40 [1]), 0x8, 0x40, [1], [], rfl, rfl, by decide, by decide, rfl⟩⟩

/-! ### Faults -/

theorem witness_RaiseRecordsOnlyTheFirstFault : ready.fault = false ∧ faulted.fault = true := ⟨rfl, rfl⟩
theorem witness_CommandFaultsArePrecise : ∃ (i : Instr) (s t : State), s.fault = false ∧ exec i s = .next t ∧
    t.fault = true := by
  obtain ⟨t, h, h'⟩ := exists_of_after (o := exec .uvProc { ready with arg4 := 2 }) (p := State.fault) (by decide +kernel)
  exact ⟨.uvProc, _, t, rfl, h, h'⟩
theorem witness_UnconstructedUnitsFault : (State.reset.fault = false ∧ State.reset.iirOk = false ∧
      State.reset.firOk = false ∧ State.reset.uvOk = false) ∧
    ∃ (i : Instr) (s t : State), s.fault = false ∧ exec i s = .next t ∧ t.fault = true ∧ t.fcode = 0x02 := by
  obtain ⟨t, h, h'⟩ := exists_of_after (o := exec .firProc State.reset) (p := fun t => t.fault && t.fcode == 2)
    (by decide +kernel)
  simp only [Bool.and_eq_true, beq_iff_eq] at h'
  exact ⟨by decide, .firProc, _, t, rfl, h, h'⟩
theorem witness_StageRangeFaults : (ready.fault = false ∧ ready.cfg.maxStages ≤ 8) ∧
    ∃ s : State, s.fault = false ∧ s.uvOk = true ∧ s.uvNst.toNat < (s.arg4.setWidth 32).toNat :=
  ⟨by decide, { ready with arg4 := 2 }, by decide⟩
theorem witness_UniVibeOperandChecksInOrder :
    (∃ s : State, s.fault = false ∧ s.uvOk = true ∧ positiveFinite s.cfg.fmtUv (truncF s.cfg.fmtUv s.arg0) = false) ∧
    (∃ s : State, s.fault = false ∧ positiveFinite s.cfg.fmtUv (truncF s.cfg.fmtUv s.arg0) = true ∧
      s.arg1.setWidth 32 = 0) ∧
    (∃ s : State, s.fault = false ∧ positiveFinite s.cfg.fmtUv (truncF s.cfg.fmtUv s.arg0) = true ∧
      s.arg1.setWidth 32 ≠ 0 ∧ s.cfg.maxStages < (s.arg1.setWidth 32).toNat) ∧
    (∃ s : State, s.fault = false ∧ s.uvOk = true ∧ positiveFinite s.cfg.fmtUv (truncF s.cfg.fmtUv s.arg0) = true ∧
      s.arg1.setWidth 32 ≠ 0 ∧ (s.arg1.setWidth 32).toNat ≤ s.cfg.maxStages ∧
      ExceedsRam s.cfg.fmtUv s.cfg.apMaxCap (truncF s.cfg.fmtUv s.arg0)) :=
  ⟨⟨{ ready with arg0 := 0x7F800000 }, by decide⟩, ⟨{ ready with arg1 := 0xFFFFFFFF00000000 }, by decide⟩,
    ⟨{ ready with arg1 := 9 }, by decide⟩,
    ⟨{ ready with arg0 := 0x48DE5080, arg1 := 8 }, rfl, rfl, by decide, by decide, by decide, exceeds_455300⟩⟩
theorem witness_OversizedRequestsFault : (withArgs 4097 0 257 0 0).fault = false ∧
    7 < (withArgs 4097 0 257 0 0).cfg.maxStages ∧
    (withArgs 4097 0 257 0 0).cfg.apMaxCap < ((withArgs 4097 0 257 0 0).arg0.setWidth 32).toNat ∧
    (withArgs 4097 0 257 0 0).cfg.firMaxOrder < ((withArgs 4097 0 257 0 0).arg2.setWidth 32).toNat := by decide
theorem witness_ShortStageFaults : ∃ (s : State) (k : Nat), s.fault = false ∧ s.uvOk = true ∧
    (s.arg4.setWidth 32).toNat ≤ s.uvNst.toNat ∧ k < (s.arg4.setWidth 32).toNat ∧ (s.stage k).len.toNat < 2 :=
  ⟨ready.setStage 0 { shortRing with len := 1, idx := 0 }, 0, by decide⟩

/-! ### What no command does -/

theorem witness_CommandsKeepArgumentsAndReturnOnlyValues : ∃ (t : State), exec .uvReset ready = .next t ∧ returnsValue .uvReset = false := by
  obtain ⟨t, h, -⟩ := exists_of_after (o := exec .uvReset ready) (p := fun _ => true) (by decide +kernel)
  exact ⟨t, h, rfl⟩
theorem witness_FlagsAreSetAndClearedAsListed : (∃ (t : State), exec .firSetCut ready = .next t ∧ t.firWarn ≠ ready.firWarn) ∧
    (∃ (t : State), exec .iirNew State.reset = .next t ∧ t.iirOk ≠ State.reset.iirOk) := by
  constructor
  · obtain ⟨t, h, h'⟩ := exists_of_after (o := exec .firSetCut ready) (p := State.firWarn) (by decide +kernel)
    exact ⟨t, h, by rw [h']; decide⟩
  · obtain ⟨t, h, h'⟩ := exists_of_after (o := exec .iirNew State.reset) (p := State.iirOk) (by decide +kernel)
    exact ⟨t, h, by rw [h']; decide⟩
theorem witness_CommandsWriteOnlyTheirUnit : ∃ (t : State), ready.Inv ∧ exec .uvReset ready = .next t ∧ ofIir .uvReset = false ∧
    ofFir .uvReset = false := by
  obtain ⟨t, h, -⟩ := witness_CommandsKeepArgumentsAndReturnOnlyValues
  exact ⟨t, ready_inv, h, rfl, rfl⟩
theorem witness_CommandsReadNoRegisterOfAnotherUnit :
    (∃ (t : State), exec .uvReset ready = .next t ∧ ofIir .uvReset = false ∧ ofFir .uvReset = false) ∧
    ∃ (t : State), exec .iirProc ready = .next t ∧ ofUniVibe .iirProc = false := by
  obtain ⟨t, h, -⟩ := witness_CommandsKeepArgumentsAndReturnOnlyValues
  obtain ⟨u, h', -⟩ := exists_of_after (o := exec .iirProc ready) (p := fun _ => true) (by decide +kernel)
  exact ⟨⟨t, h, rfl, rfl⟩, u, h', rfl⟩

/-! ### The commands -/

theorem witness_ApNewCreatesTheFilter : (withArgs 4096 0 0 0 0).cfg.ok = true ∧ 7 < (withArgs 4096 0 0 0 0).cfg.maxStages ∧
    ((withArgs 4096 0 0 0 0).arg0.setWidth 32).toNat ≤ (withArgs 4096 0 0 0 0).cfg.apMaxCap := by decide
theorem witness_ApResetClearsTheBuffer : ready.cfg.ok = true ∧ 0 < ready.cfg.maxStages ∧ (ready.stage 0).len = 4 := by decide
theorem witness_ApSetFbStoresTheOperand : ready.cfg.ok = true ∧ 7 < ready.cfg.maxStages := by decide
theorem witness_IirSetCutRecomputesAndZeroes : ready.iirOk = true := rfl
theorem witness_IirProcFiltersOneSample : ready.iirOk = true := rfl
theorem witness_IirNanPersists : ∃ s : State, s.iirOk = true ∧ isNan s.cfg.fmtIir s.iirY1 = true :=
  ⟨{ ready with iirY1 := 0x7FC00000 }, by decide⟩
theorem witness_FirNewDesignsTheFilter : ready.cfg.ok = true ∧ Memory.wf ready.mem = true ∧
    (ready.arg2.setWidth 32).toNat ≤ ready.cfg.firMaxOrder := by decide
theorem witness_FirSetCutRedesignsAndKeepsHistory : ready.Inv ∧ ready.firOk = true := ⟨ready_inv, rfl⟩
/-- Every clause of the statement about `FIR.PROC`: an order of 2 and of 0, and each mode. -/
theorem witness_FirProcPushesAndConvolves :
    (∃ s : State, s.Inv ∧ s.firOk = true ∧ 1 < s.firOrder.toNat ∧ s.cfg.firLastTap = .dropped) ∧
    (∃ s : State, s.Inv ∧ s.firOk = true ∧ s.firOrder.toNat = 0 ∧ s.cfg.firLastTap = .used) :=
  ⟨⟨ready, ready_inv, by decide⟩,
    ⟨{ ready with firOrder := 0, cfg := { Config.default with firLastTap := .used } },
      { ready_inv with orderFits := by decide }, by decide⟩⟩
theorem witness_WsGreenShapesTheSample : (∃ s : State, isFinite s.cfg.fmtGreen (truncF s.cfg.fmtGreen s.arg0) = true) ∧
    ∃ s : State, fabs s.cfg.fmtGreen s.arg0 = zeroF s.cfg.fmtGreen false :=
  ⟨⟨ready, by decide⟩, ⟨withArgs 0x80000000 0 0 0 0, by decide⟩⟩
theorem witness_WsRedShapesTheSample : isFinite ready.cfg.fmtRed (truncF ready.cfg.fmtRed ready.arg0) = true := by decide
theorem witness_WsSigmoidShapesTheSample : isFinite ready.cfg.fmtSigmoid (truncF ready.cfg.fmtSigmoid ready.arg0) = true := by
  decide
theorem witness_WsHardClampsTheSample : ∃ s : State, isNan s.cfg.fmtHard (truncF s.cfg.fmtHard s.arg0) = false ∧
    isNan s.cfg.fmtHard (truncF s.cfg.fmtHard s.arg1) = false ∧
    ltF s.cfg.fmtHard (truncF s.cfg.fmtHard s.arg1) (zeroF s.cfg.fmtHard false) = false :=
  ⟨withArgs 0xFF800000 0x3F800000 0 0 0, by decide⟩
theorem witness_UvNewBuildsTheStages : ready.Inv ∧ (ready.arg1.setWidth 32).toNat = 1 ∧ 1 ≤ ready.cfg.maxStages ∧
    positiveFinite ready.cfg.fmtUv (truncF ready.cfg.fmtUv ready.arg0) = true ∧
    FitsRam ready.cfg.fmtUv ready.cfg.apMaxCap (truncF ready.cfg.fmtUv ready.arg0) :=
  ⟨ready_inv, by decide, by decide, by decide, fits_44100⟩
theorem witness_UvSetSrResizesTheStages : ready.Inv ∧ ready.uvOk = true ∧
    positiveFinite ready.cfg.fmtUv (truncF ready.cfg.fmtUv ready.arg0) = true ∧
    FitsRam ready.cfg.fmtUv ready.cfg.apMaxCap (truncF ready.cfg.fmtUv ready.arg0) :=
  ⟨ready_inv, rfl, by decide, fits_44100⟩
theorem witness_UvResetClearsTheStages : ready.Inv ∧ ready.uvOk = true := ⟨ready_inv, rfl⟩
theorem witness_UvProcRunsTheStageChain : twins.Inv ∧ twins.uvOk = true ∧ (twins.arg4.setWidth 32).toNat = 2 ∧
    2 ≤ twins.uvNst.toNat ∧ (∀ k, k < 2 → 2 ≤ (twins.stage k).len.toNat) ∧ (twins.stage 0).lfo = (twins.stage 1).lfo :=
  ⟨twins_inv, by decide⟩
theorem witness_UvProcOfNoStagesIsTheIdentity : ∃ s : State, s.uvOk = true ∧ s.arg4.setWidth 32 = 0 :=
  ⟨{ ready with arg4 := 0 }, by decide⟩

/-! ### The numeric model -/

theorem witness_NanOperandsGiveNans : isNan .b32 0x7FC00000 = true ∧ isNan .b64 0xFFF8000000000001 = true := by decide
theorem means_one : Means .b32 0x3F800000 1 := ⟨false, 2 ^ 23, -23, by decide, by norm_num [ratOf]⟩
theorem means_three : Means .b32 0x40400000 3 := ⟨false, 3 * 2 ^ 22, -22, by decide, by norm_num [ratOf]⟩
theorem means_max : Means .b32 0x7F7FFFFF (largestFinite .b32) := ⟨false, 2 ^ 24 - 1, 104, by decide, by
  norm_num [ratOf, largestFinite, mantBits, minExp, maxExpField, expBits]⟩
theorem means_zero : Means .b32 0x80000000 0 := ⟨true, 0, -149, by decide, by norm_num [ratOf]⟩
/-- Operands whose exact results are below the overflow bound, at or above it, and zero. -/
theorem witness_SumsAndProductsAreCorrectlyRounded : Means .b32 0x3F800000 1 ∧ Means .b32 0x40400000 3 ∧
    |(1 : ℝ) + 3| < (overflowBound .b32 : ℝ) ∧ Means .b32 0x7F7FFFFF (largestFinite .b32) ∧
    (overflowBound .b32 : ℝ) ≤ |(largestFinite .b32 : ℝ) + largestFinite .b32| ∧ Means .b32 0x80000000 0 ∧ (0 : ℚ) + 0 = 0 := by
  refine ⟨means_one, means_three, ?_, means_max, ?_, means_zero, by norm_num⟩ <;>
    norm_num [overflowBound, largestFinite, mantBits, minExp, maxExpField, expBits]
/-- A divisor that is not zero, with a quotient below the overflow bound and one at or above it, and a divisor that is zero. -/
theorem witness_QuotientsAreCorrectlyRounded : Means .b32 0x3F800000 1 ∧ Means .b32 0x40400000 3 ∧ (3 : ℚ) ≠ 0 ∧
    |(1 : ℝ) / 3| < (overflowBound .b32 : ℝ) ∧ Means .b32 0x7F7FFFFF (largestFinite .b32) ∧ Means .b32 0x3F000000 (1 / 2) ∧
    (overflowBound .b32 : ℝ) ≤ |(largestFinite .b32 : ℝ) / ((1 / 2 : ℚ) : ℝ)| ∧ Means .b32 0x80000000 0 := by
  refine ⟨means_one, means_three, by norm_num, ?_, means_max, ⟨false, 2 ^ 23, -24, by decide, by norm_num [ratOf]⟩, ?_,
    means_zero⟩ <;> norm_num [overflowBound, largestFinite, mantBits, minExp, maxExpField, expBits]
theorem witness_ElementaryFunctionsHaveTheNamedProperties : isFinite .b32 (oneF .b32) = true := by decide +kernel
theorem witness_DelayStaysInsideTheBuffer : 2 ≤ 2 ∧ 2 ≤ 4096 ∧ isNan .b32 0x7FC00000 = true := by decide
theorem witness_TapsAreInsideTheBuffer : (0 < 2 ∧ 1 ≤ 1 ∧ 1 ≤ 2 - 1) ∧ (3 < 4 ∧ 1 ≤ 2 ∧ 2 ≤ 4 - 1) := by decide
theorem witness_LfoPhaseStaysInTheUnitInterval : ∃ (p : Word), leF .b32 (zeroF .b32 false) (fdiv .b32 ⟨0, 0⟩ 0x3F4CCCCD 0x472C4400) = true ∧
    ltF .b32 (fdiv .b32 ⟨0, 0⟩ 0x3F4CCCCD 0x472C4400) (oneF .b32) = true ∧ leF .b32 (zeroF .b32 false) 0x3F7FFFFF = true ∧
    ltF .b32 0x3F7FFFFF (oneF .b32) = true ∧ LfoStep .b32 0x3F7FFFFF 0x3F4CCCCD 0x472C4400 p :=
  ⟨_, by decide +kernel, by decide +kernel, by decide +kernel, by decide +kernel, ⟨0, 0⟩, ⟨0, 0⟩, ⟨0, 0⟩, rfl⟩
/-- A positive, a zero and a negative operand. -/
theorem witness_RootsAreCorrectlyRounded : (Means .b32 0x40400000 3 ∧ (0 : ℚ) < 3) ∧ Means .b32 0x80000000 0 ∧
    (Means .b32 0xBF800000 (-1) ∧ (-1 : ℚ) < 0) :=
  ⟨⟨means_three, by norm_num⟩, means_zero, ⟨true, 2 ^ 23, -23, by decide, by norm_num [ratOf]⟩, by norm_num⟩
theorem witness_ConstantsAndConversionsMeanTheirNumbers : 0 < 1000 ∧ 4096 ≤ 4096 ∧ (Means .b32 0x80000000 0 ∧ (0 : ℚ) ≤ 0) ∧
    (Means .b32 0x3F800000 1 ∧ Means .b32 0x40400000 3) :=
  ⟨by norm_num, le_refl _, ⟨means_zero, le_refl _⟩, means_one, means_three⟩

end Sys2Proof.Tests
end

/-! The scope rules (00_scope.md R11 to R13, R16): what the primitives, the constants, the conversions and the elementary
functions answer, in terms of the numbers that values mean. -/

namespace Sys2Proof.Machine

/-! ## The sign of a value, and negation and absolute value -/

/-- A meaning with its sign replaced; a NaN stays a NaN. -/
def FVal.withSign (neg : Bool) : FVal → FVal
  | .nan => .nan
  | .inf _ => .inf neg
  | .fin _ m e => .fin neg m e

/-- The sign bit alone tells the two values of one magnitude apart. -/
theorem unpack_packSign_withSign {F : Fmt} {mag : ℕ} (h : mag < magLimit F) (neg neg' : Bool) :
    unpack F (packSign F neg mag) = (unpack F (packSign F neg' mag)).withSign neg := by
  rw [unpack_packSign h, unpack_packSign h]
  by_cases hmax : mag / 2 ^ mantBits F = maxExpField F
  · simp only [if_pos hmax]
    by_cases hfrac : mag % 2 ^ mantBits F = 0
    · simp only [if_pos hfrac, FVal.withSign]
    · simp only [if_neg hfrac, FVal.withSign]
  · simp only [if_neg hmax]
    by_cases hsub : mag / 2 ^ mantBits F = 0
    · simp only [if_pos hsub, FVal.withSign]
    · simp only [if_neg hsub, FVal.withSign]

/-- The bits of a value: those of its magnitude, and the sign bit. -/
theorem getLsbD_packSign {F : Fmt} {mag : ℕ} (h : mag < magLimit F) (neg : Bool) (j : ℕ) :
    (packSign F neg mag).getLsbD j = (mag.testBit j || (neg && decide (j = mantBits F + expBits F))) := by
  rw [BitVec.getLsbD, packSign_toNat h]
  cases neg with
  | false => simp
  | true =>
    rw [if_pos rfl, Nat.add_comm, magLimit, ← xor_two_pow_of_lt h, Nat.testBit_xor, Nat.testBit_two_pow]
    by_cases hj : mantBits F + expBits F = j
    · subst hj; simp [Nat.testBit_lt_two_pow h]
    · simp [hj, Ne.symm hj]

theorem magLimit_pos (F : Fmt) : 0 < magLimit F := Nat.two_pow_pos _

/-- The absolute value clears the sign and keeps the magnitude. -/
theorem fabs_eq_packSign {F : Fmt} {a : Word} {neg : Bool} {mag : ℕ} (hm : mag < magLimit F)
    (h : truncF F a = packSign F neg mag) : fabs F a = packSign F false mag := by
  apply BitVec.eq_of_getLsbD_eq
  intro j hj
  rw [fabs, h, BitVec.getLsbD_and, BitVec.getLsbD_not, getLsbD_packSign hm, getLsbD_packSign (magLimit_pos F),
    getLsbD_packSign hm]
  by_cases e : j = mantBits F + expBits F
  · subst e; simp [Nat.testBit_lt_two_pow hm]
  · simp [e, hj]

theorem unpack_fabs (F : Fmt) (a : Word) : unpack F (fabs F a) = (unpack F a).withSign false := by
  obtain ⟨neg, mag, hm, ht⟩ := truncF_eq_packSign F a
  rw [fabs_eq_packSign hm ht, unpack_packSign_withSign hm false neg, ← ht, unpack_truncF]

theorem isNan_fneg (F : Fmt) (a : Word) : isNan F (fneg F a) = isNan F a := by
  obtain ⟨neg, mag, hm, ht⟩ := truncF_eq_packSign F a
  have hu : unpack F (fneg F a) = (unpack F a).withSign (!neg) := by
    rw [fneg_eq_packSign hm ht, unpack_packSign_withSign hm (!neg) neg, ← ht, unpack_truncF]
  unfold isNan
  rw [hu]
  cases unpack F a <;> rfl

/-! ## NaN operands (R11) -/

section
variable {F : Fmt} {a b : Word}

theorem isNan_fadd_of_nan (d : Draw) (h : isNan F a = true ∨ isNan F b = true) : isNan F (fadd F d a b) = true := by
  rcases h with h | h <;> rw [isNan_iff] at h
  · simp [fadd, h]
  · cases ha : unpack F a <;> simp [fadd, h, ha]

theorem isNan_fmul_of_nan (d : Draw) (h : isNan F a = true ∨ isNan F b = true) : isNan F (fmul F d a b) = true := by
  rcases h with h | h <;> rw [isNan_iff] at h
  · simp [fmul, h]
  · cases ha : unpack F a <;> simp [fmul, h, ha]

theorem isNan_fdiv_of_nan (d : Draw) (h : isNan F a = true ∨ isNan F b = true) : isNan F (fdiv F d a b) = true := by
  rcases h with h | h <;> rw [isNan_iff] at h
  · simp [fdiv, h]
  · cases ha : unpack F a <;> simp [fdiv, h, ha]

theorem isNan_fsqrt_of_nan (d : Draw) (h : isNan F a = true) : isNan F (fsqrt F d a) = true := by
  simp [fsqrt, isNan_iff.1 h]

theorem ltF_of_nan (h : isNan F a = true ∨ isNan F b = true) : ltF F a b = false := by
  rcases h with h | h <;> rw [isNan_iff] at h
  · simp [ltF, h]
  · cases ha : unpack F a <;> simp [ltF, h, ha]

theorem leF_of_nan (h : isNan F a = true ∨ isNan F b = true) : leF F a b = false := by
  rcases h with h | h <;> simp [leF, h]

end

/-- Settles O52: each primitive and each comparison by which of its operands is the NaN. -/
theorem nanOperandsGiveNans : Obligations.NanOperandsGiveNans := by
  intro F d a b h
  refine ⟨isNan_fadd_of_nan d h, isNan_fadd_of_nan d ?_, isNan_fmul_of_nan d h, isNan_fdiv_of_nan d h,
    isNan_fsqrt_of_nan d, ltF_of_nan h, leF_of_nan h, ltF_of_nan h.symm, leF_of_nan h.symm⟩
  rwa [isNan_fneg]

/-! ## The number a finite value means -/

theorem ratOf_not (s : Bool) (m : ℕ) (e : ℤ) : ratOf (!s) m e = -ratOf s m e := by
  cases s <;> simp [ratOf]

theorem ratOf_eq_zero_iff {s : Bool} {m : ℕ} {e : ℤ} : ratOf s m e = 0 ↔ m = 0 := by
  have hpow : (2 : ℚ) ^ e ≠ 0 := by positivity
  cases s <;> simp [ratOf, hpow]

theorem ratOf_pos_iff {s : Bool} {m : ℕ} {e : ℤ} : 0 < ratOf s m e ↔ s = false ∧ m ≠ 0 := by
  have hpow : (0 : ℚ) < 2 ^ e := by positivity
  rw [ratOf, mul_pos_iff_of_pos_right hpow]
  cases s <;> simp [Nat.pos_iff_ne_zero]

theorem ratOf_neg_iff {s : Bool} {m : ℕ} {e : ℤ} : ratOf s m e < 0 ↔ s = true ∧ m ≠ 0 := by
  rw [← neg_pos, ← ratOf_not, ratOf_pos_iff, Bool.not_eq_false']

theorem abs_ratOf (s : Bool) (m : ℕ) (e : ℤ) : |ratOf s m e| = m * 2 ^ e := by
  rw [ratOf, abs_mul, abs_of_pos (show (0 : ℚ) < 2 ^ e by positivity)]
  cases s <;> simp

theorem ratOf_mul (s t : Bool) (m n : ℕ) (e f : ℤ) : ratOf s m e * ratOf t n f = ratOf (s != t) (m * n) (e + f) := by
  simp only [ratOf, zpow_add₀ (two_ne_zero' ℚ)]
  cases s <;> cases t <;> simp <;> ring

/-- The quotient of two meanings, as a sign and a quotient of magnitudes. -/
theorem ratOf_div (s t : Bool) (m n : ℕ) (e f : ℤ) :
    (ratOf s m e : ℝ) / (ratOf t n f : ℝ) = (if s != t then -1 else 1) * (m * 2 ^ e / (n * 2 ^ f)) := by
  simp only [ratOf]
  cases s <;> cases t <;> simp [neg_div, div_neg]

/-- Two finite values are compared and added as multiples of a common power of two. -/
theorem ratOf_eq_alignedInt {s : Bool} {m : ℕ} {e g : ℤ} (h : g ≤ e) : ratOf s m e = alignedInt s m e g * 2 ^ g := by
  obtain ⟨k, rfl⟩ : ∃ k : ℕ, e = g + k := ⟨(e - g).toNat, by omega⟩
  rw [ratOf, alignedInt, zpow_add₀ (two_ne_zero' ℚ), zpow_natCast, show (g + k - g).toNat = k by omega]
  cases s <;> simp <;> ring

theorem ratOf_natAbs (x g : ℤ) : ratOf (decide (x < 0)) x.natAbs g = x * 2 ^ g := by
  rw [ratOf]
  rcases lt_or_ge x 0 with h | h
  · rw [if_pos (decide_eq_true h), Nat.cast_natAbs, abs_of_neg h]; push_cast; ring
  · rw [if_neg (by simpa using h), Nat.cast_natAbs, abs_of_nonneg h]

theorem Means.fneg {F : Fmt} {a : Word} {q : ℚ} (h : Means F a q) :
    Means F (fneg F a) (-q) ∧ signBit F (Machine.fneg F a) = !signBit F a := by
  obtain ⟨s, m, e, hu, rfl⟩ := h
  exact ⟨⟨!s, m, e, unpack_fneg_fin hu, ratOf_not s m e⟩, by
    rw [signBit_of_unpack hu, signBit_of_unpack (unpack_fneg_fin hu)]⟩

/-! ## Sums, differences and products (R11) -/

/-- The sum of two finite values is their exact sum rounded. -/
theorem addFin_correctlyRounded (F : Fmt) (s : Bool) (m : ℕ) (e : ℤ) (t : Bool) (n : ℕ) (f : ℤ) :
    CorrectlyRounded F (addFin F s m e t n f) ((ratOf s m e : ℝ) + (ratOf t n f : ℝ)) ∧
      (ratOf s m e + ratOf t n f = 0 → signBit F (addFin F s m e t n f) = (s && t)) := by
  obtain ⟨g, hg⟩ : ∃ g, min e f = g := ⟨_, rfl⟩
  have hsum : ratOf s m e + ratOf t n f = (alignedInt s m e g + alignedInt t n f g : ℤ) * 2 ^ g := by
    rw [ratOf_eq_alignedInt (hg ▸ min_le_left e f), ratOf_eq_alignedInt (hg ▸ min_le_right e f)]
    push_cast; ring
  have hpow : (2 : ℚ) ^ g ≠ 0 := by positivity
  rw [← Rat.cast_add, hsum]
  simp only [addFin, hg]
  generalize alignedInt s m e g + alignedInt t n f g = x
  by_cases hx : x = 0
  · subst hx
    simpa using correctlyRounded_zero F (s && t)
  · rw [if_neg hx, ← ratOf_natAbs]
    refine ⟨roundFin_correctlyRounded F _ _ g, fun h => absurd ?_ hx⟩
    rwa [ratOf_eq_zero_iff, Int.natAbs_eq_zero] at h

theorem fadd_correctlyRounded {F : Fmt} (d : Draw) {a b : Word} {p q : ℚ} (ha : Means F a p) (hb : Means F b q) :
    CorrectlyRounded F (fadd F d a b) ((p : ℝ) + q) ∧
      (p + q = 0 → signBit F (fadd F d a b) = (signBit F a && signBit F b)) := by
  obtain ⟨s, m, e, hua, rfl⟩ := ha
  obtain ⟨t, n, f, hub, rfl⟩ := hb
  simp only [fadd, hua, hub, signBit_of_unpack hua, signBit_of_unpack hub]
  exact addFin_correctlyRounded F s m e t n f

theorem fsub_correctlyRounded {F : Fmt} (d : Draw) {a b : Word} {p q : ℚ} (ha : Means F a p) (hb : Means F b q) :
    CorrectlyRounded F (fsub F d a b) ((p : ℝ) - q) ∧
      (p - q = 0 → signBit F (fsub F d a b) = (signBit F a && !signBit F b)) := by
  obtain ⟨hneg, hsign⟩ := hb.fneg
  have h := fadd_correctlyRounded d ha hneg
  rwa [hsign, Rat.cast_neg, ← sub_eq_add_neg, ← sub_eq_add_neg] at h

theorem fmul_correctlyRounded {F : Fmt} (d : Draw) {a b : Word} {p q : ℚ} (ha : Means F a p) (hb : Means F b q) :
    CorrectlyRounded F (fmul F d a b) ((p : ℝ) * q) ∧
      signBit F (fmul F d a b) = (signBit F a != signBit F b) := by
  obtain ⟨s, m, e, hua, rfl⟩ := ha
  obtain ⟨t, n, f, hub, rfl⟩ := hb
  rw [← Rat.cast_mul, ratOf_mul, signBit_of_unpack hua, signBit_of_unpack hub]
  simp only [fmul, hua, hub]
  exact ⟨roundFin_correctlyRounded F _ _ _, signBit_roundFin F _ _ _⟩

/-- Settles O53: each operation computes its exact result over the integers and rounds it once. -/
theorem sumsAndProductsAreCorrectlyRounded : Obligations.SumsAndProductsAreCorrectlyRounded := by
  intro F d a b p q ha hb
  obtain ⟨hadd, haddSign⟩ := fadd_correctlyRounded d ha hb
  obtain ⟨hsub, hsubSign⟩ := fsub_correctlyRounded d ha hb
  obtain ⟨hmul, hmulSign⟩ := fmul_correctlyRounded d ha hb
  exact ⟨⟨hadd.isNan, hadd, haddSign⟩, ⟨hsub.isNan, hsub, hsubSign⟩, hmul.isNan, hmul, hmulSign⟩

/-! ## Quotients (R11) -/

@[simp] theorem signBit_roundQuot (F : Fmt) (neg : Bool) (m : ℕ) (e : ℤ) (n : ℕ) (f : ℤ) :
    signBit F (roundQuot F neg m e n f) = neg := signBit_roundFin F neg _ _

theorem fdiv_correctlyRounded {F : Fmt} (d : Draw) {a b : Word} {p q : ℚ} (ha : Means F a p) (hb : Means F b q)
    (hq : q ≠ 0) :
    CorrectlyRounded F (fdiv F d a b) ((p : ℝ) / q) ∧
      signBit F (fdiv F d a b) = (signBit F a != signBit F b) := by
  obtain ⟨s, m, e, hua, rfl⟩ := ha
  obtain ⟨t, n, f, hub, rfl⟩ := hb
  have hn : n ≠ 0 := mt ratOf_eq_zero_iff.2 hq
  rw [ratOf_div, signBit_of_unpack hua, signBit_of_unpack hub]
  simp only [fdiv, hua, hub, if_neg hn]
  exact ⟨roundQuot_correctlyRounded F _ m e (Nat.pos_of_ne_zero hn) f, signBit_roundQuot F _ m e n f⟩

/-- A zero divisor gives the infinity of the signs, or a NaN where the dividend is a zero too. -/
theorem unpack_fdiv_zero {F : Fmt} (d : Draw) {a b : Word} {p : ℚ} (ha : Means F a p) (hb : Means F b 0) :
    unpack F (fdiv F d a b) = if p = 0 then .nan else .inf (signBit F a != signBit F b) := by
  obtain ⟨s, m, e, hua, rfl⟩ := ha
  obtain ⟨t, n, f, hub, hq⟩ := hb
  obtain rfl : n = 0 := ratOf_eq_zero_iff.1 hq
  simp only [fdiv, hua, hub, if_true, signBit_of_unpack hua, signBit_of_unpack hub, ratOf_eq_zero_iff]
  by_cases hm : m = 0
  · rw [if_pos hm, if_pos hm, unpack_nanF]
  · rw [if_neg hm, if_neg hm, unpack_infF]

/-- Settles O54: by whether the divisor is a zero. -/
theorem quotientsAreCorrectlyRounded : Obligations.QuotientsAreCorrectlyRounded := by
  intro F d a b p q ha hb
  refine ⟨fun hq => ?_, ?_, ?_⟩
  · obtain ⟨hdiv, hsign⟩ := fdiv_correctlyRounded d ha hb hq
    exact ⟨hdiv.isNan, hdiv, hsign⟩
  · rintro rfl hp
    rw [unpack_fdiv_zero d ha hb, if_neg hp]
  · rintro rfl hp
    rw [isNan_iff, unpack_fdiv_zero d ha hb, if_pos hp]

/-! ## Square roots (R11) -/

/-- The exponent of a finite value is at most that of the largest finite values. -/
theorem unpack_fin_exponent_le {F : Fmt} {c : Word} {s : Bool} {n : ℕ} {f : ℤ} (h : unpack F c = .fin s n f) :
    f ≤ minExp F + maxExpField F - 2 := by
  have hmod := Nat.mod_lt ((truncF F c).toNat / 2 ^ mantBits F) (show 0 < 2 ^ expBits F by positivity)
  have hmax : maxExpField F + 1 = 2 ^ expBits F := Nat.sub_add_cancel Nat.one_le_two_pow
  have htwo : 2 ≤ maxExpField F := by cases F <;> decide
  simp only [unpack] at h
  split at h
  · split at h <;> cases h
  · split at h
    · cases h; omega
    · cases h; omega

/-- Every finite value is below the overflow bound. -/
theorem Means.abs_lt_overflowBound {F : Fmt} {a : Word} {q : ℚ} (h : Means F a q) : |(q : ℝ)| < overflowBound F := by
  obtain ⟨s, m, e, hu, rfl⟩ := h
  have hm : (m : ℝ) ≤ 2 * 2 ^ mantBits F - 1 := by
    have : m + 1 ≤ 2 * 2 ^ mantBits F := (unpack_fin_bounds hu).1
    rw [le_sub_iff_add_le]; exact_mod_cast this
  have he : (2 : ℝ) ^ e ≤ 2 ^ (minExp F + maxExpField F - 2) :=
    zpow_le_zpow_right₀ one_le_two (unpack_fin_exponent_le hu)
  have hpow : (0 : ℝ) < 2 ^ (minExp F + maxExpField F - 2) := by positivity
  rw [← Rat.cast_abs, abs_ratOf, overflowBound_eq]
  push_cast
  calc (m : ℝ) * 2 ^ e ≤ m * 2 ^ (minExp F + maxExpField F - 2) := mul_le_mul_of_nonneg_left he m.cast_nonneg
    _ < (2 * 2 ^ mantBits F - 1 / 2) * 2 ^ (minExp F + maxExpField F - 2) :=
      mul_lt_mul_of_pos_right (by linarith) hpow

theorem one_lt_overflowBound (F : Fmt) : (1 : ℝ) < overflowBound F := by
  have hexp : (1 : ℝ) ≤ 2 ^ (minExp F + maxExpField F - 2) := one_le_zpow₀ one_le_two (by cases F <;> decide)
  have hmant : (1 : ℝ) ≤ 2 ^ mantBits F := one_le_pow₀ one_le_two
  rw [overflowBound_eq]
  nlinarith

/-- The root of a finite value does not overflow: it is at most that value or at most 1. -/
theorem Means.sqrt_lt_overflowBound {F : Fmt} {a : Word} {q : ℚ} (h : Means F a q) :
    |Real.sqrt q| < overflowBound F := by
  rw [abs_of_nonneg (Real.sqrt_nonneg _), Real.sqrt_lt' (zero_lt_one.trans (one_lt_overflowBound F))]
  have hq := (le_abs_self _).trans_lt h.abs_lt_overflowBound
  exact hq.trans (lt_self_pow₀ (one_lt_overflowBound F) one_lt_two)

theorem NearestEven.isFinite {F : Fmt} {r : Word} {x : ℝ} (h : NearestEven F r x) : isFinite F r = true := by
  obtain ⟨q, ⟨s, m, e, hu, -⟩, -⟩ := h
  exact isFinite_iff.2 ⟨s, m, e, hu⟩

/-- The root of a positive finite value is the real root, correctly rounded, with the sign bit clear. -/
theorem fsqrt_correctlyRounded {F : Fmt} (d : Draw) {a : Word} {q : ℚ} (h : Means F a q) (hq : 0 < q) :
    CorrectlyRounded F (fsqrt F d a) (Real.sqrt q) ∧ signBit F (fsqrt F d a) = false := by
  obtain ⟨s, m, e, hu, rfl⟩ := h
  obtain ⟨rfl, hm⟩ := ratOf_pos_iff.1 hq
  have hm53 : m < 2 ^ 53 := (unpack_fin_bounds hu).1.trans_le (by cases F <;> decide)
  have hval : ((ratOf false m e : ℚ) : ℝ) = m * 2 ^ e := by simp [ratOf]
  simp only [fsqrt, hu, if_neg hm, Bool.false_eq_true, if_false, hval]
  exact ⟨roundSqrt_correctlyRounded F (Nat.pos_of_ne_zero hm) hm53 e, signBit_roundFin F _ _ _⟩

/-- Settles O59: by the sign of the operand. -/
theorem rootsAreCorrectlyRounded : Obligations.RootsAreCorrectlyRounded := by
  intro F d a q h
  refine ⟨fun hq => ?_, ?_, ?_⟩
  · obtain ⟨hround, hsign⟩ := fsqrt_correctlyRounded d h hq
    have hnear := hround.1 h.sqrt_lt_overflowBound
    exact ⟨hnear.isFinite, hnear, hsign⟩
  · rintro rfl
    obtain ⟨s, m, e, hu, hz⟩ := h
    simp only [fsqrt, hu, if_pos (ratOf_eq_zero_iff.1 hz), signBit_of_unpack hu]
  · intro hq
    obtain ⟨s, m, e, hu, rfl⟩ := h
    obtain ⟨rfl, hm⟩ := ratOf_neg_iff.1 hq
    simp only [fsqrt, hu, if_neg hm, if_true, isNan_nanF]

/-! ## Literals and pi (R13) -/

theorem litF_correctlyRounded (F : Fmt) (n : ℕ) {d : ℕ} (hd : 0 < d) :
    CorrectlyRounded F (litF F n d) ((n : ℝ) / d) := by
  simpa [litF] using roundQuot_correctlyRounded F false n 0 hd 0

/-- The number of steps that the last place of pi is above the least one. -/
def piPlace : Fmt → ℕ
  | .b32 => 127
  | .b64 => 1023

/-- The significand of `PI_F`. -/
def piSignificand : Fmt → ℕ
  | .b32 => 0xC90FDB
  | .b64 => 0x1921FB54442D18

theorem piF_eq_assembled (F : Fmt) :
    piF F = packSign F false (piPlace F * 2 ^ mantBits F + piSignificand F) := by
  cases F <;> decide +kernel

/-- Pi in units of its last place lies nearest to the significand of `PI_F`: twenty digits of pi decide it. -/
theorem piSignificand_nearest (F : Fmt) :
    NearestInt (Real.pi / 2 ^ (minExp F + piPlace F)) (piSignificand F) := by
  have hlo := Real.pi_gt_d20
  have hhi := Real.pi_lt_d20
  have hle : 2 * (piSignificand F : ℝ) < 2 * (Real.pi / 2 ^ (minExp F + piPlace F)) + 1 := by
    cases F <;> norm_num [minExp, piPlace, piSignificand] <;> linarith
  have hge : 2 * (Real.pi / 2 ^ (minExp F + piPlace F)) < 2 * piSignificand F + 1 := by
    cases F <;> norm_num [minExp, piPlace, piSignificand] <;> linarith
  exact ⟨hle.le, hge.le, fun h => by rcases h with h | h <;> linarith⟩

theorem piF_nearestEven (F : Fmt) : NearestEven F (piF F) Real.pi := by
  have hfull : 2 ^ mantBits F < piSignificand F := by cases F <;> decide
  have hfits : piSignificand F < 2 * 2 ^ mantBits F := by cases F <;> decide
  have hfinite : piPlace F * 2 ^ mantBits F + piSignificand F < maxExpField F * 2 ^ mantBits F := by
    cases F <;> decide
  have hreal : (2 : ℝ) ^ mantBits F ≤ Real.pi / 2 ^ (minExp F + piPlace F) := by
    have hle := (piSignificand_nearest F).le
    have hfull' : (2 : ℝ) ^ mantBits F + 1 ≤ piSignificand F := by exact_mod_cast hfull
    linarith
  have h := nearestEven_assembled false (.inr hreal) (piSignificand_nearest F) hfits.le (.inr hfull.le) hfinite
  rw [← piF_eq_assembled, div_mul_cancel₀ _ (by positivity)] at h
  simpa using h

/-! ## Integers and comparisons (R16, R11) -/

theorem means_zeroF (F : Fmt) (neg : Bool) : Means F (zeroF F neg) 0 :=
  ⟨neg, 0, minExp F, unpack_zeroF F neg, ratOf_eq_zero_iff.2 rfl⟩

/-- A small integer is exact in both formats. -/
theorem means_ofNatF (F : Fmt) {n : ℕ} (h : n < 2 ^ 24) : Means F (ofNatF F n) n := by
  rcases Nat.eq_zero_or_pos n with rfl | h0
  · rw [ofNatF, roundFin, if_pos rfl, Nat.cast_zero]
    exact means_zeroF F false
  · obtain ⟨m, e, hu, he, rfl⟩ := unpack_ofNatF F h0 h
    obtain ⟨k, rfl⟩ : ∃ k : ℕ, e = -k := ⟨(-e).toNat, by omega⟩
    refine ⟨false, _, _, hu, ?_⟩
    rw [neg_neg, Int.toNat_natCast]
    simp [ratOf]

theorem means_oneF (F : Fmt) : Means F (oneF F) 1 := by exact_mod_cast means_ofNatF F (n := 1) (by norm_num)

theorem means_twoF (F : Fmt) : Means F (twoF F) 2 := by exact_mod_cast means_ofNatF F (n := 2) (by norm_num)

/-- `floor_uint` of a non-negative number is its integer part (R16). -/
theorem Means.floorUint {F : Fmt} {v : Word} {q : ℚ} (h : Means F v q) (hq : 0 ≤ q) : floorUint F v = ⌊q⌋₊ := by
  obtain ⟨s, m, e, hu, rfl⟩ := h
  simp only [Machine.floorUint, hu]
  cases s with
  | true =>
    have hm : m = 0 := by
      by_contra hm
      exact absurd hq (not_le.2 (ratOf_neg_iff.2 ⟨rfl, hm⟩))
    rw [if_pos rfl, ratOf_eq_zero_iff.2 hm, Nat.floor_zero]
  | false =>
    simp only [Bool.false_eq_true, if_false, ratOf]
    by_cases he : 0 ≤ e
    · obtain ⟨k, rfl⟩ := Int.eq_ofNat_of_zero_le he
      rw [if_pos he, Int.toNat_natCast, zpow_natCast]
      exact_mod_cast (Nat.floor_natCast (m * 2 ^ k)).symm
    · obtain ⟨k, rfl⟩ : ∃ k : ℕ, e = -k := ⟨(-e).toNat, by omega⟩
      rw [if_neg he, neg_neg, Int.toNat_natCast, zpow_neg, zpow_natCast, ← div_eq_mul_inv]
      have h := Nat.floor_div_eq_div (K := ℚ) m (2 ^ k)
      push_cast at h
      exact h.symm

theorem Means.isNan {F : Fmt} {a : Word} {p : ℚ} (h : Means F a p) : isNan F a = false := by
  obtain ⟨s, m, e, hu, -⟩ := h
  simp [Machine.isNan, hu]

/-- Finite values are compared as their numbers. -/
theorem Means.ltF_iff {F : Fmt} {a b : Word} {p q : ℚ} (ha : Means F a p) (hb : Means F b q) :
    ltF F a b = true ↔ p < q := by
  obtain ⟨s, m, e, hua, rfl⟩ := ha
  obtain ⟨t, n, f, hub, rfl⟩ := hb
  rw [ratOf_eq_alignedInt (min_le_left e f), ratOf_eq_alignedInt (min_le_right e f),
    mul_lt_mul_iff_left₀ (by positivity), Int.cast_lt]
  simp only [ltF, hua, hub, decide_eq_true_eq]

theorem Means.leF_iff {F : Fmt} {a b : Word} {p q : ℚ} (ha : Means F a p) (hb : Means F b q) :
    leF F a b = true ↔ p ≤ q := by
  rw [← not_lt, ← hb.ltF_iff ha]
  simp [leF, ha.isNan, hb.isNan]

/-- A finite value lies between the infinities. -/
theorem Means.between_infinities {F : Fmt} {a : Word} {p : ℚ} (h : Means F a p) :
    ltF F a (infF F false) = true ∧ ltF F (infF F true) a = true := by
  obtain ⟨s, m, e, hu, -⟩ := h
  simp [ltF, hu]

/-- Settles O60: the clauses of the constants, the conversions and the comparisons in turn. -/
theorem constantsAndConversionsMeanTheirNumbers : Obligations.ConstantsAndConversionsMeanTheirNumbers := by
  intro F
  exact ⟨fun n d hd => litF_correctlyRounded F n hd, piF_nearestEven F,
    fun n h => ⟨means_ofNatF F (by omega), signBit_roundFin F _ _ _⟩, means_oneF F, means_twoF F, means_zeroF F false,
    fun v q h hq => h.floorUint hq,
    fun a b p q ha hb => ⟨ha.ltF_iff hb, ha.leF_iff hb, hb.ltF_iff ha, hb.leF_iff ha⟩,
    fun a p h => h.between_infinities⟩

/-! ## The elementary function unit (R12) -/

/-- A value that is at most 1 in magnitude is finite. -/
theorem isFinite_of_fabs_le_one {F : Fmt} {v : Word} (h : leF F (fabs F v) (oneF F) = true) : isFinite F v = true := by
  obtain ⟨s, m, e, hone, -⟩ := means_oneF F
  rw [leF, isNan, isNan, ltF, hone, unpack_fabs] at h
  rw [isFinite]
  cases hv : unpack F v with
  | nan => simp [hv, FVal.withSign] at h
  | inf s => simp [hv, FVal.withSign] at h
  | fin s m e => rfl

theorem fabs_zeroF (F : Fmt) (neg : Bool) : fabs F (zeroF F neg) = zeroF F false :=
  fabs_eq_packSign (magLimit_pos F) (truncF_zeroF F neg)

/-- P3, whichever function the unit computes: a result that breaks it is replaced by `+0.0`. -/
theorem efuSin_bounded {F : Fmt} (d : Draw) {x : Word} (hx : isFinite F x = true) :
    isFinite F (efuSin F d x) = true ∧ leF F (fabs F (efuSin F d x)) (oneF F) = true := by
  have hle : leF F (fabs F (efuSin F d x)) (oneF F) = true := by
    simp only [efuSin, if_pos hx]
    by_cases h : leF F (fabs F (efuApply Config.efuSin F d x)) (oneF F) = true
    · rw [if_pos h, h]
    · rw [if_neg h, fabs_zeroF]
      exact ((means_zeroF F false).leF_iff (means_oneF F)).2 zero_le_one
  exact ⟨isFinite_of_fabs_le_one hle, hle⟩

/-- Settles O55: P1 and P2 by the operands they name, P3 by `efuSin_bounded`. -/
theorem elementaryFunctionsHaveTheNamedProperties : Obligations.ElementaryFunctionsHaveTheNamedProperties := by
  intro F d
  have hexp (neg : Bool) : efuExp F d (zeroF F neg) = oneF F := by rw [efuExp, if_pos (fabs_zeroF F neg)]
  exact ⟨by rw [efuLn, if_pos (truncF_oneF F)], hexp false, hexp true, fun x hx => efuSin_bounded d hx⟩

end Sys2Proof.Machine

/-! The state rules (10_state.md R20 to R40): the address map, what each command may change and what it may read,
and the invariant of the machine, which every step keeps. -/

namespace Sys2Proof.Machine

/-! ## The windows of the address map (R36, R68, R69) -/

section
variable {s : State} {a : BusAddr} {n : ℕ}

theorem locate_of_register (h : a.toNat < 0x100) : locate s a = locateRegister a.toNat := by
  rw [locate, if_pos h]

theorem locate_of_stage (h : a.toNat = 0x100 + n) (hn : n < 0x40) : locate s a = locateStage s n := by
  rw [locate, if_neg (by omega), if_pos (by omega), h, Nat.add_sub_cancel_left]

theorem locate_of_buffer (h : a.toNat = 0x10000 + n) (hn : n < 0x10000) : locate s a = locateBuffer s n := by
  rw [locate, if_neg (by omega), if_neg (by omega), if_neg (by omega), if_pos (by omega), h, Nat.add_sub_cancel_left]

theorem locate_of_coef (h : a.toNat = 0x20000 + n) (hn : n < 0x1000) : locate s a = locateCoef s n := by
  rw [locate, if_neg (by omega), if_neg (by omega), if_neg (by omega), if_neg (by omega), if_pos (by omega), h,
    Nat.add_sub_cancel_left]

theorem locate_of_hist (h : a.toNat = 0x21000 + n) (hn : n < 0x1000) : locate s a = locateHist s n := by
  rw [locate, if_neg (by omega), if_neg (by omega), if_neg (by omega), if_neg (by omega), if_neg (by omega),
    if_pos (by omega), h, Nat.add_sub_cancel_left]

/-- Between the per-stage registers and the RAM windows, and above them, nothing is mapped. -/
theorem locate_of_gap (h : (0x140 ≤ a.toNat ∧ a.toNat < 0x10000) ∨ 0x22000 ≤ a.toNat) : locate s a = none := by
  rw [locate, if_neg (by omega), if_neg (by omega)]
  rcases h with ⟨-, h⟩ | h
  · rw [if_pos h]
  · rw [if_neg (by omega), if_neg (by omega), if_neg (by omega), if_neg (by omega)]

/-- Four registers per stage, in the order of R36. -/
theorem locateStage_eq (s : State) (k : ℕ) {r : ℕ} (hr : r < 4) : locateStage s (4 * k + r) =
    if k < s.cfg.maxStages then
      some (if r = 0 then .apLen k else if r = 1 then .apIdx k else if r = 2 then .apFb k else .lfoPhase k)
    else none := by
  have hdiv : (4 * k + r) / 4 = k := by omega
  have hmod : (4 * k + r) % 4 = r := by omega
  simp only [locateStage, hdiv, hmod, ← apply_ite some, ← not_lt, ite_not]

theorem locateBuffer_eq (s : State) (k : ℕ) {i : ℕ} (hi : i < 0x1000) : locateBuffer s (0x1000 * k + i) =
    if k < s.cfg.maxStages ∧ i < (s.stage k).len.toNat then some (.apBuf k i) else none := by
  have hdiv : (0x1000 * k + i) / 0x1000 = k := by omega
  have hmod : (0x1000 * k + i) % 0x1000 = i := by omega
  simp only [locateBuffer, hdiv, hmod]

/-- The addresses of R36 below the per-stage registers are the only ones mapped there. -/
theorem locateRegister_eq_none (h : n ∉ [0x0, 0x1, 0x2, 0x3, 0x4, 0x8, 0x9, 0xA, 0xB, 0xC, 0x10, 0x11, 0x12, 0x13, 0x20,
    0x21, 0x22, 0x23, 0x30, 0x31]) : locateRegister n = none := by
  unfold locateRegister
  split
  case h_21 => rfl
  all_goals exact absurd h (by decide)

end

/-- Settles O13, window by window. -/
theorem addressMapIsTheTable : Obligations.AddressMapIsTheTable := by
  intro s
  have hnat {n : ℕ} (h : n < 0x100000) : (BitVec.ofNat 20 n).toNat = n := by
    rw [BitVec.toNat_ofNat]; exact Nat.mod_eq_of_lt h
  refine ⟨fun k r hk hr => ?_, fun k i hk hi => ?_, fun i hi => ?_, fun i hi => ?_, fun p hp => ?_, fun a ha hwin => ?_⟩
  · rw [locate_of_stage ((hnat (by omega)).trans (Nat.add_assoc _ _ _)) (by omega), locateStage_eq s k hr]
  · rw [locate_of_buffer ((hnat (by omega)).trans (Nat.add_assoc _ _ _)) (by omega), locateBuffer_eq s k hi]
  · exact locate_of_coef (hnat (by omega)) hi
  · exact locate_of_hist (hnat (by omega)) hi
  · fin_cases hp <;> rfl
  · by_cases hlow : a.toNat < 0x100
    · rw [locate_of_register hlow, locateRegister_eq_none ha]
    · exact locate_of_gap (by omega)

/-- What the address map asks of a word that it maps (R36, R69). -/
def Loc.Mapped (s : State) : Loc → Prop
  | .apLen k | .apIdx k | .apFb k | .lfoPhase k => k < s.cfg.maxStages
  | .apBuf k i => k < s.cfg.maxStages ∧ i < (s.stage k).len.toNat ∧ i < 0x1000
  | .firCoef i => s.firOk = true ∧ i ≤ s.firOrder.toNat ∧ i < 0x1000
  | .firHist i => s.firOk = true ∧ i < s.firOrder.toNat ∧ i < 0x1000
  | .cmd | .status | .fcode | .finfo | .res | .arg0 | .arg1 | .arg2 | .arg3 | .arg4 | .uvSr | .uvBase | .uvRange
  | .uvNst | .iirSr | .iirB0 | .iirA1 | .iirY1 | .firSr | .firOrder => True

theorem locateRegister_mapped {s : State} {n : ℕ} {l : Loc} (h : locateRegister n = some l) : l.Mapped s := by
  unfold locateRegister at h
  split at h <;> cases h <;> trivial

theorem locate_mapped {s : State} {a : BusAddr} {l : Loc} (h : locate s a = some l) : l.Mapped s := by
  rcases locate_cases h with ⟨-, h⟩ | ⟨k, hk, h⟩ | ⟨k, i, hk, hi, -, hi', -, rfl⟩ | ⟨i, hok, hi, hi', -, rfl⟩ |
    ⟨i, hok, hi, hi', -, rfl⟩
  · exact locateRegister_mapped h
  · rcases h with ⟨-, rfl⟩ | ⟨-, rfl⟩ | ⟨-, rfl⟩ | ⟨-, rfl⟩ <;> exact hk
  · exact ⟨hk, hi, hi'⟩
  · exact ⟨hok, hi, hi'⟩
  · exact ⟨hok, hi, hi'⟩

/-! ## `STATUS` (R27) -/

theorem flagBit_getLsbD (b : Bool) {i j : ℕ} (hj : j < 64) : (flagBit b i).getLsbD j = (b && decide (j = i)) := by
  cases b with
  | false => simp [flagBit]
  | true =>
    have hone : (1 : Word).getLsbD (j - i) = decide (j - i = 0) := by simp
    rw [flagBit, if_pos rfl, BitVec.getLsbD_shiftLeft, hone, Bool.eq_iff_iff]
    simp only [hj, decide_true, Bool.true_and, Bool.and_eq_true, Bool.not_eq_true', decide_eq_false_iff_not,
      decide_eq_true_eq]
    omega

/-- Settles O18: each flag is the one bit at its place. -/
theorem statusWordHoldsTheFlags : Obligations.StatusWordHoldsTheFlags := by
  intro s i hi
  simp only [statusWord, BitVec.getLsbD_or, flagBit_getLsbD _ hi]
  split_ifs <;> simp_all

/-! ## What a command can do -/

section
variable {c : Prop} [Decidable c] {s t a : State} {e : FaultCause} {i : Instr} {P : Prop}

/-- A check that faults: the outcome is its fault, or that of the rest. -/
theorem fault_else {o : Host.Outcome State Fault Refusal}
    (h : (if c then .next (s.raiseCmd e i) else o) = .next t)
    (rest : ¬ c → o = .next t → (∃ e, t = s.raiseCmd e i) ∨ P) : (∃ e, t = s.raiseCmd e i) ∨ P := by
  split at h
  · cases h; exact .inl ⟨e, rfl⟩
  · next hc => exact rest hc h

/-- A check that lets the command complete, which faults otherwise. -/
theorem complete_else
    (h : (if c then .next a else .next (s.raiseCmd e i) : Host.Outcome State Fault Refusal) = .next t) :
    (∃ e, t = s.raiseCmd e i) ∨ (c ∧ t = a) := by
  split at h
  · next hc => cases h; exact .inr ⟨hc, rfl⟩
  · cases h; exact .inl ⟨e, rfl⟩

theorem next_inj (h : (.next a : Host.Outcome State Fault Refusal) = .next t) : t = a := by cases h; rfl

end

/-- What `FIR.NEW` leaves when its order fits (R161). -/
def firBuilt (s : State) : State :=
  let d := firDesign (floatOf s.cfg.fmtFir s.arg0)
    { s with firSr := floatOf s.cfg.fmtFir s.arg1, firOrder := BitVec.ofNat 32 (uintOf s.arg2) }
  { d with mem := ramClear d.mem (firHistAddr 0) (uintOf s.arg2), firOk := true }

/-- What `UV.NEW` leaves when its checks pass (R211). -/
def uvBuilt (s : State) : State :=
  let sr := floatOf s.cfg.fmtUv s.arg0
  let n := uintOf s.arg1
  State.tick { forStages (uvBuildStage n (uvCap s.cfg.fmtUv s.draws sr)) s.cfg.maxStages (uvSetRate sr s) with
    uvNst := BitVec.ofNat 32 n, uvOk := true }

/-- What `UV.SETSR` leaves when its checks pass (R226). -/
def uvResized (s : State) : State :=
  let sr := floatOf s.cfg.fmtUv s.arg0
  (forStages (fun k t => lfoZero k (apResize (uvCap s.cfg.fmtUv s.draws sr) k t)) s.uvNst.toNat (uvSetRate sr s)).tick

/-- What `UV.PROC` leaves when its checks pass (R212, R214). -/
def uvProcessed (s : State) : State :=
  let p := stageLoop (uvArgs s) (floatOf s.cfg.fmtUv s.arg0) s (uintOf s.arg4)
  (p.1.returnF s.cfg.fmtUv p.2).tick

/-- What a waveshaper of one operand leaves for a finite operand's result `r` (R191). -/
def shapedState (s : State) (F : Fmt) (r : Word) : State :=
  (s.returnF F (shaped F s.draws (floatOf F s.arg0) r)).tick

/-- What `WS.HARD` leaves (R198). -/
def hardState (s : State) : State :=
  let F := s.cfg.fmtHard
  let x := floatOf F s.arg0
  let t := floatOf F s.arg1
  (s.returnF F (if hardContract F x t then hardCurve F x t else drawF F ⟨s.draws, 15⟩)).tick

/-- A command passes its checks, and what it then leaves. -/
def Completes (s t : State) : Instr → Prop
  | .nop => t = s
  | .apNew k => k < s.cfg.maxStages ∧ uintOf s.arg0 ≤ s.cfg.apMaxCap ∧ t = apCreate (uintOf s.arg0) k s
  | .apReset k => k < s.cfg.maxStages ∧ t = apClear k s
  | .apSetFb k => k < s.cfg.maxStages ∧ t = s.setStage k { s.stage k with fb := floatOf s.cfg.fmtUv s.arg0 }
  | .iirNew => t = { iirRecompute (floatOf s.cfg.fmtIir s.arg1) { s with iirSr := floatOf s.cfg.fmtIir s.arg0 } with
      iirOk := true }
  | .iirSetCut => s.iirOk = true ∧ t = iirRecompute (floatOf s.cfg.fmtIir s.arg0) s
  | .iirProc => s.iirOk = true ∧
      t = (({ s with iirY1 := iirProcValue s }).returnF s.cfg.fmtIir (iirProcValue s)).tick
  | .firNew => uintOf s.arg2 ≤ s.cfg.firMaxOrder ∧ t = firBuilt s
  | .firSetCut => s.firOk = true ∧ t = firDesign (floatOf s.cfg.fmtFir s.arg0) s
  | .firProc => s.firOk = true ∧ t = ((s.setMem (firPushed s)).returnF s.cfg.fmtFir (firProcValue s)).tick
  | .wsGreen => t = shapedState s s.cfg.fmtGreen (greenCurve s.cfg.fmtGreen s.draws (floatOf s.cfg.fmtGreen s.arg0))
  | .wsRed => t = shapedState s s.cfg.fmtRed (redCurve s.cfg.fmtRed s.draws (floatOf s.cfg.fmtRed s.arg0))
  | .wsSigmoid =>
      t = shapedState s s.cfg.fmtSigmoid (sigmoidCurve s.cfg.fmtSigmoid s.draws (floatOf s.cfg.fmtSigmoid s.arg0))
  | .wsHard => t = hardState s
  | .uvNew => positiveFinite s.cfg.fmtUv (floatOf s.cfg.fmtUv s.arg0) = true ∧ uintOf s.arg1 ≠ 0 ∧
      uintOf s.arg1 ≤ s.cfg.maxStages ∧
      uvCapFits s.cfg.fmtUv s.draws s.cfg.apMaxCap (floatOf s.cfg.fmtUv s.arg0) = true ∧ t = uvBuilt s
  | .uvSetSr => s.uvOk = true ∧ positiveFinite s.cfg.fmtUv (floatOf s.cfg.fmtUv s.arg0) = true ∧
      uvCapFits s.cfg.fmtUv s.draws s.cfg.apMaxCap (floatOf s.cfg.fmtUv s.arg0) = true ∧ t = uvResized s
  | .uvReset => s.uvOk = true ∧ t = forStages (fun k t => lfoZero k (apClear k t)) s.uvNst.toNat s
  | .uvProc => s.uvOk = true ∧ uintOf s.arg4 ≤ s.uvNst.toNat ∧ shortStage s (uintOf s.arg4) = false ∧
      t = uvProcessed s

/-- A command faults or completes. -/
theorem exec_cases {i : Instr} {s t : State} (h : exec i s = .next t) :
    (∃ c, t = s.raiseCmd c i) ∨ Completes s t i := by
  cases i with
  | nop => exact .inr (next_inj h)
  | apNew k =>
    exact fault_else h fun hk h => fault_else h fun hc h => .inr ⟨not_le.1 hk, not_lt.1 hc, next_inj h⟩
  | apReset k => exact fault_else h fun hk h => .inr ⟨not_le.1 hk, next_inj h⟩
  | apSetFb k => exact fault_else h fun hk h => .inr ⟨not_le.1 hk, next_inj h⟩
  | iirNew => exact .inr (next_inj h)
  | iirSetCut => exact complete_else h
  | iirProc => exact complete_else h
  | firNew => exact fault_else h fun hn h => .inr ⟨not_lt.1 hn, next_inj h⟩
  | firSetCut => exact complete_else h
  | firProc => exact complete_else h
  | wsGreen => exact .inr (next_inj h)
  | wsRed => exact .inr (next_inj h)
  | wsSigmoid => exact .inr (next_inj h)
  | wsHard => exact .inr (next_inj h)
  | uvNew =>
    exact fault_else h fun hsr h => fault_else h fun h0 h => fault_else h fun hn h => fault_else h fun hfit h =>
      .inr ⟨by simpa using hsr, h0, not_lt.1 hn, by simpa using hfit, next_inj h⟩
  | uvSetSr =>
    exact fault_else h fun hok h => fault_else h fun hsr h => fault_else h fun hfit h =>
      .inr ⟨by simpa using hok, by simpa using hsr, by simpa using hfit, next_inj h⟩
  | uvReset => exact complete_else h
  | uvProc =>
    exact fault_else h fun hok h => fault_else h fun hn h => fault_else h fun hs h =>
      .inr ⟨by simpa using hok, not_lt.1 hn, by simpa using hs, next_inj h⟩

/-! ## What each named update leaves unchanged -/

theorem samePart_refl (s : State) (p : Part) : samePart s s p := by cases p <;> simp [samePart]

theorem changesOnly.trans {l₁ l₂ : List Part} {s t u : State} (h₁ : changesOnly l₁ s t) (h₂ : changesOnly l₂ t u) :
    changesOnly (l₁ ++ l₂) s u := by
  intro p hp
  rw [List.mem_append, not_or] at hp
  have hst := h₁ p hp.1
  have htu := h₂ p hp.2
  cases p <;> simp_all [samePart]

theorem changesOnly.mono {l₁ l₂ : List Part} {s t : State} (h : changesOnly l₁ s t) (hl : l₁ ⊆ l₂) :
    changesOnly l₂ s t :=
  fun p hp => h p fun hmem => hp (hl hmem)

section
variable (s : State)

theorem raise_changesOnly (c : FaultCause) (v : Word) : changesOnly [.latch] s (s.raise c v) := by
  intro p hp; cases p <;> simp_all [samePart]
theorem returnF_changesOnly (F : Fmt) (v : Word) : changesOnly [.res] s (s.returnF F v) := by
  intro p hp; cases p <;> simp_all [samePart]
theorem tick_changesOnly : changesOnly [.draws] s s.tick := by
  intro p hp; cases p <;> simp_all [samePart]
theorem setMem_changesOnly (m : Memory) : changesOnly [.mem] s (s.setMem m) := by
  intro p hp; cases p <;> simp_all [samePart]
theorem setStage_changesOnly (k : ℕ) (st : Stage) : changesOnly [.stages] s (s.setStage k st) := by
  intro p hp; cases p <;> simp_all [samePart]
theorem iirRecompute_changesOnly (fc : Word) : changesOnly [.iir, .draws] s (iirRecompute fc s) := by
  intro p hp; cases p <;> simp_all [samePart, iirRecompute, State.stage]
theorem firDesign_changesOnly (cutoff : Word) : changesOnly [.firWarn, .mem, .draws] s (firDesign cutoff s) := by
  intro p hp; cases p <;> simp_all [samePart, firDesign, State.stage]
theorem uvSetRate_changesOnly (sr : Word) : changesOnly [.uvRegs] s (uvSetRate sr s) := by
  intro p hp; cases p <;> simp_all [samePart, uvSetRate, State.stage]

end

theorem sameButStages.changesOnly {s t : State} (h : sameButStages s t) : changesOnly [.stages, .mem] s t := by
  intro p hp
  rw [h]
  cases p <;> simp_all [samePart]

theorem sameButStages.cfg_eq {s t : State} (h : sameButStages s t) : t.cfg = s.cfg := by rw [h]

theorem sameButStages.uvOk_eq {s t : State} (h : sameButStages s t) : t.uvOk = s.uvOk := by rw [h]

theorem uvConstruct_changesOnly (s : State) (n : BitVec 32) :
    changesOnly [.uvRegs] s { s with uvNst := n, uvOk := true } := by
  intro p hp; cases p <;> simp_all [samePart, State.stage]

/-- The parts of the state that a command that completes may change. -/
def touches : Instr → List Part
  | .nop => []
  | .apNew _ | .apReset _ | .uvReset => [.stages, .mem]
  | .apSetFb _ => [.stages]
  | .iirNew | .iirSetCut => [.iir, .draws]
  | .iirProc => [.iir, .res, .draws]
  | .firNew => [.firRegs, .firWarn, .mem, .draws]
  | .firSetCut => [.firWarn, .mem, .draws]
  | .firProc => [.mem, .res, .draws]
  | .wsGreen | .wsRed | .wsSigmoid | .wsHard => [.res, .draws]
  | .uvNew | .uvSetSr => [.uvRegs, .stages, .mem, .draws]
  | .uvProc => [.stages, .mem, .res, .draws]

theorem Completes.changesOnly {i : Instr} {s t : State} (h : Completes s t i) : changesOnly (touches i) s t := by
  cases i with
  | nop => obtain rfl := h; exact fun p _ => samePart_refl _ p
  | apNew k => obtain ⟨-, -, rfl⟩ := h; exact (apCreate_same _ k s).changesOnly
  | apReset k => obtain ⟨-, rfl⟩ := h; exact (apClear_same k s).changesOnly
  | apSetFb k => obtain ⟨-, rfl⟩ := h; exact setStage_changesOnly s k _
  | iirNew =>
    obtain rfl := h
    intro p hp
    cases p <;> simp_all [samePart, iirRecompute, State.stage, touches]
  | iirSetCut => obtain ⟨-, rfl⟩ := h; exact iirRecompute_changesOnly s _
  | iirProc =>
    obtain ⟨-, rfl⟩ := h
    intro p hp
    cases p <;> simp_all [samePart, State.stage, touches]
  | firNew =>
    obtain ⟨-, rfl⟩ := h
    intro p hp
    cases p <;> simp_all [samePart, firBuilt, firDesign, State.stage, touches]
  | firSetCut => obtain ⟨-, rfl⟩ := h; exact firDesign_changesOnly s _
  | firProc =>
    obtain ⟨-, rfl⟩ := h
    exact ((setMem_changesOnly s _).trans (returnF_changesOnly _ _ _)).trans (tick_changesOnly _)
  | wsGreen | wsRed | wsSigmoid | wsHard =>
    obtain rfl := h
    exact (returnF_changesOnly s _ _).trans (tick_changesOnly _)
  | uvNew =>
    obtain ⟨-, -, -, -, rfl⟩ := h
    have hloop := (uvSetRate_changesOnly s (floatOf s.cfg.fmtUv s.arg0)).trans (clearsStage_same (uvBuildStage_clears
      (uintOf s.arg1) (uvCap s.cfg.fmtUv s.draws (floatOf s.cfg.fmtUv s.arg0))) s.cfg.maxStages _).changesOnly
    exact ((hloop.trans (uvConstruct_changesOnly _ _)).trans (tick_changesOnly _)).mono (by simp [touches])
  | uvSetSr =>
    obtain ⟨-, -, -, rfl⟩ := h
    exact (((uvSetRate_changesOnly s _).trans
      (clearsStage_same (lfoZero_apResize_clears _) _ _).changesOnly).trans (tick_changesOnly _))
  | uvReset => obtain ⟨-, rfl⟩ := h; exact (clearsStage_same lfoZero_apClear_clears _ s).changesOnly
  | uvProc =>
    obtain ⟨-, -, -, rfl⟩ := h
    exact ((stageLoop_same _ _ s _).changesOnly.trans (returnF_changesOnly _ _ _)).trans (tick_changesOnly _)

/-- The frame of every command: what it completes with, or the fault latch. -/
theorem exec_changesOnly {i : Instr} {s t : State} (h : exec i s = .next t) :
    changesOnly (.latch :: touches i) s t := by
  rcases exec_cases h with ⟨c, rfl⟩ | hc
  · exact (raise_changesOnly s c _).mono (by simp)
  · exact hc.changesOnly.mono (by simp)

theorem args_notMem_touches (i : Instr) : .args ∉ touches i := by cases i <;> simp [touches]
theorem cmd_notMem_touches (i : Instr) : .cmd ∉ touches i := by cases i <;> simp [touches]
theorem ports_notMem_touches (i : Instr) : .ports ∉ touches i := by cases i <;> simp [touches]
theorem latch_notMem_touches (i : Instr) : .latch ∉ touches i := by cases i <;> simp [touches]
theorem res_mem_touches {i : Instr} : .res ∈ touches i ↔ returnsValue i = true := by
  cases i <;> simp [touches, returnsValue]
theorem iir_mem_touches {i : Instr} : .iir ∈ touches i ↔ ofIir i = true := by
  cases i <;> simp [touches, ofIir]
theorem firRegs_notMem_touches {i : Instr} (h : ofFir i = false) : .firRegs ∉ touches i := by
  cases i <;> simp_all [touches, ofFir]
theorem firWarn_notMem_touches {i : Instr} (h : ofFir i = false) : .firWarn ∉ touches i := by
  cases i <;> simp_all [touches, ofFir]
theorem uvRegs_notMem_touches {i : Instr} (h : ofUniVibe i = false) : .uvRegs ∉ touches i := by
  cases i <;> simp_all [touches, ofUniVibe]
theorem stages_notMem_touches {i : Instr} (h : ofUniVibe i = false) : .stages ∉ touches i := by
  cases i <;> simp_all [touches, ofUniVibe]

/-- Settles O28, from the frame of every command. -/
theorem commandsKeepArgumentsAndReturnOnlyValues : Obligations.CommandsKeepArgumentsAndReturnOnlyValues := by
  intro i s t h
  have hframe := exec_changesOnly h
  exact ⟨hframe .args (by simp [args_notMem_touches]), hframe .cmd (by simp [cmd_notMem_touches]),
    hframe .ports (by simp [ports_notMem_touches]), fun hi => hframe .res (by simp [res_mem_touches, hi])⟩

/-- A flag that only `P` changes, and only to set it. -/
def FlagSetBy (P : Prop) (old new : Bool) : Prop := (old = true → new = true) ∧ (new ≠ old → P)

theorem FlagSetBy.of_eq {P : Prop} {old new : Bool} (h : new = old) : FlagSetBy P old new :=
  ⟨fun ho => h.trans ho, fun hne => absurd h hne⟩

section
variable {i : Instr} {s t : State}

theorem Completes.firWarn_set (h : Completes s t i) : FlagSetBy (i = .firNew ∨ i = .firSetCut) s.firWarn t.firWarn := by
  cases i with
  | firNew => obtain ⟨-, rfl⟩ := h; exact ⟨fun hw => by simp [firBuilt, firDesign, hw], fun _ => .inl rfl⟩
  | firSetCut => obtain ⟨-, rfl⟩ := h; exact ⟨fun hw => by simp [firDesign, hw], fun _ => .inr rfl⟩
  | _ => exact .of_eq (h.changesOnly .firWarn (by simp [touches]))

theorem Completes.uvOk_set (h : Completes s t i) : FlagSetBy (i = .uvNew) s.uvOk t.uvOk := by
  cases i with
  | uvNew => obtain ⟨-, -, -, -, rfl⟩ := h; exact ⟨fun _ => rfl, fun _ => rfl⟩
  | uvSetSr => obtain ⟨-, -, -, rfl⟩ := h; exact .of_eq (clearsStage_same (lfoZero_apResize_clears _) _ _).uvOk_eq
  | _ => exact .of_eq (h.changesOnly .uvRegs (by simp [touches])).1

theorem Completes.iirOk_set (h : Completes s t i) : FlagSetBy (i = .iirNew) s.iirOk t.iirOk := by
  cases i with
  | iirNew => obtain rfl := h; exact ⟨fun _ => rfl, fun _ => rfl⟩
  | iirSetCut | iirProc => obtain ⟨-, rfl⟩ := h; exact .of_eq rfl
  | _ => exact .of_eq (h.changesOnly .iir (by simp [touches])).1

theorem Completes.firOk_set (h : Completes s t i) : FlagSetBy (i = .firNew) s.firOk t.firOk := by
  cases i with
  | firNew => obtain ⟨-, rfl⟩ := h; exact ⟨fun _ => rfl, fun _ => rfl⟩
  | _ => exact .of_eq (h.changesOnly .firRegs (by simp [touches])).1

end

/-- Settles O29: a command that faults sets `FAULT` alone; one that completes is taken flag by flag. -/
theorem flagsAreSetAndClearedAsListed : Obligations.FlagsAreSetAndClearedAsListed := by
  intro i s t h
  rcases exec_cases h with ⟨c, rfl⟩ | hc
  · simp [State.raiseCmd]
  · obtain ⟨hwarn, hwarn'⟩ := hc.firWarn_set
    obtain ⟨huv, huv'⟩ := hc.uvOk_set
    obtain ⟨hiir, hiir'⟩ := hc.iirOk_set
    obtain ⟨hfir, hfir'⟩ := hc.firOk_set
    obtain ⟨hfault, -⟩ := hc.changesOnly .latch (latch_notMem_touches i)
    exact ⟨hwarn, hwarn', huv, huv', hiir, hiir', hfir, hfir', fun hf => hfault.trans hf⟩

/-! ## The invariant and each named update -/

@[simp] theorem holdsF_zero (F : Fmt) : holdsF F 0 := by cases F <;> rfl

@[simp] theorem holdsF_truncF (F : Fmt) (r : Word) : holdsF F (truncF F r) := truncF_truncF F r

/-- Every cause has a code of R281. -/
theorem causeCode_bounds (c : FaultCause) : 1 ≤ (causeCode c).toNat ∧ (causeCode c).toNat ≤ 7 := by
  cases c <;> decide

/-- The registers of one stage are as the invariant asks (R31, R32 (a), R37). -/
structure Stage.Ok (c : Config) (st : Stage) : Prop where
  lenFits : st.len.toNat ≤ c.apMaxCap
  idxBelow : st.idx.toNat < st.len.toNat ∨ (st.len = 0 ∧ st.idx = 0)
  fbHolds : holdsF c.fmtUv st.fb
  lfoHolds : holdsF c.fmtUv st.lfo

theorem Stage.empty_ok (c : Config) : Stage.empty.Ok c :=
  ⟨by simp [Stage.empty], .inr ⟨rfl, rfl⟩, holdsF_zero _, holdsF_zero _⟩

section
variable {s : State} (h : s.Inv)
include h

theorem State.Inv.stage_ok (k : ℕ) : (s.stage k).Ok s.cfg :=
  ⟨h.lenFits k, h.idxBelow k, (h.stageHolds k).1, (h.stageHolds k).2⟩

theorem State.Inv.maxStages_le : s.cfg.maxStages ≤ 16 := (Config.ok_iff.1 h.cfgOk).2.1

theorem State.Inv.setRes (v : Word) : (s.setRes v).Inv := { h with }
theorem State.Inv.setCmd (w : CmdWord) : (s.setCmd w).Inv := { h with }
theorem State.Inv.tick : s.tick.Inv := { h with }
theorem State.Inv.returnF (F : Fmt) (v : Word) : (s.returnF F v).Inv := h.setRes _
theorem State.Inv.logRead (v : Word) : (s.logRead v).Inv := { h with }

theorem State.Inv.setStage {k : ℕ} (hk : k < s.cfg.maxStages) {st : Stage} (hst : st.Ok s.cfg) :
    (s.setStage k st).Inv := by
  have hstage (j : ℕ) : ((s.setStage k st).stage j).Ok s.cfg := by
    rw [State.stage_setStage]
    split
    · exact hst
    · exact h.stage_ok j
  exact { h with
    lenFits := fun j => (hstage j).lenFits
    idxBelow := fun j => (hstage j).idxBelow
    noStage := fun j (hj : s.cfg.maxStages ≤ j) => by rw [State.stage_setStage_ne _ (by omega), h.noStage j hj]
    stageHolds := fun j => ⟨(hstage j).fbHolds, (hstage j).lfoHolds⟩ }

theorem State.Inv.setMem {m : Memory} (hwf : Memory.wf m = true) (hm : ∀ c ∈ m, inRamWindow c.1) : (s.setMem m).Inv :=
  { h with memWf := hwf, memInRam := hm }

/-- A RAM word stored in the windows. -/
theorem State.Inv.writeRam (F : Fmt) {a : ℕ} (ha : byteAddr 0x10000 ≤ a) (ha' : a + 8 ≤ byteAddr 0x22000) (v : Word) :
    (s.setMem (ramWrite F s.mem a v)).Inv :=
  h.setMem (ramWrite_wf F h.memWf a v) fun c hc => by
    rcases mem_ramWrite hc with hc | hc
    · exact ⟨by omega, by omega⟩
    · exact h.memInRam c hc

theorem State.Inv.clearRam (a n : ℕ) : (s.setMem (ramClear s.mem a n)).Inv :=
  h.setMem (ramClear_wf h.memWf a n) fun c hc => h.memInRam c (mem_ramClear hc)

/-- A buffer word of an existing stage is in the all-pass window. -/
theorem State.Inv.writeApBuf {k i : ℕ} (hk : k < s.cfg.maxStages) (hi : i < 0x1000) (v : Word) :
    (s.setMem (ramWrite s.cfg.fmtUv s.mem (apBufAddr k i) v)).Inv := by
  have hmax := h.maxStages_le
  exact h.writeRam _ (by simp only [apBufAddr, byteAddr]; omega) (by simp only [apBufAddr, byteAddr]; omega) v

theorem State.Inv.raise (c : FaultCause) (v : Word) : (s.raise c v).Inv := by
  unfold State.raise
  split
  · exact h
  · exact { h with
      latchClear := fun hf => absurd hf (by simp)
      latchSet := fun _ => causeCode_bounds c }

theorem State.Inv.clearFault : s.clearFault.Inv :=
  { h with latchClear := fun _ => ⟨rfl, rfl⟩, latchSet := fun hf => absurd hf (by simp) }

theorem State.Inv.clearFirWarn : s.clearFirWarn.Inv := { h with }

theorem State.Inv.writeStatus (v : Word) : (s.writeStatus v).Inv := by
  have hlatch : (if v.getLsbD 0 then s.clearFault else s).Inv := by split; exacts [h.clearFault, h]
  rw [State.writeStatus]
  split
  · exact hlatch.clearFirWarn
  · exact hlatch

end

/-! ## The commands keep the invariant -/

section
variable {s : State} (h : s.Inv)
include h

theorem State.Inv.recomputeIir (fc : Word) : (iirRecompute fc s).Inv :=
  { h with iirHolds := ⟨h.iirHolds.1, truncF_fdiv _ _ _ _, truncF_fdiv _ _ _ _, holdsF_zero _⟩ }

/-- The design step writes the coefficient words up to the order, which are in the window. -/
theorem State.Inv.designFir (cutoff : Word) : (firDesign cutoff s).Inv :=
  { h with
    memWf := firWriteTaps_wf h.memWf _
    memInRam := fun c hc => by
      have horder := h.firOrder_le
      rcases mem_firWriteTaps hc with hc | hc
      · simp only [firCoefAddr, inRamWindow, byteAddr] at *; omega
      · exact h.memInRam c hc }

theorem State.Inv.buildFir (hn : uintOf s.arg2 ≤ s.cfg.firMaxOrder) : (firBuilt s).Inv := by
  have horder : (BitVec.ofNat 32 (uintOf s.arg2)).toNat ≤ s.cfg.firMaxOrder := by simpa [uintOf] using hn
  have hset : State.Inv { s with firSr := floatOf s.cfg.fmtFir s.arg1, firOrder := BitVec.ofNat 32 (uintOf s.arg2) } :=
    { h with orderFits := horder, firHolds := holdsF_truncF _ _ }
  exact { (hset.designFir (floatOf s.cfg.fmtFir s.arg0)).clearRam (firHistAddr 0) (uintOf s.arg2) with }

theorem State.Inv.pushFir : (s.setMem (firPushed s)).Inv :=
  h.setMem (firPush_wf h.memWf _ _) fun c hc => by
    have horder := h.firOrder_le
    rcases mem_firPush hc with hc | hc
    · simp only [firHistAddr, inRamWindow, byteAddr] at *; omega
    · exact h.memInRam c hc

theorem State.Inv.setUvRate {sr : Word} (hsr : holdsF s.cfg.fmtUv sr) : (uvSetRate sr s).Inv :=
  { h with uvHolds := ⟨hsr, truncF_fmul _ _ _ _, truncF_fmul _ _ _ _⟩ }

/-- A loop that clears buffers and leaves the registers of each stage as the invariant asks. -/
theorem State.Inv.clearStages {f : ℕ → State → State} {g : ℕ → Stage → Stage} {c : ℕ → Stage → ℕ}
    (hf : clearsStage f g c) (hg : ∀ k st, st.Ok s.cfg → (g k st).Ok s.cfg) {n : ℕ} (hn : n ≤ s.cfg.maxStages) :
    (forStages f n s).Inv := by
  refine (forStages_induction (P := fun _ t => t.Inv ∧ t.cfg = s.cfg) n ⟨h, rfl⟩ fun k t hk ⟨ht, hcfg⟩ => ?_).1
  rw [hf]
  refine ⟨(ht.clearRam _ _).setStage (by rw [State.setMem_cfg, hcfg]; omega) ?_, hcfg⟩
  have := hg k _ (hcfg ▸ ht.stage_ok k)
  rwa [State.setMem_cfg, hcfg]

end

/-- A new filter whose capacity fits the RAM: the index is below it, or it has no slot (R32 (a)). -/
theorem Stage.ok_of_resized {c : Config} {st : Stage} {cap : ℕ} (hcap : cap ≤ c.apMaxCap) (hc : c.ok = true)
    (hlen : st.len = BitVec.ofNat 32 cap) (hidx : st.idx = 0) (hfb : holdsF c.fmtUv st.fb)
    (hlfo : holdsF c.fmtUv st.lfo) : st.Ok c where
  lenFits := by rw [hlen, BitVec.toNat_ofNat]; omega
  idxBelow := by
    have hmax := (Config.ok_iff.1 hc).2.2.2.1
    rcases Nat.eq_zero_or_pos cap with rfl | hpos
    · exact .inr ⟨hlen, hidx⟩
    · left; rw [hlen, hidx, BitVec.toNat_ofNat, Nat.mod_eq_of_lt (by omega)]; simpa using hpos
  fbHolds := hfb
  lfoHolds := hlfo

/-- A filter cleared keeps its length (R123). -/
theorem Stage.Ok.restart {c : Config} {st : Stage} (h : st.Ok c) : Stage.Ok c { st with idx := 0 } :=
  { h with
    idxBelow := by
      rcases h.idxBelow with hlt | ⟨hlen, -⟩
      · exact .inl (Nat.lt_of_le_of_lt (Nat.zero_le _) hlt)
      · exact .inr ⟨hlen, rfl⟩ }

theorem Stage.Ok.lfoZero {c : Config} {st : Stage} (h : st.Ok c) : Stage.Ok c { st with lfo := 0 } :=
  { h with lfoHolds := holdsF_zero _ }

section
variable {s : State} (h : s.Inv)
include h

theorem State.Inv.uvCap_le {c : ℕ} {sr : Word} (hfit : uvCapFits s.cfg.fmtUv c s.cfg.apMaxCap sr = true) :
    uvCap s.cfg.fmtUv c sr ≤ s.cfg.apMaxCap := by
  obtain ⟨-, -, hcap, hcap', -⟩ := Config.ok_iff.1 h.cfgOk
  exact uvCap_le_of_fits (by omega) hcap' hfit

theorem State.Inv.buildUv (h0 : uintOf s.arg1 ≠ 0) (hn : uintOf s.arg1 ≤ s.cfg.maxStages)
    (hfit : uvCapFits s.cfg.fmtUv s.draws s.cfg.apMaxCap (floatOf s.cfg.fmtUv s.arg0) = true) : (uvBuilt s).Inv := by
  have hcap := h.uvCap_le hfit
  have hset := h.setUvRate (holdsF_truncF _ s.arg0)
  have hloop := hset.clearStages (uvBuildStage_clears (uintOf s.arg1) _)
    (fun k st hst => by
      split
      · exact Stage.ok_of_resized hcap h.cfgOk rfl rfl (holdsF_zero _) (holdsF_zero _)
      · exact Stage.empty_ok _)
    (Nat.le_refl s.cfg.maxStages)
  have hcfg := (clearsStage_same (uvBuildStage_clears (uintOf s.arg1) (uvCap s.cfg.fmtUv s.draws
    (floatOf s.cfg.fmtUv s.arg0))) s.cfg.maxStages (uvSetRate (floatOf s.cfg.fmtUv s.arg0) s)).cfg_eq
  have hnat : (BitVec.ofNat 32 (uintOf s.arg1)).toNat = uintOf s.arg1 := by simp [uintOf]
  have hnst : BitVec.ofNat 32 (uintOf s.arg1) ≠ 0 := fun he => h0 (by rw [← hnat, he]; rfl)
  exact State.Inv.tick
    { hloop with nstFits := hnat.le.trans (hcfg.symm ▸ hn), nstBuilt := ⟨fun _ => hnst, fun _ => rfl⟩ }

theorem State.Inv.resizeUv
    (hfit : uvCapFits s.cfg.fmtUv s.draws s.cfg.apMaxCap (floatOf s.cfg.fmtUv s.arg0) = true) : (uvResized s).Inv := by
  have hcap := h.uvCap_le hfit
  refine State.Inv.tick ((h.setUvRate (holdsF_truncF _ s.arg0)).clearStages (lfoZero_apResize_clears _) ?_ h.nstFits)
  exact fun k st hst => Stage.ok_of_resized hcap h.cfgOk rfl rfl hst.fbHolds (holdsF_zero _)

theorem State.Inv.resetUv : (forStages (fun k t => lfoZero k (apClear k t)) s.uvNst.toNat s).Inv :=
  h.clearStages lfoZero_apClear_clears (fun _ _ hst => hst.restart.lfoZero) h.nstFits

/-- Each stage of the loop writes one word of its buffer and advances its index round it (R219, R224). -/
theorem State.Inv.runStages {a : UvArgs} (ha : holdsF s.cfg.fmtUv a.feedback) (x : Word) {n : ℕ}
    (hn : n ≤ s.cfg.maxStages) (hlen : ∀ k, k < n → 0 < (s.stage k).len.toNat) : (stageLoop a x s n).1.Inv := by
  induction n with
  | zero => exact h
  | succ n ih =>
    have hprev := ih (by omega) fun k hk => hlen k (by omega)
    have hcfg : (stageLoop a x s n).1.cfg = s.cfg := (stageLoop_same a x s n).cfg_eq
    have hstage := stageLoop_stage_ge a x s (Nat.le_refl n)
    have hok := h.stage_ok n
    have hnext : ((s.stage n).idx.toNat + 1) % (s.stage n).len.toNat < (s.stage n).len.toNat :=
      Nat.mod_lt _ (hlen n (by omega))
    have hn' : n < (stageLoop a x s n).1.cfg.maxStages := by rw [hcfg]; omega
    refine (hprev.writeApBuf hn' (hprev.idx_lt n) _).setStage hn' ?_
    rw [State.setMem_cfg, hcfg, hstage]
    exact
      { lenFits := hok.lenFits
        idxBelow := .inl (by
          rw [BitVec.toNat_ofNat]
          exact Nat.lt_of_le_of_lt (Nat.mod_le _ _) hnext)
        fbHolds := ha
        lfoHolds := hcfg ▸ truncF_lfoAdvance _ _ _ _ _ }

/-- What a completed command leaves meets the invariant. -/
theorem State.Inv.completes {t : State} {i : Instr} (hc : Completes s t i) : t.Inv := by
  cases i with
  | nop => exact hc ▸ h
  | apNew k =>
    obtain ⟨hk, hcap, rfl⟩ := hc
    exact (h.clearRam _ _).setStage hk
      (Stage.ok_of_resized hcap h.cfgOk rfl rfl (holdsF_zero _) (h.stage_ok k).lfoHolds)
  | apReset k =>
    obtain ⟨hk, rfl⟩ := hc
    exact (h.clearRam _ _).setStage hk (h.stage_ok k).restart
  | apSetFb k =>
    obtain ⟨hk, rfl⟩ := hc
    exact h.setStage hk { h.stage_ok k with fbHolds := holdsF_truncF _ _ }
  | iirNew =>
    obtain rfl := hc
    have hset : State.Inv { s with iirSr := floatOf s.cfg.fmtIir s.arg0 } :=
      { h with iirHolds := ⟨holdsF_truncF _ _, h.iirHolds.2⟩ }
    exact { hset.recomputeIir (floatOf s.cfg.fmtIir s.arg1) with }
  | iirSetCut => exact hc.2 ▸ h.recomputeIir _
  | iirProc =>
    obtain ⟨-, rfl⟩ := hc
    obtain ⟨hsr, hb0, ha1, -⟩ := h.iirHolds
    have hset : State.Inv { s with iirY1 := iirProcValue s } :=
      { h with iirHolds := ⟨hsr, hb0, ha1, truncF_fadd _ _ _ _⟩ }
    exact (hset.returnF _ _).tick
  | firNew => exact hc.2 ▸ h.buildFir hc.1
  | firSetCut => exact hc.2 ▸ h.designFir _
  | firProc => exact hc.2 ▸ (h.pushFir.returnF _ _).tick
  | wsGreen | wsRed | wsSigmoid | wsHard =>
    obtain rfl := hc
    exact (h.returnF _ _).tick
  | uvNew =>
    obtain ⟨-, h0, hn, hfit, rfl⟩ := hc
    exact h.buildUv h0 hn hfit
  | uvSetSr =>
    obtain ⟨-, -, hfit, rfl⟩ := hc
    exact h.resizeUv hfit
  | uvReset => exact hc.2 ▸ h.resetUv
  | uvProc =>
    obtain ⟨-, hn, hshort, rfl⟩ := hc
    have hlen (k : ℕ) (hk : k < uintOf s.arg4) : 0 < (s.stage k).len.toNat := by
      by_contra hzero
      exact absurd ((shortStage_iff s _).2 ⟨k, hk, by omega⟩) (by simp [hshort])
    exact ((h.runStages (holdsF_truncF _ _) _ (hn.trans h.nstFits) hlen).returnF _ _).tick

theorem State.Inv.exec {t : State} {i : Instr} (he : exec i s = .next t) : t.Inv := by
  rcases exec_cases he with ⟨c, rfl⟩ | hc
  · exact h.raise _ _
  · exact h.completes hc

end

/-! ## The reset state (R40) -/

theorem stage_resetWith (c : Config) (k : ℕ) : (State.resetWith c).stage k = Stage.empty := by
  rw [State.stage, State.resetWith, Vector.getElem?_replicate]
  split <;> rfl

/-- The reset state meets the invariant: every register is zero and no stage has a filter (R40). -/
theorem resetWith_inv {c : Config} (hc : c.ok = true) : (State.resetWith c).Inv := by
  have hstage (k : ℕ) : ((State.resetWith c).stage k).Ok c := stage_resetWith c k ▸ Stage.empty_ok c
  exact
    { cfgOk := hc
      memWf := rfl
      memInRam := by simp [State.resetWith]
      lenFits := fun k => (hstage k).lenFits
      idxBelow := fun k => (hstage k).idxBelow
      noStage := fun k _ => stage_resetWith c k
      nstFits := Nat.zero_le _
      nstBuilt := by simp [State.resetWith]
      orderFits := Nat.zero_le _
      latchClear := fun _ => ⟨rfl, rfl⟩
      latchSet := by simp [State.resetWith]
      uvHolds := ⟨holdsF_zero _, holdsF_zero _, holdsF_zero _⟩
      stageHolds := fun k => ⟨(hstage k).fbHolds, (hstage k).lfoHolds⟩
      iirHolds := ⟨holdsF_zero _, holdsF_zero _, holdsF_zero _, holdsF_zero _⟩
      firHolds := holdsF_zero _ }

/-! ## The transactions keep the invariant -/

section
variable {s : State} (h : s.Inv)
include h

/-- A store to a mapped word: a register or buffer of an existing stage, or a word of the coefficient or history RAM. -/
theorem State.Inv.store {t : State} {v : Word} {l : Loc} (hl : l.Mapped s) (ht : storeLoc s v l = some t) : t.Inv := by
  obtain ⟨hsr, hb0, ha1, hy1⟩ := h.iirHolds
  cases l with
  | cmd | fcode | finfo | uvSr | uvBase | uvRange | uvNst | iirSr | firSr | firOrder | apLen => cases ht
  | status => cases ht; exact h.writeStatus v
  | res | arg0 | arg1 | arg2 | arg3 | arg4 => cases ht; exact { h with }
  | iirB0 => cases ht; exact { h with iirHolds := ⟨hsr, holdsF_truncF _ _, ha1, hy1⟩ }
  | iirA1 => cases ht; exact { h with iirHolds := ⟨hsr, hb0, holdsF_truncF _ _, hy1⟩ }
  | iirY1 => cases ht; exact { h with iirHolds := ⟨hsr, hb0, ha1, holdsF_truncF _ _⟩ }
  | apIdx k =>
    rw [storeLoc, Option.ite_none_right_eq_some] at ht
    obtain ⟨hidx, ht⟩ := ht
    cases ht
    exact h.setStage hl { h.stage_ok k with idxBelow := .inl hidx }
  | apFb k => cases ht; exact h.setStage hl { h.stage_ok k with fbHolds := holdsF_truncF _ _ }
  | lfoPhase k => cases ht; exact h.setStage hl { h.stage_ok k with lfoHolds := holdsF_truncF _ _ }
  | apBuf k i => cases ht; exact h.writeApBuf hl.1 hl.2.2 v
  | firCoef i =>
    cases ht
    obtain ⟨-, -, hi⟩ := hl
    exact h.writeRam _ (by simp only [firCoefAddr, byteAddr]; omega) (by simp only [firCoefAddr, byteAddr]; omega) v
  | firHist i =>
    cases ht
    obtain ⟨-, -, hi⟩ := hl
    exact h.writeRam _ (by simp only [firHistAddr, byteAddr]; omega) (by simp only [firHistAddr, byteAddr]; omega) v

theorem State.Inv.busRead (a : BusAddr) : (busRead s a).Inv := by
  cases hl : locate s a with
  | none => exact busRead_of_none hl ▸ (h.raise _ _).logRead _
  | some l => exact busRead_of_some hl ▸ h.logRead _

theorem State.Inv.busWrite {a : BusAddr} {v : Word} {t : State} (ht : busWrite s a v = .next t) : t.Inv := by
  by_cases ha : a = 0
  · rw [Machine.busWrite, if_pos ha] at ht
    rcases issue_cases ht with ⟨-, rfl⟩ | ⟨-, i, -, he⟩ | ⟨-, -, rfl⟩
    · exact h
    · exact (h.setCmd _).exec he
    · exact (h.setCmd _).raise _ _
  · rw [busWrite_of_ne ha] at ht
    obtain rfl := next_inj ht
    rcases busStore_cases s a v with ⟨l, t, hl, hst, he⟩ | ⟨-, he⟩
    · exact he ▸ h.store (locate_mapped hl) hst
    · exact he ▸ h.raise _ _

theorem State.Inv.transact {e : Event} {t : State} (ht : transact s e = .next t) : t.Inv := by
  cases e with
  | rd a => exact next_inj ht ▸ h.busRead a
  | wr a v => exact h.busWrite ht
  | rdBytes a n =>
    simp only [Machine.transact] at ht
    split at ht
    · exact next_inj ht ▸ h.busRead _
    · exact next_inj ht ▸ (h.raise _ _).logRead _
  | wrBytes a d =>
    simp only [Machine.transact] at ht
    split at ht
    · exact h.busWrite ht
    · exact next_inj ht ▸ h.raise _ _
  | assertReset => exact next_inj ht ▸ { h with }
  | releaseReset => exact next_inj ht ▸ h

theorem State.Inv.transactInReset {e : Event} {t : State} (ht : transactInReset s e = .next t) : t.Inv := by
  cases e with
  | rd | wr | rdBytes | wrBytes => cases ht
  | assertReset => exact next_inj ht ▸ h
  | releaseReset => exact next_inj ht ▸ { resetWith_inv h.cfgOk with }

end

/-- Settles O12: the host's next transaction, in reset or out of it, keeps the invariant. -/
theorem everyStepKeepsTheInvariant : Obligations.EveryStepKeepsTheInvariant := by
  intro s t h hstep
  cases hp : s.pending with
  | nil => exact next_inj (step_nil hp ▸ hstep) ▸ h
  | cons e rest =>
    have hrest : State.Inv { s with pending := rest } := { h with }
    cases hr : s.inReset with
    | false => exact hrest.transact (step_cons hp hr ▸ hstep)
    | true => exact hrest.transactInReset (step_cons_inReset hp hr ▸ hstep)

/-- Settles O10. -/
theorem blockWaitsForTheHost : Obligations.BlockWaitsForTheHost := fun _ h => step_nil h

/-- Settles O11, the defaults of R7 being one legal configuration. -/
theorem resetMeetsTheInvariant : Obligations.ResetMeetsTheInvariant :=
  ⟨resetWith_inv (by decide), fun _ hc => resetWith_inv hc⟩

/-! ## Reads and writes of the mapped words (R37, R40, R70) -/

/-- Settles O9, word by word; no stage has a length and the FIR filter is not constructed, so no RAM word is mapped. -/
theorem resetRegistersReadZero : Obligations.ResetRegistersReadZero := by
  intro c a l hl
  have hmap := locate_mapped hl
  have hbuf (k i : ℕ) : l ≠ .apBuf k i := by
    rintro rfl
    obtain ⟨-, hi, -⟩ := hmap
    rw [stage_resetWith] at hi
    exact Nat.not_lt_zero i hi
  have hcoef (i : ℕ) : l ≠ .firCoef i := by rintro rfl; exact Bool.false_ne_true hmap.1
  have hhist (i : ℕ) : l ≠ .firHist i := by rintro rfl; exact Bool.false_ne_true hmap.1
  refine ⟨?_, hbuf, hcoef, hhist⟩
  cases l with
  | status => simp [loadLoc, statusWord, flagBit, State.resetWith]
  | cmd | fcode | finfo | res | arg0 | arg1 | arg2 | arg3 | arg4 | uvNst | firOrder => rfl
  | uvSr | uvBase | uvRange | iirSr | iirB0 | iirA1 | iirY1 | firSr => exact holdsF_zero _
  | apLen k | apIdx k => rw [loadLoc, stage_resetWith]; rfl
  | apFb k | lfoPhase k => rw [loadLoc, stage_resetWith]; exact holdsF_zero _
  | apBuf k i => exact absurd rfl (hbuf k i)
  | firCoef i => exact absurd rfl (hcoef i)
  | firHist i => exact absurd rfl (hhist i)

/-- An accepted store, as a step. -/
theorem step_of_store {s t : State} {a : BusAddr} {v w : Word} {rest : List Event} {l : Loc}
    (hp : s.pending = .wr a v :: rest) (hr : s.inReset = false) (hl : locate s a = some l) (hcmd : l ≠ .cmd)
    (ht : storeLoc { s with pending := rest } v l = some t) (hload : loadLoc t l = w) :
    ∃ t, step s = .next t ∧ loadLoc t l = w := by
  have ha : a ≠ 0 := by rintro rfl; exact hcmd (Option.some.inj hl).symm
  have hl' : locate { s with pending := rest } a = some l := hl
  refine ⟨t, ?_, hload⟩
  rw [step_cons hp hr, transact, busWrite_of_ne ha, busStore_of_some hl' ht]

/-- Settles O16, word by word. -/
theorem acceptedWriteIsReadBack : Obligations.AcceptedWriteIsReadBack := by
  intro s a v rest l h hp hr hl
  have hmap := locate_mapped hl
  have hmax := h.maxStages_le
  refine ⟨fun hwide => ?_, fun F hF => ?_, fun k hk hlt => ?_⟩
  · have hcmd : l ≠ .cmd := by rintro rfl; cases hwide
    cases l with
    | res | arg0 | arg1 | arg2 | arg3 | arg4 => exact step_of_store hp hr hl hcmd rfl rfl
    | _ => cases hwide
  · have hcmd : l ≠ .cmd := by rintro rfl; cases hF
    cases l with
    | iirB0 | iirA1 | iirY1 =>
      cases hF
      exact step_of_store hp hr hl hcmd rfl (truncF_truncF _ _)
    | apFb k | lfoPhase k =>
      cases hF
      refine step_of_store hp hr hl hcmd rfl ?_
      rw [loadLoc, State.stage_setStage_self _ (Nat.lt_of_lt_of_le hmap hmax)]
      exact truncF_truncF _ _
    | apBuf k i =>
      cases hF
      exact step_of_store hp hr hl hcmd rfl (ramRead_ramWrite_self _ h.memWf _ _)
    | firCoef i | firHist i =>
      cases hF
      exact step_of_store hp hr hl hcmd rfl (ramRead_ramWrite_self _ h.memWf _ _)
    | _ => cases hF
  · subst hk
    refine step_of_store hp hr hl (by simp) (if_pos hlt) ?_
    rw [loadLoc, State.stage_setStage_self _ (Nat.lt_of_lt_of_le hmap hmax)]

/-! ## The RAM windows of the units (R38) -/

/-- A buffer of the all-pass window lies below the windows of the FIR filter. -/
theorem apBufAddr_le_of_inFirWindow {k n a : ℕ} (hk : k < 16) (hn : n ≤ 0x1000) (ha : inFirWindow a) :
    apBufAddr k n ≤ a := by
  simp only [inFirWindow, apBufAddr, byteAddr] at *; omega

theorem lt_firCoefAddr_of_inApWindow {a : ℕ} (ha : inApWindow a) (i : ℕ) : a < firCoefAddr i := by
  simp only [inApWindow, firCoefAddr, byteAddr] at *; omega

theorem lt_firHistAddr_of_inApWindow {a : ℕ} (ha : inApWindow a) (i : ℕ) : a < firHistAddr i := by
  simp only [inApWindow, firHistAddr, byteAddr] at *; omega

section
variable {i : Instr} {s t : State} {a : ℕ} (h : s.Inv)
include h

theorem memRead_apClear_of_inFirWindow (ha : inFirWindow a) {k cap : ℕ} (hk : k < s.cfg.maxStages)
    (hcap : cap ≤ 0x1000) :
    memRead (ramClear s.mem (apBufAddr k 0) cap) a = memRead s.mem a := by
  have hmax := h.maxStages_le
  have hle := apBufAddr_le_of_inFirWindow (k := k) (by omega) hcap ha
  rw [apBufAddr_eq] at hle
  exact memRead_ramClear_outside _ (.inr hle)

/-- Clearing the buffers of existing stages does not reach the windows of the FIR filter. -/
theorem memRead_clearsStage_of_inFirWindow (ha : inFirWindow a) {f : ℕ → State → State} {g : ℕ → Stage → Stage}
    {c : ℕ → Stage → ℕ} (hf : clearsStage f g c) {n : ℕ} (hn : n ≤ s.cfg.maxStages)
    (hcap : ∀ k, c k (s.stage k) ≤ 0x1000) :
    memRead (forStages f n s).mem a = memRead s.mem a := by
  have hmax := h.maxStages_le
  exact clearsStage_memRead hf (by omega) s fun k hk => .inr (apBufAddr_le_of_inFirWindow (by omega) (hcap k) ha)

theorem Completes.memRead_of_inFirWindow (hc : Completes s t i) (hi : ofFir i = false) (ha : inFirWindow a) :
    memRead t.mem a = memRead s.mem a := by
  have hcap : s.cfg.apMaxCap ≤ 0x1000 := (Config.ok_iff.1 h.cfgOk).2.2.2.1
  cases i with
  | firNew | firSetCut | firProc => cases hi
  | apNew k =>
    obtain ⟨hk, hn, rfl⟩ := hc
    exact memRead_apClear_of_inFirWindow h ha hk (hn.trans hcap)
  | apReset k =>
    obtain ⟨hk, rfl⟩ := hc
    exact memRead_apClear_of_inFirWindow h ha hk (h.len_le k)
  | uvNew =>
    obtain ⟨-, -, -, hfit, rfl⟩ := hc
    have hfits := h.uvCap_le hfit
    exact memRead_clearsStage_of_inFirWindow (h.setUvRate (holdsF_truncF _ _)) ha (uvBuildStage_clears _ _)
      (Nat.le_refl _) fun k => by split <;> omega
  | uvSetSr =>
    obtain ⟨-, -, hfit, rfl⟩ := hc
    exact memRead_clearsStage_of_inFirWindow (h.setUvRate (holdsF_truncF _ _)) ha (lfoZero_apResize_clears _)
      h.nstFits fun k => (h.uvCap_le hfit).trans hcap
  | uvReset =>
    obtain ⟨-, rfl⟩ := hc
    exact memRead_clearsStage_of_inFirWindow h ha lfoZero_apClear_clears h.nstFits h.len_le
  | uvProc =>
    obtain ⟨-, hn, -, rfl⟩ := hc
    have hmax := h.uvNst_le
    refine stageLoop_memRead _ _ s fun k hk => .inr ?_
    have hle := apBufAddr_le_of_inFirWindow (k := k) (by omega) (h.idx_lt k) ha
    rw [apBufAddr_eq] at hle ⊢
    exact hle
  | _ => exact hc.changesOnly .mem (by simp [touches]) a

end

theorem Completes.memRead_of_inApWindow {i : Instr} {s t : State} {a : ℕ} (hc : Completes s t i)
    (hi : ofUniVibe i = false) (ha : inApWindow a) : memRead t.mem a = memRead s.mem a := by
  cases i with
  | apNew | apReset | apSetFb | uvNew | uvSetSr | uvReset | uvProc => cases hi
  | firNew =>
    obtain ⟨-, rfl⟩ := hc
    exact (memRead_ramClear_outside _ (.inl (lt_firHistAddr_of_inApWindow ha 0))).trans
      (memRead_firWriteTaps_outside (.inl (lt_firCoefAddr_of_inApWindow ha 0)))
  | firSetCut => obtain ⟨-, rfl⟩ := hc; exact memRead_firWriteTaps_outside (.inl (lt_firCoefAddr_of_inApWindow ha 0))
  | firProc => obtain ⟨-, rfl⟩ := hc; exact memRead_firPush_outside (.inl (lt_firHistAddr_of_inApWindow ha 0))
  | _ => exact hc.changesOnly .mem (by simp [touches]) a

/-- Settles O30: the registers and flags by the frame, the RAMs by the windows. -/
theorem commandsWriteOnlyTheirUnit : Obligations.CommandsWriteOnlyTheirUnit := by
  intro i s t h he
  have hframe := exec_changesOnly he
  refine ⟨fun hi => hframe .iir (by simp [iir_mem_touches, hi]), fun hi => ?_, fun hi => ?_⟩
  · refine ⟨hframe .firRegs (by simp [firRegs_notMem_touches hi]),
      hframe .firWarn (by simp [firWarn_notMem_touches hi]), fun a ha => ?_⟩
    rcases exec_cases he with ⟨c, rfl⟩ | hc
    · simp [State.raiseCmd]
    · exact hc.memRead_of_inFirWindow h hi ha
  · refine ⟨hframe .uvRegs (by simp [uvRegs_notMem_touches hi]), hframe .stages (by simp [stages_notMem_touches hi]),
      fun a ha => ?_⟩
    rcases exec_cases he with ⟨c, rfl⟩ | hc
    · simp [State.raiseCmd]
    · exact hc.memRead_of_inApWindow hi ha

/-! ## A state with the registers of the other units replaced (R38) -/

/-- The unit whose registers a command works on; `none` of `NOP` and the waveshapers. -/
inductive Owner where
  | none
  | uniVibe
  | iir
  | fir

/-- The unit of each command (R38), as `ofUniVibe`, `ofIir` and `ofFir` say it. -/
def ownerOf : Instr → Owner
  | .apNew _ | .apReset _ | .apSetFb _ | .uvNew | .uvSetSr | .uvReset | .uvProc => .uniVibe
  | .iirNew | .iirSetCut | .iirProc => .iir
  | .firNew | .firSetCut | .firProc => .fir
  | .nop | .wsGreen | .wsRed | .wsSigmoid | .wsHard => .none

theorem ownerOf_eq_uniVibe {i : Instr} : ownerOf i = .uniVibe ↔ ofUniVibe i = true := by
  cases i <;> simp [ownerOf, ofUniVibe]
theorem ownerOf_eq_iir {i : Instr} : ownerOf i = .iir ↔ ofIir i = true := by
  cases i <;> simp [ownerOf, ofIir]
theorem ownerOf_eq_fir {i : Instr} : ownerOf i = .fir ↔ ofFir i = true := by
  cases i <;> simp [ownerOf, ofFir]

/-- `s` with the registers of the IIR filter of `r`. -/
def State.takeIir (r s : State) : State :=
  { s with iirOk := r.iirOk, iirSr := r.iirSr, iirB0 := r.iirB0, iirA1 := r.iirA1, iirY1 := r.iirY1 }

/-- `s` with the registers and flags of the FIR filter of `r`. -/
def State.takeFir (r s : State) : State :=
  { s with firOk := r.firOk, firWarn := r.firWarn, firSr := r.firSr, firOrder := r.firOrder }

/-- `s` with the registers and stages of UniVibe of `r`. -/
def State.takeUv (r s : State) : State :=
  { s with
    uvOk := r.uvOk, uvSr := r.uvSr, uvBase := r.uvBase, uvRange := r.uvRange, uvNst := r.uvNst, stages := r.stages }

/-- The state `s` with the registers of `r` in every unit but that of the owner. -/
def State.takeOthers (r : State) : Owner → State → State
  | .none, s => r.takeUv (r.takeIir (r.takeFir s))
  | .uniVibe, s => r.takeIir (r.takeFir s)
  | .iir, s => r.takeUv (r.takeFir s)
  | .fir, s => r.takeUv (r.takeIir s)

/-- An outcome with its next state changed. -/
def mapNext (f : State → State) : Host.Outcome State Fault Refusal → Host.Outcome State Fault Refusal
  | .next s => .next (f s)
  | .fault e => .fault e
  | .refused e => .refused e

theorem raiseCmd_takeOthers (r : State) (u : Owner) (s : State) (c : FaultCause) (i : Instr) :
    (r.takeOthers u s).raiseCmd c i = r.takeOthers u (s.raiseCmd c i) := by
  unfold State.raiseCmd State.raise
  cases u <;> simp only [apply_ite (State.takeOthers r _)] <;> rfl

section
variable {r s a a' : State} {u : Owner} {c c' : Prop} [Decidable c] [Decidable c'] {e : FaultCause} {i : Instr}

/-- A check that both states answer alike, and a rest that does the same. -/
theorem fault_else_takeOthers {o o' : Host.Outcome State Fault Refusal} (hc : c' ↔ c)
    (ho : o' = mapNext (r.takeOthers u) o) :
    (if c' then .next ((r.takeOthers u s).raiseCmd e i) else o') =
      mapNext (r.takeOthers u) (if c then .next (s.raiseCmd e i) else o) := by
  rw [if_congr hc rfl rfl, ho, raiseCmd_takeOthers]
  split <;> rfl

theorem complete_else_takeOthers (ha : a' = r.takeOthers u a) :
    (if c then .next a' else .next ((r.takeOthers u s).raiseCmd e i)) =
      mapNext (r.takeOthers u) (if c then .next a else .next (s.raiseCmd e i)) := by
  rw [ha, raiseCmd_takeOthers]
  split <;> rfl

end

/-- What commutes with each iteration commutes with the loop. -/
theorem forStages_comm {f : State → State} {b : ℕ → State → State} (h : ∀ k s, b k (f s) = f (b k s)) (n : ℕ)
    (s : State) : forStages b n (f s) = f (forStages b n s) := by
  induction n with
  | zero => rfl
  | succ n ih => rw [forStages, ih, h, forStages]

theorem uvBuildStage_takeOthers (r : State) (n cap k : ℕ) (s : State) :
    uvBuildStage n cap k (r.takeOthers .uniVibe s) = r.takeOthers .uniVibe (uvBuildStage n cap k s) := by
  unfold uvBuildStage
  split <;> rfl

theorem stageLoop_takeOthers (r : State) (a : UvArgs) (x : Word) (s : State) (n : ℕ) :
    stageLoop a x (r.takeOthers .uniVibe s) n =
      (r.takeOthers .uniVibe (stageLoop a x s n).1, (stageLoop a x s n).2) := by
  induction n with
  | zero => rfl
  | succ n ih => rw [stageLoop, ih]; rfl

theorem shortStage_congr {s t : State} (h : ∀ k, t.stage k = s.stage k) (n : ℕ) : shortStage t n = shortStage s n := by
  induction n with
  | zero => rfl
  | succ n ih => rw [shortStage, ih, h, shortStage]

/-- A command does the same whatever the registers of the other units hold, and leaves them. -/
theorem exec_takeOthers (r : State) (i : Instr) (s : State) :
    exec i (r.takeOthers (ownerOf i) s) = mapNext (r.takeOthers (ownerOf i)) (exec i s) := by
  cases i with
  | nop | wsGreen | wsRed | wsSigmoid | wsHard | iirNew => rfl
  | apNew k => exact fault_else_takeOthers .rfl (fault_else_takeOthers .rfl rfl)
  | apReset k | apSetFb k => exact fault_else_takeOthers .rfl rfl
  | iirSetCut | iirProc | firSetCut | firProc => exact complete_else_takeOthers rfl
  | firNew => exact fault_else_takeOthers .rfl rfl
  | uvNew =>
    have hloop := forStages_comm (uvBuildStage_takeOthers r (uintOf s.arg1)
      (uvCap s.cfg.fmtUv s.draws (floatOf s.cfg.fmtUv s.arg0))) s.cfg.maxStages
      (uvSetRate (floatOf s.cfg.fmtUv s.arg0) s)
    exact fault_else_takeOthers .rfl (fault_else_takeOthers .rfl (fault_else_takeOthers .rfl
      (fault_else_takeOthers .rfl (congrArg (fun t => Host.Outcome.next
        (State.tick { t with uvNst := BitVec.ofNat 32 (uintOf s.arg1), uvOk := true })) hloop))))
  | uvSetSr =>
    have hloop := forStages_comm (f := r.takeOthers .uniVibe)
      (b := fun k t => lfoZero k (apResize (uvCap s.cfg.fmtUv s.draws (floatOf s.cfg.fmtUv s.arg0)) k t))
      (fun _ _ => rfl) s.uvNst.toNat (uvSetRate (floatOf s.cfg.fmtUv s.arg0) s)
    exact fault_else_takeOthers .rfl (fault_else_takeOthers .rfl (fault_else_takeOthers .rfl
      (congrArg (fun t => Host.Outcome.next t.tick) hloop)))
  | uvReset =>
    have hloop := forStages_comm (f := r.takeOthers .uniVibe) (b := fun k t => lfoZero k (apClear k t)) (fun _ _ => rfl)
      s.uvNst.toNat s
    exact complete_else_takeOthers hloop
  | uvProc =>
    have hshort := shortStage_congr (s := s) (t := r.takeOthers .uniVibe s) (fun _ => rfl) (uintOf s.arg4)
    have hloop := stageLoop_takeOthers r (uvArgs s) (floatOf s.cfg.fmtUv s.arg0) s (uintOf s.arg4)
    exact fault_else_takeOthers .rfl (fault_else_takeOthers .rfl (fault_else_takeOthers (by rw [← hshort]; rfl)
      (congrArg (fun p => Host.Outcome.next (p.1.returnF s.cfg.fmtUv p.2).tick) hloop)))

/-- Settles O31: with the registers of `s` itself nothing is replaced, so `t` has those of `s` in every other unit; then
one unit's are replaced. -/
theorem commandsReadNoRegisterOfAnotherUnit : Obligations.CommandsReadNoRegisterOfAnotherUnit := by
  intro i s t h
  have hall (r : State) : exec i (r.takeOthers (ownerOf i) s) = .next (r.takeOthers (ownerOf i) t) := by
    rw [exec_takeOthers, h, mapNext]
  have hself : s.takeOthers (ownerOf i) s = s := by cases ownerOf i <;> rfl
  obtain ⟨t, rfl⟩ : ∃ t', t = s.takeOthers (ownerOf i) t' := ⟨t, next_inj (by rw [← hall s, hself, h])⟩
  refine ⟨fun hi ok sr b0 a1 y1 => ?_, fun hi ok warn sr order => ?_, fun hi ok sr base range nst st => ?_⟩
  · have hu : ownerOf i ≠ .iir := by simp [ownerOf_eq_iir, hi]
    have hr := hall { s with iirOk := ok, iirSr := sr, iirB0 := b0, iirA1 := a1, iirY1 := y1 }
    generalize ownerOf i = u at hu hr
    cases u with
    | iir => exact absurd rfl hu
    | none | uniVibe | fir => exact hr
  · have hu : ownerOf i ≠ .fir := by simp [ownerOf_eq_fir, hi]
    have hr := hall { s with firOk := ok, firWarn := warn, firSr := sr, firOrder := order }
    generalize ownerOf i = u at hu hr
    cases u with
    | fir => exact absurd rfl hu
    | none | uniVibe | iir => exact hr
  · have hu : ownerOf i ≠ .uniVibe := by simp [ownerOf_eq_uniVibe, hi]
    have hr := hall { s with uvOk := ok, uvSr := sr, uvBase := base, uvRange := range, uvNst := nst, stages := st }
    generalize ownerOf i = u at hu hr
    cases u with
    | uniVibe => exact absurd rfl hu
    | none | iir | fir => exact hr

end Sys2Proof.Machine

/-! The bus (20_memory.md R60 to R70): what a read and a write of each address do, and the byte-addressed mapping. -/

namespace Sys2Proof.Machine

/-! ## A refused access (R289, R293) -/

section
variable {s : State} {a : BusAddr} {rest : List Event}

theorem State.raiseBus_of_clear (h : s.fault = false) : s.raiseBus a = faultedState s 0x07 (a.setWidth 64) :=
  State.raise_of_clear h _ _

theorem State.raiseBus_of_set (h : s.fault = true) : s.raiseBus a = s := State.raise_of_set h _ _

/-- A write that is refused, with and without a fault latched before. -/
theorem step_latches_of_raiseBus (h : step s = .next (State.raiseBus { s with pending := rest } a)) :
    (s.fault = false → step s = .next (faultedState { s with pending := rest } 0x07 (a.setWidth 64))) ∧
    (s.fault = true → step s = .next { s with pending := rest }) :=
  ⟨fun hf => h.trans (congrArg _ (State.raiseBus_of_clear hf)), fun hf => h.trans (congrArg _ (State.raiseBus_of_set hf))⟩

/-- A read that is refused, with and without a fault latched before. -/
theorem step_latches_of_raiseBus_logRead (h : step s = .next ((State.raiseBus { s with pending := rest } a).logRead 0)) :
    (s.fault = false →
      step s = .next (faultedState { s with pending := rest, readLog := s.readLog ++ [0] } 0x07 (a.setWidth 64))) ∧
    (s.fault = true → step s = .next { s with pending := rest, readLog := s.readLog ++ [0] }) :=
  ⟨fun hf => by rw [h, State.raiseBus_of_clear (s := { s with pending := rest }) hf]; rfl,
    fun hf => by rw [h, State.raiseBus_of_set (s := { s with pending := rest }) hf]; rfl⟩

end

/-! ## Reads (R62) -/

/-- Settles O14: the words the address map lists are read as `loadLoc` says, by their place in the map. -/
theorem readReturnsTheWordOrFaults : Obligations.ReadReturnsTheWordOrFaults := by
  intro s a rest hp hr reads
  obtain ⟨hstage, hbuf, hcoef, hhist, -, -⟩ := addressMapIsTheTable s
  have hread (l : Loc) (hl : locate s a = some l) : reads (loadLoc s l) := by
    have hl' : locate { s with pending := rest } a = some l := hl
    exact (step_cons hp hr).trans (congrArg _ (busRead_of_some hl'))
  have hfault (hl : locate s a = none) : step s = .next ((State.raiseBus { s with pending := rest } a).logRead 0) := by
    have hl' : locate { s with pending := rest } a = none := hl
    exact (step_cons hp hr).trans (congrArg _ (busRead_of_none hl'))
  refine ⟨hread, fun p hmem ha => ?_, fun k hk hmax => ?_, fun hok => ⟨fun i hi hle ha => ?_, fun i hi hlt ha => ?_⟩,
    fun hl => (step_latches_of_raiseBus_logRead (hfault hl)).1, fun hl => (step_latches_of_raiseBus_logRead (hfault hl)).2⟩
  · subst ha
    fin_cases hmem <;> exact (hread _ rfl :)
  · have hreg (r : ℕ) (hr : r < 4) (ha : a = BitVec.ofNat 20 (0x100 + r + 4 * k)) : locate s a =
        some (if r = 0 then .apLen k else if r = 1 then .apIdx k else if r = 2 then .apFb k else .lfoPhase k) := by
      rw [ha, Nat.add_right_comm, hstage k r hk hr, if_pos hmax]
    exact ⟨fun ha => hread _ (hreg 0 (by decide) ha), fun ha => hread _ (hreg 1 (by decide) ha),
      fun ha => hread _ (hreg 2 (by decide) ha), fun ha => hread _ (hreg 3 (by decide) ha),
      fun i hi hlen ha => hread (.apBuf k i) (by rw [ha, hbuf k i hk hi, if_pos ⟨hmax, hlen⟩])⟩
  · exact hread (.firCoef i) (by rw [ha, hcoef i hi, if_pos ⟨hok, hle⟩])
  · exact hread (.firHist i) (by rw [ha, hhist i hi, if_pos ⟨hok, hlt⟩])

/-! ## Which writes are stored (R63, R70) -/

section
variable {s : State} {a : BusAddr} {v : Word} {l : Loc}

theorem storeLoc_of_readOnly (h : readOnlyLoc l = true) : storeLoc s v l = none := by
  cases l with
  | fcode | finfo | uvSr | uvBase | uvRange | uvNst | iirSr | firSr | firOrder | apLen => rfl
  | _ => cases h

/-- A writable word other than `CMD` is stored, an index if it is below the length. -/
theorem exists_storeLoc (hcmd : l ≠ .cmd) (hw : readOnlyLoc l = false)
    (hidx : ∀ k, l = .apIdx k → uintOf v < (s.stage k).len.toNat) : ∃ t, storeLoc s v l = some t := by
  cases l with
  | cmd => exact absurd rfl hcmd
  | fcode | finfo | uvSr | uvBase | uvRange | uvNst | iirSr | firSr | firOrder | apLen => cases hw
  | apIdx k => exact ⟨_, if_pos (hidx k rfl)⟩
  | _ => exact ⟨_, rfl⟩

/-- `CMD` is at address 0. -/
theorem ne_zero_of_locate_ne_cmd (h : locate s a ≠ some .cmd) : a ≠ 0 := by rintro rfl; exact h rfl

theorem busStore_of_refused (h : (locate s a).bind (storeLoc s v) = none) : busStore s a v = s.raiseBus a := by
  rw [busStore, h]

end

/-- Settles O15: in none of the three cases is the word stored. -/
theorem refusedWriteChangesNothingAndFaults : Obligations.RefusedWriteChangesNothingAndFaults := by
  intro s a v rest hp hr hrefused
  have hnotCmd : locate s a ≠ some .cmd := by
    rcases hrefused with hl | ⟨l, hl, hro⟩ | ⟨k, hl, -⟩ <;> rw [hl]
    · simp
    · rintro ⟨⟩; cases hro
    · simp
  have hnone : (locate s a).bind (storeLoc { s with pending := rest } v) = none := by
    rcases hrefused with hl | ⟨l, hl, hro⟩ | ⟨k, hl, hle⟩ <;> rw [hl]
    · rfl
    · exact storeLoc_of_readOnly hro
    · exact if_neg (Nat.not_lt.2 hle)
  apply step_latches_of_raiseBus
  rw [step_cons hp hr, transact, busWrite_of_ne (ne_zero_of_locate_ne_cmd hnotCmd)]
  exact congrArg _ (busStore_of_refused hnone)

/-! ## The RAM words (R36, R64) -/

/-- The format and the byte address of a word of RAM; the registers are not in RAM. -/
def Loc.ramWord (c : Config) : Loc → Option (Fmt × ℕ)
  | .apBuf k i => some (c.fmtUv, apBufAddr k i)
  | .firCoef i => some (c.fmtFir, firCoefAddr i)
  | .firHist i => some (c.fmtFir, firHistAddr i)
  | .cmd | .status | .fcode | .finfo | .res | .arg0 | .arg1 | .arg2 | .arg3 | .arg4 | .uvSr | .uvBase | .uvRange
  | .uvNst | .iirSr | .iirB0 | .iirA1 | .iirY1 | .firSr | .firOrder | .apLen _ | .apIdx _ | .apFb _ | .lfoPhase _ => none

section
variable {s : State} {a b : BusAddr} {F G : Fmt} {x y : ℕ} {l m : Loc}

theorem loadLoc_of_ramWord (h : l.ramWord s.cfg = some (F, x)) : loadLoc s l = ramRead F s.mem x := by
  cases l with
  | apBuf | firCoef | firHist => cases h; rfl
  | _ => cases h

theorem loadLoc_setMem_of_register (mem : Memory) (h : l.ramWord s.cfg = none) : loadLoc (s.setMem mem) l = loadLoc s l := by
  cases l with
  | apBuf | firCoef | firHist => cases h
  | _ => rfl

/-- A word of RAM is at the byte address of its bus address. -/
theorem ramWord_of_locate (hl : locate s a = some l) (h : l.ramWord s.cfg = some (F, x)) : x = byteAddr a.toNat := by
  rcases locate_cases hl with ⟨-, hreg⟩ | ⟨k, -, hreg⟩ | ⟨k, i, -, -, -, -, ha, rfl⟩ | ⟨i, -, -, -, ha, rfl⟩ |
    ⟨i, -, -, -, ha, rfl⟩
  · unfold locateRegister at hreg
    split at hreg <;> cases hreg <;> cases h
  · rcases hreg with ⟨-, rfl⟩ | ⟨-, rfl⟩ | ⟨-, rfl⟩ | ⟨-, rfl⟩ <;> cases h
  all_goals cases h; rw [ha]; rfl

/-- As `ramRead_ramWrite_ne`, for words of different formats. -/
theorem ramRead_ramWrite_of_disjoint (F G : Fmt) (mem : Memory) (v : Word) (h : y + 8 ≤ x ∨ x + 8 ≤ y) :
    ramRead G (ramWrite F mem x v) y = ramRead G mem y :=
  memReadBytes_congr fun c h1 h2 => memRead_ramWrite_outside F mem v (by have := fmtBytes_le G; omega)

/-- A word of RAM written leaves every other mapped word alone. -/
theorem loadLoc_ramWrite (hl : locate s a = some l) (hx : l.ramWord s.cfg = some (F, x)) (hm : locate s b = some m)
    (hne : m ≠ l) (v : Word) : loadLoc (s.setMem (ramWrite F s.mem x v)) m = loadLoc s m := by
  cases hy : m.ramWord s.cfg with
  | none => exact loadLoc_setMem_of_register _ hy
  | some w =>
    obtain ⟨G, y⟩ := w
    have hab : a.toNat ≠ b.toNat := fun e => by
      rw [BitVec.eq_of_toNat_eq e, hm] at hl
      exact hne (Option.some.inj hl)
    have hx' : x = 8 * a.toNat := ramWord_of_locate hl hx
    have hy' : y = 8 * b.toNat := ramWord_of_locate hm hy
    rw [loadLoc_of_ramWord (s := s.setMem (ramWrite F s.mem x v)) hy, loadLoc_of_ramWord hy]
    exact ramRead_ramWrite_of_disjoint F G s.mem v (by omega)

end

/-! ## The stage registers (R30, R31) -/

section
variable {s : State} {k : ℕ} {st : Stage}

/-- What the replaced registers of stage `k` agree on with those before is unchanged in every stage. -/
theorem State.setStage_congr {β : Type} (f : Stage → β) {j : ℕ} (h : j = k → f st = f (s.stage k)) :
    f ((s.setStage k st).stage j) = f (s.stage j) := by
  rw [State.stage_setStage]
  split
  · next hj => rw [h hj.1.symm, hj.1]
  · rfl

theorem locate_setStage (hlen : st.len = (s.stage k).len) (b : BusAddr) : locate (s.setStage k st) b = locate s b := by
  have hlens (j : ℕ) : ((s.setStage k st).stage j).len = (s.stage j).len := State.setStage_congr Stage.len fun _ => hlen
  have hbuf : locateBuffer (s.setStage k st) = locateBuffer s := by
    funext n
    simp only [locateBuffer, hlens]
    rfl
  rw [locate, hbuf]
  rfl

/-- Replacing the registers of a stage changes no word but those of them that are new. -/
theorem loadLoc_setStage {m : Loc} (hlen : m = .apLen k → st.len = (s.stage k).len)
    (hidx : m = .apIdx k → st.idx = (s.stage k).idx) (hfb : m = .apFb k → st.fb = (s.stage k).fb)
    (hlfo : m = .lfoPhase k → st.lfo = (s.stage k).lfo) : loadLoc (s.setStage k st) m = loadLoc s m := by
  cases m with
  | apLen j => exact congrArg (BitVec.setWidth 64) (State.setStage_congr Stage.len fun e => hlen (congrArg _ e))
  | apIdx j => exact congrArg (BitVec.setWidth 64) (State.setStage_congr Stage.idx fun e => hidx (congrArg _ e))
  | apFb j => exact congrArg (truncF s.cfg.fmtUv) (State.setStage_congr Stage.fb fun e => hfb (congrArg _ e))
  | lfoPhase j => exact congrArg (truncF s.cfg.fmtUv) (State.setStage_congr Stage.lfo fun e => hlfo (congrArg _ e))
  | _ => rfl

end

/-! ## What a store leaves unchanged (R63, R69) -/

section
variable {s t : State} {a b : BusAddr} {v : Word} {l m : Loc} (ht : storeLoc s v l = some t)
include ht

/-- A store maps and unmaps no address. -/
theorem locate_storeLoc (b : BusAddr) : locate t b = locate s b := by
  cases l with
  | cmd | fcode | finfo | uvSr | uvBase | uvRange | uvNst | iirSr | firSr | firOrder | apLen => cases ht
  | status => cases ht; rw [State.writeStatus]; split <;> split <;> rfl
  | apIdx k =>
    obtain ⟨-, ht⟩ := Option.ite_none_right_eq_some.1 ht
    cases ht
    exact locate_setStage (by rfl) b
  | apFb k | lfoPhase k => cases ht; exact locate_setStage (by rfl) b
  | res | arg0 | arg1 | arg2 | arg3 | arg4 | iirB0 | iirA1 | iirY1 | apBuf | firCoef | firHist => cases ht; rfl

/-- A store changes no other mapped word; one of `STATUS` may clear `FCODE` and `FINFO` with the latch (R294). -/
theorem loadLoc_storeLoc (hl : locate s a = some l) (hstatus : l ≠ .status) (hm : locate s b = some m) (hne : m ≠ l) :
    loadLoc t m = loadLoc s m := by
  have hother : (if m = l then loadLoc t l else loadLoc s m) = loadLoc s m := if_neg hne
  cases l with
  | cmd | fcode | finfo | uvSr | uvBase | uvRange | uvNst | iirSr | firSr | firOrder | apLen => cases ht
  | status => exact absurd rfl hstatus
  | res | arg0 | arg1 | arg2 | arg3 | arg4 | iirB0 | iirA1 | iirY1 =>
    cases ht
    refine Eq.trans ?_ hother
    cases m <;> rfl
  | apIdx k =>
    obtain ⟨-, ht⟩ := Option.ite_none_right_eq_some.1 ht
    cases ht
    exact loadLoc_setStage (fun _ => rfl) (fun e => absurd e hne) (fun _ => rfl) (fun _ => rfl)
  | apFb k => cases ht; exact loadLoc_setStage (fun _ => rfl) (fun _ => rfl) (fun e => absurd e hne) (fun _ => rfl)
  | lfoPhase k => cases ht; exact loadLoc_setStage (fun _ => rfl) (fun _ => rfl) (fun _ => rfl) (fun e => absurd e hne)
  | apBuf | firCoef | firHist => cases ht; exact loadLoc_ramWrite hl rfl hm hne v

end

/-- Settles O17: the accepted write is a store. -/
theorem acceptedWriteChangesNoOtherWord : Obligations.AcceptedWriteChangesNoOtherWord := by
  intro s t a v rest l _ hp hr hl hcmd hstatus hw hidx hstep
  have hl' : locate { s with pending := rest } a = some l := hl
  obtain ⟨u, hu⟩ := exists_storeLoc (s := { s with pending := rest }) hcmd hw hidx
  have hnotCmd : locate s a ≠ some .cmd := fun e => hcmd (Option.some.inj (hl.symm.trans e))
  rw [step_cons hp hr, transact, busWrite_of_ne (ne_zero_of_locate_ne_cmd hnotCmd), busStore_of_some hl' hu] at hstep
  rw [next_inj hstep]
  exact ⟨locate_storeLoc (s := { s with pending := rest }) hu, fun b m hm =>
    loadLoc_storeLoc (s := { s with pending := rest }) (b := b) hu hl' hstatus hm⟩

/-! ## The byte-addressed mapping (R64, R65) -/

theorem wholeWord_iff {b : ByteAddr} {n : ℕ} : wholeWord b n = true ↔ n = 8 ∧ b.toNat % 8 = 0 := by simp [wholeWord]

theorem wholeWord_eq_false_iff {b : ByteAddr} {n : ℕ} : wholeWord b n = false ↔ n ≠ 8 ∨ b.toNat % 8 ≠ 0 := by
  rw [← Bool.not_eq_true, wholeWord_iff, not_and_or]

/-- The word address of a byte is its byte address divided by 8. -/
theorem wordOfByte_eq {a : BusAddr} {b : ByteAddr} (h : a.toNat = b.toNat / 8) : wordOfByte b = a := by
  apply BitVec.eq_of_toNat_eq
  rw [h, wordOfByte, BitVec.extractLsb'_toNat, Nat.shiftRight_eq_div_pow]
  omega

/-- Bit `j` of a word is bit `j % 8` of its byte `j / 8`, the least significant byte first. -/
theorem getLsbD_wordOfBytes (d : List Byte) {j : ℕ} (hj : j < 64) :
    (wordOfBytes d).getLsbD j = ((d[j / 8]?).getD 0).getLsbD (j % 8) := by
  induction d generalizing j with
  | nil => simp [wordOfBytes]
  | cons b t ih =>
    rw [wordOfBytes, BitVec.getLsbD_or, BitVec.getLsbD_setWidth, BitVec.getLsbD_shiftLeft]
    by_cases hlow : j < 8
    · have hdiv : j / 8 = 0 := by omega
      simp [hj, hlow, hdiv, Nat.mod_eq_of_lt hlow]
    · have hdiv : j / 8 = (j - 8) / 8 + 1 := by omega
      have hmod : j % 8 = (j - 8) % 8 := by omega
      simp [hj, hlow, hdiv, hmod, ih (j := j - 8) (by omega), BitVec.getLsbD_of_ge b j (by omega)]

/-- The eight bytes of a word, least significant first, make up the word. -/
theorem wordOfBytes_eq {d : List Byte} {v : Word} (h : ∀ j, j < 8 → d[j]? = some (v.extractLsb' (8 * j) 8)) :
    wordOfBytes d = v := by
  apply BitVec.eq_of_getLsbD_eq
  intro j hj
  rw [getLsbD_wordOfBytes d hj, h (j / 8) (by omega), Option.getD_some, BitVec.getLsbD_extractLsb', Nat.div_add_mod]
  simp [Nat.mod_lt]

/-- Settles O20: an access is whole and aligned, and then the transaction on its word, or it is refused. -/
theorem byteAccessIsOneAlignedWord : Obligations.ByteAccessIsOneAlignedWord := by
  refine ⟨fun s a b rest hp hr hb => ?_, fun s a b v d rest hp hr hb hd hbytes => ?_, fun s a b n rest hp hr ha hbad => ?_,
    fun s a b d rest hp hr ha hbad => ?_⟩
  · have hwhole : wholeWord b 8 = true := wholeWord_iff.2 ⟨rfl, by omega⟩
    rw [step_cons hp hr, transact, if_pos hwhole, wordOfByte_eq (a := a) (by omega)]
    exact (step_cons (s := { s with pending := .rd a :: rest }) rfl hr).symm
  · have hwhole : wholeWord b d.length = true := wholeWord_iff.2 ⟨hd, by omega⟩
    rw [step_cons hp hr, transact, if_pos hwhole, wordOfByte_eq (a := a) (by omega), wordOfBytes_eq hbytes]
    exact (step_cons (s := { s with pending := .wr a v :: rest }) rfl hr).symm
  · apply step_latches_of_raiseBus_logRead
    rw [step_cons hp hr, transact, wholeWord_eq_false_iff.2 hbad, wordOfByte_eq ha]
    rfl
  · apply step_latches_of_raiseBus
    rw [step_cons hp hr, transact, wholeWord_eq_false_iff.2 hbad, wordOfByte_eq ha]
    rfl

end Sys2Proof.Machine

/-! The encoding rules (30_encoding.md R90 to R100): decoding and encoding are inverse to each other on the legal words, the
opcode map says which words these are, and a step that writes one to `CMD` runs its command. -/

namespace Sys2Proof

/-! ## A word and its fields (R92) -/

/-- A word is its opcode, its stage field and its reserved field, high bits first. -/
theorem fields_append (w : CmdWord) : opField w ++ stageField w ++ reservedField w = w := by
  have hhigh : opField w ++ stageField w = w.extractLsb' 16 16 := BitVec.extractLsb'_append_extractLsb'_eq_extractLsb' rfl
  rw [hhigh]
  exact BitVec.extractLsb'_append_extractLsb'

/-- A word is the word of a command exactly when its fields are those R94 lists for the command. -/
theorem encode_eq_iff {i : Instr} {w : CmdWord} :
    encode i = w ↔ opField w = opOf i ∧ stageField w = stageOf i ∧ reservedField w = 0 := by
  constructor
  · rintro rfl
    exact Laws.EncodeFields.fields_of_append _ _
  · rintro ⟨hop, hstage, hres⟩
    rw [encode, ← hop, ← hstage, ← hres]
    exact fields_append w

/-- A stage index that fits its field and is written there is the number the field holds (R95). -/
theorem stageFits_and_ofNat_iff {k : ℕ} {v : BitVec 8} : stageFits k = true ∧ v = BitVec.ofNat 8 k ↔ k = v.toNat := by
  rw [stageFits, decide_eq_true_iff]
  constructor
  · rintro ⟨hk, rfl⟩
    exact (BitVec.toNat_ofNat k 8 ▸ Nat.mod_eq_of_lt hk).symm
  · rintro rfl
    exact ⟨v.isLt, by rw [BitVec.ofNat_toNat, BitVec.setWidth_eq]⟩

/-! ## Decoding inverts encoding (R94, R98, R99) -/

theorem plainRow_eq_command_iff {w : CmdWord} {i j : Instr} :
    plainRow w j = .command i ↔ stageField w = 0 ∧ j = i := by
  rw [plainRow]
  split
  · next h => simp only [Decoded.command.injEq, h, true_and]
  · next h => simp only [reduceCtorEq, h, false_and]

/-- The opcode map finds each command in its own row. -/
theorem decodeOp_of_fields {w : CmdWord} {i : Instr} (hwf : i.wellFormed = true) (hop : opField w = opOf i)
    (hstage : stageField w = stageOf i) : decodeOp w = .command i := by
  rw [decodeOp, hop]
  cases i with
  | apNew k | apReset k | apSetFb k =>
    obtain rfl : k = (stageField w).toNat := stageFits_and_ofNat_iff.1 ⟨hwf, hstage⟩
    rfl
  | _ => exact if_pos hstage

theorem fields_of_plainRow {w : CmdWord} {i j : Instr} (h : plainRow w j = .command i) (hwf : j.wellFormed = true)
    (hj : stageOf j = 0) (hop : (opField w).toNat = (opOf j).toNat) :
    i.wellFormed = true ∧ opField w = opOf i ∧ stageField w = stageOf i := by
  obtain ⟨hstage, rfl⟩ := plainRow_eq_command_iff.1 h
  exact ⟨hwf, BitVec.eq_of_toNat_eq hop, hstage.trans hj.symm⟩

/-- The opcode map answers a command for no other opcode, and for no other stage field. -/
theorem fields_of_decodeOp {w : CmdWord} {i : Instr} (h : decodeOp w = .command i) :
    i.wellFormed = true ∧ opField w = opOf i ∧ stageField w = stageOf i := by
  unfold decodeOp at h
  split at h
  case h_2 hop | h_3 hop | h_4 hop =>
    obtain rfl := Decoded.command.inj h
    obtain ⟨hfits, hstage⟩ := stageFits_and_ofNat_iff.2 (Eq.refl (stageField w).toNat)
    exact ⟨hfits, BitVec.eq_of_toNat_eq hop, hstage⟩
  case h_19 => cases h
  all_goals next hop => exact fields_of_plainRow h rfl rfl hop

/-- A word decodes to a command exactly when the command is well formed and the word is its encoding. -/
theorem decode_eq_command_iff {w : CmdWord} {i : Instr} :
    decode w = .command i ↔ i.wellFormed = true ∧ encode i = w := by
  rw [encode_eq_iff, decode]
  constructor
  · intro h
    split at h
    · next hres =>
      obtain ⟨hwf, hop, hstage⟩ := fields_of_decodeOp h
      exact ⟨hwf, hop, hstage, hres⟩
    · cases h
  · rintro ⟨hwf, hop, hstage, hres⟩
    rw [if_pos hres, decodeOp_of_fields hwf hop hstage]

/-- Settles O1, one direction of `decode_eq_command_iff`. -/
theorem decodeOfEncodeIsTheCommand : Obligations.DecodeOfEncodeIsTheCommand :=
  fun _ hwf => decode_eq_command_iff.2 ⟨hwf, rfl⟩

/-- Settles O2, the other direction of `decode_eq_command_iff`. -/
theorem legalWordIsTheEncodingOfItsCommand : Obligations.LegalWordIsTheEncodingOfItsCommand :=
  fun _ _ h => (decode_eq_command_iff.1 h).symm

/-! ## The masks of the opcode map (R94) -/

/-- The mask of the `AP.*` rows leaves the opcode and the reserved field and clears the stage field. -/
theorem fields_and_stageMask (w : CmdWord) : opField (w &&& 0xFF00FFFF) = opField w ∧
    stageField (w &&& 0xFF00FFFF) = 0 ∧ reservedField (w &&& 0xFF00FFFF) = reservedField w := by
  simp only [opField, stageField, reservedField, BitVec.extractLsb'_and]
  exact ⟨BitVec.and_allOnes, BitVec.and_zero, BitVec.and_allOnes⟩

/-- Under that mask a word shows its opcode, and that its reserved field is zero. -/
theorem and_stageMask_eq_iff {w : CmdWord} {op : BitVec 8} :
    w &&& 0xFF00FFFF = op ++ (0 : BitVec 8) ++ (0 : BitVec 16) ↔ opField w = op ∧ reservedField w = 0 := by
  obtain ⟨hop, hstage, hres⟩ := fields_and_stageMask w
  constructor
  · intro h
    obtain ⟨hop', -, hres'⟩ := Laws.EncodeFields.fields_of_append op 0
    exact ⟨by rw [← hop, h, hop'], by rw [← hres, h, hres']⟩
  · rintro ⟨rfl, hz⟩
    rw [← fields_append (w &&& 0xFF00FFFF), hop, hstage, hres, hz]

/-- Shifted down and masked, a word shows its stage field. -/
theorem toNat_shiftRight_and (w : CmdWord) : ((w >>> 16) &&& 0xFF).toNat = (stageField w).toNat := by
  rw [BitVec.toNat_and, BitVec.toNat_ushiftRight, stageField, BitVec.extractLsb'_toNat]
  exact Nat.and_two_pow_sub_one_eq_mod _ 8

/-- A row of the map whose stage field is free. -/
theorem decode_eq_command_iff_of_stage {w m : CmdWord} {i : Instr} {k : ℕ} (hwf : i.wellFormed = stageFits k)
    (hstage : stageOf i = BitVec.ofNat 8 k) (hm : m = opOf i ++ (0 : BitVec 8) ++ (0 : BitVec 16)) :
    decode w = .command i ↔ w &&& 0xFF00FFFF = m ∧ k = ((w >>> 16) &&& 0xFF).toNat := by
  rw [decode_eq_command_iff, encode_eq_iff, hwf, hstage, hm, and_stageMask_eq_iff, toNat_shiftRight_and,
    ← stageFits_and_ofNat_iff]
  tauto

section
variable {w : CmdWord} {k : ℕ}

theorem decode_eq_apNew_iff : decode w = .command (.apNew k) ↔
    w &&& 0xFF00FFFF = 0x10000000 ∧ k = ((w >>> 16) &&& 0xFF).toNat :=
  decode_eq_command_iff_of_stage rfl rfl (by rw [opOf]; decide)

theorem decode_eq_apReset_iff : decode w = .command (.apReset k) ↔
    w &&& 0xFF00FFFF = 0x11000000 ∧ k = ((w >>> 16) &&& 0xFF).toNat :=
  decode_eq_command_iff_of_stage rfl rfl (by rw [opOf]; decide)

theorem decode_eq_apSetFb_iff : decode w = .command (.apSetFb k) ↔
    w &&& 0xFF00FFFF = 0x12000000 ∧ k = ((w >>> 16) &&& 0xFF).toNat :=
  decode_eq_command_iff_of_stage rfl rfl (by rw [opOf]; decide)

end

/-- The commands whose words are fixed in all 32 bits. -/
def plainCommands : List Instr :=
  [.nop, .iirNew, .iirSetCut, .iirProc, .firNew, .firSetCut, .firProc, .wsGreen, .wsRed, .wsSigmoid, .wsHard, .uvNew,
    .uvSetSr, .uvReset, .uvProc]

theorem wellFormed_of_plain : ∀ i ∈ plainCommands, i.wellFormed = true := by decide

/-- A row of the map that fixes the whole word. -/
theorem decode_eq_command_iff_of_plain {w : CmdWord} {i : Instr} (h : i ∈ plainCommands) :
    decode w = .command i ↔ w = encode i := by
  rw [decode_eq_command_iff, and_iff_right (wellFormed_of_plain i h), eq_comm]

/-- A word is legal exactly when a row of the map matches it. -/
theorem exists_decode_eq_command_iff {w : CmdWord} : (∃ i, decode w = .command i) ↔
    w &&& 0xFF00FFFF ∈ [(0x10000000 : CmdWord), 0x11000000, 0x12000000] ∨ w ∈ plainCommands.map encode := by
  constructor
  · rintro ⟨i, h⟩
    cases i with
    | apNew k => exact .inl (by rw [(decode_eq_apNew_iff.1 h).1]; decide)
    | apReset k => exact .inl (by rw [(decode_eq_apReset_iff.1 h).1]; decide)
    | apSetFb k => exact .inl (by rw [(decode_eq_apSetFb_iff.1 h).1]; decide)
    | _ => exact .inr (List.mem_map.2 ⟨_, by decide, (decode_eq_command_iff.1 h).2⟩)
  · rintro (h | h)
    · simp only [List.mem_cons, List.not_mem_nil, or_false] at h
      rcases h with h | h | h
      · exact ⟨.apNew _, decode_eq_apNew_iff.2 ⟨h, rfl⟩⟩
      · exact ⟨.apReset _, decode_eq_apReset_iff.2 ⟨h, rfl⟩⟩
      · exact ⟨.apSetFb _, decode_eq_apSetFb_iff.2 ⟨h, rfl⟩⟩
    · obtain ⟨i, hi, rfl⟩ := List.mem_map.1 h
      exact ⟨i, (decode_eq_command_iff_of_plain hi).2 rfl⟩

theorem exists_decode_eq_illegal_iff {w : CmdWord} : (∃ r, decode w = .illegal r) ↔ ¬ ∃ i, decode w = .command i := by
  cases decode w <;> simp

/-- Settles O3: the rows with a free stage field, the rows of one word, and the words that no row matches. -/
theorem decodeFollowsTheOpcodeMap : Obligations.DecodeFollowsTheOpcodeMap := by
  refine fun w => ⟨fun _ => decode_eq_apNew_iff, fun _ => decode_eq_apReset_iff, fun _ => decode_eq_apSetFb_iff,
    fun p hp => ?_, ?_⟩
  · obtain ⟨i, hi, rfl⟩ : ∃ i ∈ plainCommands, (i, encode i) = p := List.mem_map.1 hp
    have hall : w &&& 0xFFFFFFFF = w := BitVec.and_allOnes
    rw [hall]
    exact decode_eq_command_iff_of_plain hi
  · rw [exists_decode_eq_illegal_iff, exists_decode_eq_command_iff, not_or]
    rfl

end Sys2Proof

namespace Sys2Proof.Machine

/-! ## A write of `CMD` is the command (R90) -/

theorem busWrite_zero (s : State) (v : Word) : busWrite s 0 v = issue (v.setWidth 32) s := by rw [busWrite, if_pos rfl]

/-- A step that writes a legal word to `CMD` runs its command, the word recorded. -/
theorem step_of_command {s : State} {v : Word} {rest : List Event} {i : Instr} (hp : s.pending = .wr 0 v :: rest)
    (hr : s.inReset = false) (hf : s.fault = false) (hd : decode (v.setWidth 32) = .command i) :
    step s = exec i { s with pending := rest, cmd := v.setWidth 32 } := by
  rw [step_cons hp hr, transact, busWrite_zero, issue_of_command (s := { s with pending := rest }) hf hd]
  rfl

/-- The word that the event of an instruction writes to `CMD` is the instruction's own. -/
theorem setWidth_issued (w : CmdWord) : (BitVec.ofNat 64 (w.toNat % 2 ^ 32)).setWidth 32 = w := by
  rw [BitVec.toNat_mod_cancel, BitVec.setWidth_ofNat_of_le (by decide), BitVec.ofNat_toNat, BitVec.setWidth_eq]

/-- Settles O5: `step_of_command`, of any such state and of the one `withFetchWord` makes. -/
theorem stepRunsTheDecodedCommand : Obligations.StepRunsTheDecodedCommand := by
  refine ⟨fun s v rest i => step_of_command, fun s i hwf hr hf => ?_⟩
  have hword := setWidth_issued (encode i)
  have hstep := step_of_command (s := s.withFetchWord 32 (encode i).toNat) (rest := s.pending) (i := i) rfl hr hf
    (hword.symm ▸ decodeOfEncodeIsTheCommand i hwf)
  rw [hword] at hstep
  exact hstep

end Sys2Proof.Machine

/-! The all-pass commands (40_allpass.md R120 to R124), and that a command whose checks pass completes. -/

namespace Sys2Proof.Machine

/-! ## A command that passes its checks completes -/

section
variable {s t : State} {i : Instr}

theorem Completes.exec_eq (h : Completes s t i) : exec i s = .next t := by
  cases i with
  | nop | iirNew | wsGreen | wsRed | wsSigmoid | wsHard => obtain rfl := h; rfl
  | apNew k => obtain ⟨hk, hcap, rfl⟩ := h; exact (if_neg (not_le.2 hk)).trans (if_neg (not_lt.2 hcap))
  | apReset k | apSetFb k => obtain ⟨hk, rfl⟩ := h; exact if_neg (not_le.2 hk)
  | firNew => obtain ⟨hn, rfl⟩ := h; exact if_neg (not_lt.2 hn)
  | iirSetCut | iirProc | firSetCut | firProc | uvReset => obtain ⟨hok, rfl⟩ := h; exact if_pos hok
  | uvNew =>
    obtain ⟨hsr, h0, hn, hfit, rfl⟩ := h
    exact (if_neg (by simp [hsr])).trans ((if_neg h0).trans ((if_neg (not_lt.2 hn)).trans (if_neg (by simp [hfit]))))
  | uvSetSr =>
    obtain ⟨hok, hsr, hfit, rfl⟩ := h
    exact (if_neg (by simp [hok])).trans ((if_neg (by simp [hsr])).trans (if_neg (by simp [hfit])))
  | uvProc =>
    obtain ⟨hok, hn, hshort, rfl⟩ := h
    exact (if_neg (by simp [hok])).trans ((if_neg (not_lt.2 hn)).trans (if_neg (by simp [hshort])))

end

/-! ## The all-pass commands (40_allpass.md R120 to R124) -/

theorem ofNat_uintOf (r : Word) : BitVec.ofNat 32 (uintOf r) = r.setWidth 32 := by
  rw [uintOf, BitVec.ofNat_toNat, BitVec.setWidth_eq]

theorem Config.lt_sixteen {c : Config} {k : ℕ} (hc : c.ok = true) (hk : k < c.maxStages) : k < 16 :=
  hk.trans_le (Config.ok_iff.1 hc).2.1

/-- What `AP.NEW` and `AP.RESET` have in common: `cap` words of a buffer cleared and its stage's registers replaced. -/
theorem setStage_ramClear_frame {s t : State} {k cap : ℕ} {st : Stage} (hk : k < 16)
    (ht : t = (s.setMem (ramClear s.mem (apBufAddr k 0) cap)).setStage k st) :
    t.stage k = st ∧ (∀ i, i < cap → apBufRead t k i = 0) ∧ (∀ j, j ≠ k → t.stage j = s.stage j) ∧
      sameMemOutside s t (apBufAddr k 0) (8 * cap) ∧ changesOnly [.stages, .mem] s t := by
  subst ht
  refine ⟨State.stage_setStage_self _ hk st, fun i => apBufRead_of_cleared rfl,
    fun j hj => State.stage_setStage_ne _ hj.symm st, fun b => memRead_ramClear_outside s.mem, ?_⟩
  exact sameButStages.changesOnly rfl

/-- Settles O33: with its checks passed the command leaves `apCreate`. -/
theorem apNewCreatesTheFilter : Obligations.ApNewCreatesTheFilter := by
  intro s k hc hk hcap
  have hdone : Completes s (apCreate (uintOf s.arg0) k s) (.apNew k) := ⟨hk, hcap, rfl⟩
  refine ⟨_, hdone.exec_eq, setStage_ramClear_frame (Config.lt_sixteen hc hk) ?_⟩
  rw [apCreate, ofNat_uintOf]
  rfl

/-- Settles O34: with its check passed the command leaves `apClear`. -/
theorem apResetClearsTheBuffer : Obligations.ApResetClearsTheBuffer := by
  intro s k hc hk
  have hdone : Completes s (apClear k s) (.apReset k) := ⟨hk, rfl⟩
  exact ⟨_, hdone.exec_eq, setStage_ramClear_frame (Config.lt_sixteen hc hk) rfl⟩

/-- The address of `AP_FB[k]` (R36). -/
theorem locate_apFb {s : State} {k : ℕ} (hc : s.cfg.ok = true) (hk : k < s.cfg.maxStages) :
    locate s (BitVec.ofNat 20 (0x00102 + 4 * k)) = some (.apFb k) := by
  have hmap := (addressMapIsTheTable s).1 k 2 (Config.lt_sixteen hc hk) (by decide)
  rw [if_pos hk] at hmap
  rw [show 0x00102 + 4 * k = 0x00100 + 4 * k + 2 by omega]
  exact hmap

/-- Settles O35: the command and the host's write of `AP_FB[k]` replace the same register with the same value. -/
theorem apSetFbStoresTheOperand : Obligations.ApSetFbStoresTheOperand := by
  intro s k hc hk
  have hdone : Completes s (s.setStage k { s.stage k with fb := floatOf s.cfg.fmtUv s.arg0 }) (.apSetFb k) := ⟨hk, rfl⟩
  exact ⟨_, hdone.exec_eq, State.stage_setStage_self s (Config.lt_sixteen hc hk) _,
    fun j hj => State.stage_setStage_ne s hj.symm _, hdone.changesOnly, busStore_of_some (locate_apFb hc hk) rfl⟩

end Sys2Proof.Machine

/-! The IIR commands (41_iir.md R140 to R144). -/

namespace Sys2Proof.Machine

/-- The model's coefficients are those of R142: one divisor, which both coefficients use. -/
theorem iirCoef_coefB0_coefA1 (F : Fmt) (c : ℕ) (sr fc : Word) :
    IirCoef F sr fc (iirCoefB0 F c sr fc) (iirCoefA1 F c sr fc) :=
  ⟨⟨c, 1⟩, ⟨c, 2⟩, ⟨c, 0⟩, ⟨c, 3⟩, ⟨c, 4⟩, ⟨c, 5⟩, ⟨c, 6⟩, rfl, rfl⟩

/-- The output of `IIR.PROC` is a value of the unit's format, so that `RES` holds the very bits of `y1` (R22). -/
@[simp] theorem truncF_iirProcValue (s : State) : truncF s.cfg.fmtIir (iirProcValue s) = iirProcValue s :=
  truncF_fadd _ _ _ _

/-- Settles O36: with no check to pass, the command recomputes from the two operands and sets `IIR_OK`. -/
theorem iirNewBuildsTheFilter : Obligations.IirNewBuildsTheFilter := by
  intro s
  have hdone : Completes s { iirRecompute (floatOf s.cfg.fmtIir s.arg1)
      { s with iirSr := floatOf s.cfg.fmtIir s.arg0 } with iirOk := true } .iirNew := rfl
  exact ⟨_, hdone.exec_eq, rfl, iirCoef_coefB0_coefA1 _ s.draws _ _, rfl, rfl, hdone.changesOnly⟩

/-- Settles O37: on a constructed unit the command recomputes from the sample rate it finds. -/
theorem iirSetCutRecomputesAndZeroes : Obligations.IirSetCutRecomputesAndZeroes := by
  intro s hok
  have hdone : Completes s (iirRecompute (floatOf s.cfg.fmtIir s.arg0) s) .iirSetCut := ⟨hok, rfl⟩
  exact ⟨_, hdone.exec_eq, rfl, iirCoef_coefB0_coefA1 _ s.draws _ _, rfl, hok, hdone.changesOnly⟩

/-- Settles O38: on a constructed unit the command stores `iirProcValue` in `y1` and returns it. -/
theorem iirProcFiltersOneSample : Obligations.IirProcFiltersOneSample := by
  intro s hok
  have hdone : Completes s (({ s with iirY1 := iirProcValue s }).returnF s.cfg.fmtIir (iirProcValue s)).tick
    .iirProc := ⟨hok, rfl⟩
  exact ⟨_, ⟨s.draws, 0⟩, ⟨s.draws, 1⟩, ⟨s.draws, 2⟩, hdone.exec_eq, rfl, truncF_iirProcValue s, rfl, rfl, rfl, hok,
    hdone.changesOnly⟩

end Sys2Proof.Machine

/-! The FIR commands (42_fir.md R160 to R172). -/

namespace Sys2Proof.Machine

/-! ## The windows of the FIR filter (R36, R68) -/

/-- The coefficients of a filter of order at most 4095 lie below every word of its history. -/
theorem firCoefAddr_le_firHistAddr {i : ℕ} (hi : i ≤ 0x1000) (j : ℕ) : firCoefAddr i ≤ firHistAddr j := by
  simp only [firCoefAddr, firHistAddr, byteAddr]; omega

/-- Bytes changed from the history's first word on leave the coefficients as they read. -/
theorem firCoefRead_congr {s t : State} {i : ℕ} (hi : i < 0x1000) (hcfg : t.cfg = s.cfg)
    (hm : ∀ b, b < firHistAddr 0 → memRead t.mem b = memRead s.mem b) : firCoefRead t i = firCoefRead s i := by
  have hnext := firCoefAddr_le_firHistAddr (i := i + 1) hi 0
  rw [firCoefAddr_eq] at hnext
  rw [firCoefRead, firCoefRead, hcfg]
  refine memReadBytes_congr fun b _ hb => hm b ?_
  have hbytes := fmtBytes_le s.cfg.fmtFir
  have haddr := firCoefAddr_eq i
  omega

/-! ## The design step (R163 to R168) -/

/-- The normalised cutoff that the design step of a state works with (R164). -/
def designFc (cutoff : Word) (s : State) : Word := firFc s.cfg.fmtFir s.draws cutoff s.firSr

section
variable (cutoff : Word) {s : State}

theorem designFc_fcStep : FcStep s.cfg.fmtFir cutoff s.firSr (designFc cutoff s) := firFc_fcStep _ _ _ _

/-- Coefficient `i` is the tap `i` of the stored order, up to the order inclusive (R165). -/
theorem firCoefRead_firDesign (hm : Memory.wf s.mem = true) {i : ℕ} (hi : i ≤ s.firOrder.toNat) :
    TapStep s.cfg.fmtFir s.firOrder.toNat (designFc cutoff s) i (firCoefRead (firDesign cutoff s) i) := by
  have htap : firCoefRead (firDesign cutoff s) i =
      firTap s.cfg.fmtFir s.draws s.firOrder.toNat (designFc cutoff s) i :=
    ramRead_firWriteTaps hm (Nat.lt_succ_of_le hi)
  exact htap ▸ firTap_tapStep _ _ _ _ _

/-- The design step writes the coefficients up to the order and no other byte. -/
theorem memRead_firDesign_outside {b : ℕ} (hb : b < firCoefAddr 0 ∨ firCoefAddr (s.firOrder.toNat + 1) ≤ b) :
    memRead (firDesign cutoff s).mem b = memRead s.mem b := memRead_firWriteTaps_outside hb

/-- The design step keeps the history. -/
theorem firHistRead_firDesign (hn : s.firOrder.toNat < 0x1000) (i : ℕ) :
    firHistRead (firDesign cutoff s) i = firHistRead s i :=
  memReadBytes_congr fun _ hb _ =>
    memRead_firDesign_outside cutoff (.inr ((firCoefAddr_le_firHistAddr hn i).trans hb))

/-- `FIRWARN` is kept or set as R168 says. -/
theorem firWarn_firDesign_iff : (firDesign cutoff s).firWarn = true ↔
    s.firWarn = true ∨ s.firOrder.toNat % 2 = 1 ∨ s.firOrder.toNat < 2 ∨
      ¬ (geF s.cfg.fmtFir (designFc cutoff s) (zeroF s.cfg.fmtFir false) = true ∧
        leF s.cfg.fmtFir (designFc cutoff s) (oneF s.cfg.fmtFir) = true) := by
  rw [← firWarns_iff, ← Bool.or_eq_true]
  rfl

end

/-- Settles O41: the design step from the stored sample rate and order, below the history. -/
theorem firSetCutRedesignsAndKeepsHistory : Obligations.FirSetCutRedesignsAndKeepsHistory := by
  intro s h hok
  have hn : s.firOrder.toNat < 0x1000 := Nat.lt_succ_of_le h.firOrder_le
  have hdone : Completes s (firDesign (floatOf s.cfg.fmtFir s.arg0) s) .firSetCut := ⟨hok, rfl⟩
  refine ⟨_, designFc (floatOf s.cfg.fmtFir s.arg0) s, hdone.exec_eq, designFc_fcStep _,
    fun i => firCoefRead_firDesign _ h.memWf, fun i _ => firHistRead_firDesign _ hn i, firWarn_firDesign_iff _,
    fun b hb => memRead_firDesign_outside _ ?_, hdone.changesOnly⟩
  rwa [firCoefAddr_eq (s.firOrder.toNat + 1)]

/-- The state that `FIR.NEW` designs from: the sample rate and the order stored (R161). -/
def firLoaded (s : State) : State :=
  { s with firSr := truncF s.cfg.fmtFir s.arg1, firOrder := s.arg2.setWidth 32 }

/-- What the design step of `FIR.NEW` leaves. -/
def firDesigned (s : State) : State := firDesign (truncF s.cfg.fmtFir s.arg0) (firLoaded s)

/-- `FIR.NEW` clears the history after its design step and constructs the unit. -/
theorem firBuilt_eq (s : State) : firBuilt s =
    { (firDesigned s).setMem (ramClear (firDesigned s).mem (firHistAddr 0) (uintOf s.arg2)) with firOk := true } := by
  rw [firBuilt, ofNat_uintOf]
  rfl

theorem firBuilt_mem (s : State) :
    (firBuilt s).mem = ramClear (firDesigned s).mem (firHistAddr 0) (uintOf s.arg2) := by rw [firBuilt_eq]; rfl

theorem firBuilt_firWarn (s : State) : (firBuilt s).firWarn = (firDesigned s).firWarn := by rw [firBuilt_eq]; rfl

/-- A history cleared reads as zeros. -/
theorem firHistRead_of_cleared {t : State} {m : Memory} {n i : ℕ} (hm : t.mem = ramClear m (firHistAddr 0) n)
    (hi : i < n) : firHistRead t i = 0 := by
  rw [firHistRead, hm, firHistAddr_eq i, ramRead_ramClear_inside _ _ hi]

/-- The history is cleared above the coefficients, which stay as designed. -/
theorem firCoefRead_firBuilt (s : State) {i : ℕ} (hi : i < 0x1000) :
    firCoefRead (firBuilt s) i = firCoefRead (firDesigned s) i :=
  firCoefRead_congr hi rfl fun b hb => by rw [firBuilt_mem]; exact memRead_ramClear_outside _ (.inl hb)

/-- `FIR.NEW` writes the coefficients up to the order and the history, and no other byte. -/
theorem memRead_firBuilt_outside (s : State) {b : ℕ}
    (hcoef : b < firCoefAddr 0 ∨ firCoefAddr (uintOf s.arg2 + 1) ≤ b)
    (hhist : b < firHistAddr 0 ∨ firHistAddr (uintOf s.arg2) ≤ b) :
    memRead (firBuilt s).mem b = memRead s.mem b := by
  rw [firHistAddr_eq (uintOf s.arg2)] at hhist
  rw [firBuilt_mem, memRead_ramClear_outside _ hhist]
  exact memRead_firDesign_outside (s := firLoaded s) _ hcoef

/-- Settles O40: the design step from the operands, then the history cleared, above the coefficients. -/
theorem firNewDesignsTheFilter : Obligations.FirNewDesignsTheFilter := by
  intro s hc hwf hn
  have hmax : uintOf s.arg2 < 0x1000 := Nat.lt_succ_of_le (hn.trans (Config.ok_iff.1 hc).2.2.2.2.2)
  have hdone : Completes s (firBuilt s) .firNew := ⟨hn, rfl⟩
  have hcoef (i : ℕ) (hi : i ≤ uintOf s.arg2) : TapStep s.cfg.fmtFir (uintOf s.arg2)
      (designFc (truncF s.cfg.fmtFir s.arg0) (firLoaded s)) i (firCoefRead (firBuilt s) i) := by
    rw [firCoefRead_firBuilt s (hi.trans_lt hmax)]
    exact firCoefRead_firDesign (s := firLoaded s) _ hwf hi
  refine ⟨firBuilt s, _, hdone.exec_eq, designFc_fcStep (s := firLoaded s) _, rfl, ofNat_uintOf _, rfl, hcoef,
    fun i => firHistRead_of_cleared (firBuilt_mem s), ?_, fun b => memRead_firBuilt_outside s, hdone.changesOnly⟩
  rw [firBuilt_firWarn]
  exact firWarn_firDesign_iff (s := firLoaded s) _

/-! ## The per-sample command (R170 to R172) -/

/-- Only the coefficients that the sum uses matter. -/
theorem DotProduct.congr_coef {F : Fmt} {coef coef' hist : ℕ → Word} {n : ℕ} {acc : Word}
    (h : DotProduct F coef hist n acc) (hc : ∀ i, i < n → coef i = coef' i) : DotProduct F coef' hist n acc := by
  obtain ⟨part, hzero, hsucc, hacc⟩ := h
  exact ⟨part, hzero, fun i hi => hc i hi ▸ hsucc i hi, hacc⟩

/-- The sum of the products of the coefficients with the history after the push (R172). -/
def firAcc (s : State) : Word := firDot s.cfg.fmtFir s.draws (firPushed s) s.firOrder.toNat

section
variable {s : State}

theorem firProcValue_of_dropped (h : s.cfg.firLastTap = .dropped) : firProcValue s = firAcc s := by
  simp only [firProcValue, h]
  rfl

theorem firProcValue_of_used (h : s.cfg.firLastTap = .used) :
    firProcValue s = fadd s.cfg.fmtFir ⟨s.draws, 2 * s.firOrder.toNat⟩ (firAcc s)
      (fmul s.cfg.fmtFir ⟨s.draws, 2 * s.firOrder.toNat + 1⟩ (firCoefRead s s.firOrder.toNat) (firOldest s)) := by
  simp only [firProcValue, h]
  rfl

/-- The sum is over the coefficients before the push, which does not reach them. -/
theorem firAcc_dotProduct (hn : s.firOrder.toNat < 0x1000) :
    DotProduct s.cfg.fmtFir (firCoefRead s) (firHistRead (s.setMem (firPushed s))) s.firOrder.toNat (firAcc s) :=
  (firDot_dotProduct s.cfg.fmtFir s.draws (firPushed s) s.firOrder.toNat).congr_coef fun _ hi =>
    firCoefRead_congr (t := s.setMem (firPushed s)) (hi.trans hn) rfl fun _ hb => memRead_firPush_outside (.inl hb)

end

/-- The output of `FIR.PROC` is a value of the unit's format, so that `RES` holds its very bits (R22). -/
@[simp] theorem truncF_firProcValue (s : State) : truncF s.cfg.fmtFir (firProcValue s) = firProcValue s := by
  cases htap : s.cfg.firLastTap with
  | dropped => rw [firProcValue_of_dropped htap]; exact truncF_firDot _ _ _ _
  | used => rw [firProcValue_of_used htap]; exact truncF_fadd _ _ _ _

/-- Settles O42: the push word by word, and the output in each mode of `FIR_LAST_TAP`. -/
theorem firProcPushesAndConvolves : Obligations.FirProcPushesAndConvolves := by
  intro s h hok
  have hdone : Completes s ((s.setMem (firPushed s)).returnF s.cfg.fmtFir (firProcValue s)).tick .firProc := ⟨hok, rfl⟩
  have hres : ((s.setMem (firPushed s)).returnF s.cfg.fmtFir (firProcValue s)).tick.res = firProcValue s :=
    truncF_firProcValue s
  refine ⟨_, firAcc s, hdone.exec_eq, fun i hi => ramRead_firPush_succ h.memWf hi _, fun hn => ?new,
    firAcc_dotProduct (Nat.lt_succ_of_le h.firOrder_le), fun htap => hres.trans (firProcValue_of_dropped htap),
    fun htap => ⟨_, _, hres.trans (firProcValue_of_used htap)⟩, fun b hb => ?outside,
    hdone.changesOnly.mono (by simp [touches])⟩
  case new => exact (ramRead_firPush_zero h.memWf hn _).trans (truncF_truncF _ _)
  case outside =>
    rw [← firHistAddr_eq] at hb
    exact memRead_firPush_outside hb

end Sys2Proof.Machine

/-! The waveshapers (43_waveshapers.md R190 to R198). -/

namespace Sys2Proof.Machine

/-! ## Zeros, negation and the order of values -/

/-- The values of magnitude zero are the two zeros. -/
theorem truncF_eq_zeroF_of_fabs {F : Fmt} {a : Word} (h : fabs F a = zeroF F false) : ∃ neg, truncF F a = zeroF F neg := by
  obtain ⟨neg, mag, hm, ht⟩ := truncF_eq_packSign F a
  have hmag : mag = 0 := by
    have hbits := congrArg BitVec.toNat ((fabs_eq_packSign hm ht).symm.trans h)
    simpa [zeroF, packSign_toNat hm, packSign_toNat (magLimit_pos F)] using hbits
  exact ⟨neg, by rw [ht, hmag, zeroF]⟩

/-- Adding a zero of either sign to `1.0` is exact. -/
theorem fadd_zeroF_oneF (F : Fmt) (d : Draw) (neg : Bool) : fadd F d (zeroF F neg) (oneF F) = oneF F := by
  have hzero : isFinite F (zeroF F neg) = true := isFinite_iff.2 ⟨_, _, _, unpack_zeroF F neg⟩
  have hone : isFinite F (oneF F) = true := by
    obtain ⟨s, m, e, hu, -⟩ := means_oneF F
    exact isFinite_iff.2 ⟨s, m, e, hu⟩
  rw [fadd_draw hzero hone d ⟨0, 0⟩]
  cases F <;> cases neg <;> decide +kernel

@[simp] theorem truncF_fneg (F : Fmt) (a : Word) : truncF F (fneg F a) = fneg F a := by
  obtain ⟨neg, mag, hm, ht⟩ := truncF_eq_packSign F a
  rw [fneg_eq_packSign hm ht, truncF_packSign hm]

theorem unpack_fneg_inf {F : Fmt} {a : Word} {s : Bool} (h : unpack F a = .inf s) : unpack F (fneg F a) = .inf (!s) := by
  obtain ⟨neg, mag, hm, ht⟩ := truncF_eq_packSign F a
  have hmag : unpack F (packSign F neg mag) = .inf s := by rw [← ht, unpack_truncF, h]
  have hsign : FVal.inf s = .inf neg := by
    simpa only [hmag, FVal.withSign] using unpack_packSign_withSign hm neg neg
  rw [fneg_eq_packSign hm ht, unpack_packSign_withSign hm (!neg) neg, hmag, FVal.inf.inj hsign, FVal.withSign]

section
variable {F : Fmt} {a b : Word}

theorem leF_of_not_ltF (ha : isNan F a = false) (hb : isNan F b = false) (h : ltF F b a = false) : leF F a b = true := by
  simp [leF, ha, hb, h]

theorem leF_refl (ha : isNan F a = false) : leF F a a = true := by
  refine leF_of_not_ltF ha ha ?_
  cases h : unpack F a <;> simp [ltF, h]

/-- A value that is not negative is at least its negation, an infinity too. -/
theorem leF_fneg_self (hb : isNan F b = false) (h : ltF F b (zeroF F false) = false) : leF F (fneg F b) b = true := by
  cases hu : unpack F b with
  | nan => exact absurd (isNan_iff.2 hu) (by simp [hb])
  | inf s =>
    cases s with
    | true => simp [ltF, hu] at h
    | false => exact leF_of_not_ltF (by rw [isNan_fneg, hb]) hb (by simp [ltF, hu, unpack_fneg_inf hu])
  | fin s m e =>
    have hmeans : Means F b (ratOf s m e) := ⟨s, m, e, hu, rfl⟩
    have hnonneg : 0 ≤ ratOf s m e := by
      rw [← not_lt, ← hmeans.ltF_iff (means_zeroF F false), h]
      exact Bool.false_ne_true
    exact (hmeans.fneg.1.leF_iff hmeans).2 (neg_le_self hnonneg)

end

/-! ## The waveshapers of one operand (R191 to R196) -/

/-- `RES` holds the very bits of a result of the unit's format (R22). -/
theorem shapedState_res {s : State} {F : Fmt} {r : Word} (hx : isFinite F (floatOf F s.arg0) = true)
    (hr : truncF F r = r) : (shapedState s F r).res = r := by
  change truncF F (shaped F s.draws (floatOf F s.arg0) r) = r
  rw [shaped, if_pos hx, hr]

theorem truncF_greenCurve (F : Fmt) (c : ℕ) (x : Word) : truncF F (greenCurve F c x) = greenCurve F c x := by
  rw [greenCurve]
  split
  · exact truncF_efuLn _ _ _
  · exact truncF_fsub _ _ _ _

/-- At either zero the curve is `ln 1`, which is `+0.0` by P1. -/
theorem greenCurve_zeroF (F : Fmt) (c : ℕ) (neg : Bool) : greenCurve F c (zeroF F neg) = 0 := by
  have hnonneg : geF F (zeroF F neg) (zeroF F false) = true := ((means_zeroF F false).leF_iff (means_zeroF F neg)).2 le_rfl
  rw [greenCurve, if_pos hnonneg, fadd_zeroF_oneF, efuLn, if_pos (truncF_oneF F)]
  cases F <;> rfl

/-- Settles O43: the branches are those of `greenCurve`, and a zero is a finite operand. -/
theorem wsGreenShapesTheSample : Obligations.WsGreenShapesTheSample := by
  intro s
  have hdone : Completes s (shapedState s s.cfg.fmtGreen
    (greenCurve s.cfg.fmtGreen s.draws (floatOf s.cfg.fmtGreen s.arg0))) .wsGreen := rfl
  refine ⟨_, hdone.exec_eq, hdone.changesOnly, fun hx => ⟨_, _, _, _, _, shapedState_res hx (truncF_greenCurve _ _ _)⟩,
    fun hzero => ?_⟩
  obtain ⟨neg, hx⟩ := truncF_eq_zeroF_of_fabs hzero
  have hfinite : isFinite s.cfg.fmtGreen (floatOf s.cfg.fmtGreen s.arg0) = true :=
    isFinite_iff.2 ⟨_, _, _, by rw [floatOf, hx, unpack_zeroF]⟩
  rw [shapedState_res hfinite (truncF_greenCurve _ _ _), floatOf, hx, greenCurve_zeroF]

/-- Settles O44: the operators are those of `redCurve`, whose last one is a subtraction. -/
theorem wsRedShapesTheSample : Obligations.WsRedShapesTheSample := by
  intro s
  have hdone : Completes s (shapedState s s.cfg.fmtRed
    (redCurve s.cfg.fmtRed s.draws (floatOf s.cfg.fmtRed s.arg0))) .wsRed := rfl
  exact ⟨_, hdone.exec_eq, hdone.changesOnly,
    fun hx => ⟨_, _, _, _, _, _, _, _, _, shapedState_res hx (truncF_fsub _ _ _ _)⟩⟩

/-- Settles O45: the operators are those of `sigmoidCurve`, whose last one is a multiplication. -/
theorem wsSigmoidShapesTheSample : Obligations.WsSigmoidShapesTheSample := by
  intro s
  have hdone : Completes s (shapedState s s.cfg.fmtSigmoid
    (sigmoidCurve s.cfg.fmtSigmoid s.draws (floatOf s.cfg.fmtSigmoid s.arg0))) .wsSigmoid := rfl
  exact ⟨_, hdone.exec_eq, hdone.changesOnly,
    fun hx => ⟨_, _, _, _, _, _, _, _, shapedState_res hx (truncF_fmul _ _ _ _)⟩⟩

/-! ## The clamp of `WS.HARD` (R198) -/

section
variable {F : Fmt} {x b : Word}

theorem hardContract_iff :
    hardContract F x b = true ↔ isNan F x = false ∧ isNan F b = false ∧ ltF F b (zeroF F false) = false := by
  simp [hardContract, and_assoc]

theorem hardCurve_eq (F : Fmt) (x b : Word) :
    hardCurve F x b = if ltF F x (fneg F b) = true then (if gtF F (fneg F b) b = true then b else fneg F b)
      else (if gtF F x b = true then b else x) := by
  rw [hardCurve]
  split <;> rfl

/-- The clamp answers one of `x`, `-t` and `t`, so a value of the format. -/
theorem truncF_hardCurve (hx : truncF F x = x) (hb : truncF F b = b) : truncF F (hardCurve F x b) = hardCurve F x b := by
  rw [hardCurve_eq]
  split_ifs
  exacts [hb, truncF_fneg F b, hb, hx]

/-- Each answer of the clamp is an end of the interval or passed both comparisons with the ends. -/
theorem hardCurve_between (hx : isNan F x = false) (hb : isNan F b = false) (h0 : ltF F b (zeroF F false) = false) :
    leF F (fneg F b) (hardCurve F x b) = true ∧ leF F (hardCurve F x b) b = true := by
  have hends : leF F (fneg F b) b = true := leF_fneg_self hb h0
  have hlo : isNan F (fneg F b) = false := by rw [isNan_fneg, hb]
  rw [hardCurve_eq]
  split_ifs with hbelow _ habove
  · exact ⟨hends, leF_refl hb⟩
  · exact ⟨leF_refl hlo, hends⟩
  · exact ⟨hends, leF_refl hb⟩
  · exact ⟨leF_of_not_ltF hlo hx (Bool.eq_false_iff.2 hbelow), leF_of_not_ltF hx hb (Bool.eq_false_iff.2 habove)⟩

end

theorem hardState_res {s : State}
    (h : hardContract s.cfg.fmtHard (floatOf s.cfg.fmtHard s.arg0) (floatOf s.cfg.fmtHard s.arg1) = true) :
    (hardState s).res = hardCurve s.cfg.fmtHard (floatOf s.cfg.fmtHard s.arg0) (floatOf s.cfg.fmtHard s.arg1) := by
  have hcurve := truncF_hardCurve (truncF_truncF s.cfg.fmtHard s.arg0) (truncF_truncF s.cfg.fmtHard s.arg1)
  exact (congrArg (truncF s.cfg.fmtHard) (if_pos h)).trans hcurve

/-- Settles O46: inside the contract the command returns `hardCurve`, which lies between the ends. -/
theorem wsHardClampsTheSample : Obligations.WsHardClampsTheSample := by
  intro s
  have hdone : Completes s (hardState s) .wsHard := rfl
  refine ⟨_, hdone.exec_eq, hdone.changesOnly, fun hx hb h0 => ?_⟩
  have hres := hardState_res (hardContract_iff.2 ⟨hx, hb, h0⟩)
  refine ⟨hres.trans (hardCurve_eq _ _ _), ?_⟩
  rw [hres]
  exact hardCurve_between hx hb h0

end Sys2Proof.Machine

/-! The UniVibe (44_univibe.md R210 to R226): the LFO, the delay and the taps of a stage, and the four commands. -/

namespace Sys2Proof.Machine

/-! ## The numbers that a rounded result lies between (R11) -/

/-- A result correctly rounded from between two values of the format is between them. -/
theorem CorrectlyRounded.between {F : Fmt} {r a b : Word} {x : ℝ} {p q : ℚ} (h : CorrectlyRounded F r x)
    (ha : Means F a p) (hb : Means F b q) (hp : p ≤ x) (hq : x ≤ q) : ∃ y, Means F r y ∧ p ≤ y ∧ y ≤ q := by
  have hx : |x| < overflowBound F :=
    (abs_le_max_abs_abs hp hq).trans_lt (max_lt ha.abs_lt_overflowBound hb.abs_lt_overflowBound)
  obtain ⟨y, hy, hnear⟩ := h.1 hx
  refine ⟨y, hy, ?_, ?_⟩
  · have hle := (hnear a p ha).1
    rw [abs_sub_comm (p : ℝ), abs_of_nonneg (sub_nonneg.2 hp)] at hle
    have : (p : ℝ) ≤ y := by linarith [neg_le_abs ((y : ℝ) - x)]
    exact_mod_cast this
  · have hle := (hnear b q hb).1
    rw [abs_of_nonneg (sub_nonneg.2 hq)] at hle
    have : (y : ℝ) ≤ q := by linarith [le_abs_self ((y : ℝ) - x)]
    exact_mod_cast this

/-- A number that the format has is rounded to itself. -/
theorem CorrectlyRounded.means {F : Fmt} {r c : Word} {q : ℚ} (h : CorrectlyRounded F r q) (hc : Means F c q) :
    Means F r q := by
  obtain ⟨y, hy, hle, hge⟩ := h.between hc hc le_rfl le_rfl
  rwa [le_antisymm hge hle] at hy

/-- A number of as many bits as the significand, and no finer than a subnormal, is a value of the format. -/
theorem exists_means (F : Fmt) {m : ℕ} {e : ℤ} (hm : m < 2 ^ (mantBits F + 1)) (hmin : minExp F ≤ e) (he : e ≤ 0) :
    ∃ c, Means F c (m * 2 ^ e) := by
  rcases Nat.eq_zero_or_pos m with rfl | hpos
  · exact ⟨_, by simpa using means_zeroF F false⟩
  · have hlog : Nat.log2 m < mantBits F + 1 := (Nat.log2_lt hpos.ne').2 hm
    have hroom : (0 : ℤ) < minExp F + maxExpField F - 1 := by cases F <;> decide
    obtain ⟨n, f, hu, hf, rfl⟩ := unpack_roundFin_exact F false hpos hm hmin (by omega)
    refine ⟨_, false, _, f, hu, ?_⟩
    obtain ⟨k, rfl⟩ : ∃ k : ℕ, e = f + k := ⟨(e - f).toNat, by omega⟩
    rw [show (f + k - f).toNat = k by omega, zpow_add₀ (two_ne_zero' ℚ), zpow_natCast]
    simp [ratOf]
    ring

/-- The greatest value of the format below 1. -/
def belowOne (F : Fmt) : ℚ := (2 ^ (mantBits F + 1) - 1 : ℕ) * 2 ^ (-(mantBits F + 1 : ℕ) : ℤ)

theorem belowOne_eq (F : Fmt) : belowOne F = 1 - 2 ^ (-(mantBits F + 1 : ℕ) : ℤ) := by
  rw [belowOne, Nat.cast_sub Nat.one_le_two_pow, sub_mul, zpow_neg, zpow_natCast]
  push_cast
  rw [mul_inv_cancel₀ (by positivity), one_mul]

theorem belowOne_lt_one (F : Fmt) : belowOne F < 1 := by
  rw [belowOne_eq, sub_lt_self_iff]
  positivity

theorem minExp_le_neg (F : Fmt) : minExp F ≤ -(mantBits F + 1 : ℕ) := by cases F <;> decide

theorem exists_means_belowOne (F : Fmt) : ∃ c, Means F c (belowOne F) :=
  exists_means F (Nat.sub_lt (by positivity) one_pos) (minExp_le_neg F) (by omega)

/-- Twice that value has the same significand. -/
theorem exists_means_two_mul_belowOne (F : Fmt) : ∃ c, Means F c (2 * belowOne F) := by
  have hmin := minExp_le_neg F
  obtain ⟨c, hc⟩ := exists_means F (m := 2 ^ (mantBits F + 1) - 1) (e := -(mantBits F + 1 : ℕ) + 1)
    (Nat.sub_lt (by positivity) one_pos) (by omega) (by omega)
  refine ⟨c, ?_⟩
  rwa [zpow_add_one₀ (two_ne_zero' ℚ), ← mul_assoc, mul_comm _ (2 : ℚ)] at hc

/-- A value below 1 is at most `belowOne`: it is a multiple of its last place, or too small to matter. -/
theorem Means.le_belowOne {F : Fmt} {a : Word} {q : ℚ} (h : Means F a q) (h0 : 0 ≤ q) (h1 : q < 1) :
    q ≤ belowOne F := by
  obtain ⟨s, m, e, hu, rfl⟩ := h
  have hm : m < 2 ^ (mantBits F + 1) := by rw [pow_succ']; exact (unpack_fin_bounds hu).1
  have hpow : (0 : ℚ) < 2 ^ (-(mantBits F + 1 : ℕ) : ℤ) := by positivity
  rw [← abs_of_nonneg h0, abs_ratOf] at h1 ⊢
  rcases le_total e (-(mantBits F + 1 : ℕ)) with he | he
  · exact mul_le_mul (by exact_mod_cast Nat.le_sub_one_of_lt hm) (zpow_le_zpow_right₀ one_le_two he) (by positivity)
      (by positivity)
  · obtain ⟨k, rfl⟩ : ∃ k : ℕ, e = -(mantBits F + 1 : ℕ) + k := ⟨(e + (mantBits F + 1 : ℕ)).toNat, by omega⟩
    have hscale : (m : ℚ) * 2 ^ (-(mantBits F + 1 : ℕ) + k : ℤ) =
        (m * 2 ^ k : ℕ) * 2 ^ (-(mantBits F + 1 : ℕ) : ℤ) := by
      rw [zpow_add₀ (two_ne_zero' ℚ), zpow_natCast]; push_cast; ring
    rw [hscale] at h1 ⊢
    have hlt : m * 2 ^ k < 2 ^ (mantBits F + 1) := by
      rw [zpow_neg, zpow_natCast, ← div_eq_mul_inv, div_lt_one (by positivity)] at h1
      exact_mod_cast h1
    exact mul_le_mul_of_nonneg_right (by exact_mod_cast Nat.le_sub_one_of_lt hlt) hpow.le

/-- What is left of a value above its integer part is a value of the format. -/
theorem Means.exists_means_sub_floor {F : Fmt} {a : Word} {q : ℚ} (h : Means F a q) (h0 : 0 ≤ q) :
    ∃ c, Means F c (q - ⌊q⌋₊) := by
  obtain ⟨s, m, e, hu, rfl⟩ := h
  obtain ⟨hm, hmin⟩ := unpack_fin_bounds hu
  rw [← abs_of_nonneg h0, abs_ratOf]
  rcases le_total 0 e with he | he
  · obtain ⟨k, rfl⟩ := Int.eq_ofNat_of_zero_le he
    have hint : (m : ℚ) * 2 ^ (k : ℤ) = (m * 2 ^ k : ℕ) := by push_cast; rfl
    rw [hint, Nat.floor_natCast, sub_self]
    exact ⟨_, means_zeroF F false⟩
  · obtain ⟨k, rfl⟩ : ∃ k : ℕ, e = -k := ⟨(-e).toNat, by omega⟩
    have hfloor : ⌊(m : ℚ) * 2 ^ (-k : ℤ)⌋₊ = m / 2 ^ k := by
      rw [zpow_neg, zpow_natCast, ← div_eq_mul_inv]
      exact_mod_cast Nat.floor_div_eq_div (K := ℚ) m (2 ^ k)
    have hrest : (m : ℚ) * 2 ^ (-k : ℤ) - (m / 2 ^ k : ℕ) = (m % 2 ^ k : ℕ) * 2 ^ (-k : ℤ) := by
      have hdiv : (m : ℚ) = 2 ^ k * (m / 2 ^ k : ℕ) + (m % 2 ^ k : ℕ) := by exact_mod_cast (Nat.div_add_mod m (2 ^ k)).symm
      rw [zpow_neg, zpow_natCast]
      field_simp
      linarith
    rw [hfloor, hrest]
    exact exists_means F ((Nat.mod_le m _).trans_lt (by rwa [pow_succ'])) hmin he

/-! ## Values between two finite ones -/

/-- A value below a finite one is not above it. -/
theorem Means.not_ltF_of_ltF {F : Fmt} {v b : Word} {q : ℚ} (hb : Means F b q) (h : ltF F v b = true) :
    ltF F b v = false := by
  cases hu : unpack F v with
  | nan => exact ltF_of_nan (.inr (isNan_iff.2 hu))
  | inf s =>
    obtain ⟨_, _, _, hub, _⟩ := hb
    simpa [ltF, hu, hub] using h
  | fin s m e =>
    have hv : Means F v (ratOf s m e) := ⟨s, m, e, hu, rfl⟩
    rw [Bool.eq_false_iff, Ne, hb.ltF_iff hv]
    exact lt_asymm ((hv.ltF_iff hb).1 h)

/-- A value that is at least one finite value and not above another is finite and between them. -/
theorem exists_means_of_between {F : Fmt} {v a b : Word} {p q : ℚ} (ha : Means F a p) (hb : Means F b q)
    (hav : leF F a v = true) (hvb : ltF F b v = false) : ∃ y, Means F v y ∧ p ≤ y ∧ y ≤ q := by
  cases hu : unpack F v with
  | nan => rw [leF_of_nan (.inr (isNan_iff.2 hu))] at hav; cases hav
  | inf s =>
    obtain ⟨_, _, _, hua, _⟩ := ha
    obtain ⟨_, _, _, hub, _⟩ := hb
    cases s <;> simp [leF, ltF, hu, hua, hub] at hav hvb
  | fin s m e =>
    have hv : Means F v (ratOf s m e) := ⟨s, m, e, hu, rfl⟩
    refine ⟨_, hv, (ha.leF_iff hv).1 hav, ?_⟩
    rwa [← not_lt, ← hb.ltF_iff hv, Bool.not_eq_true]

/-! ## The phase (R216) -/

/-- A quotient that is no NaN does not depend on the draw: each other branch of the division is free of it. -/
theorem fdiv_draw {F : Fmt} {a b : Word} {d : Draw} (h : isNan F (fdiv F d a b) = false) (d' : Draw) :
    fdiv F d' a b = fdiv F d a b := by
  cases ha : unpack F a with
  | nan => simp [fdiv, ha] at h
  | inf s => cases hb : unpack F b <;> simp [fdiv, ha, hb] at h ⊢
  | fin s m e =>
    cases hb : unpack F b with
    | nan => simp [fdiv, ha, hb] at h
    | inf t => simp only [fdiv, ha, hb]
    | fin t n f =>
      simp only [fdiv, ha, hb] at h ⊢
      split_ifs at h ⊢
      · simp at h
      · rfl
      · rfl

/-- A value from `[0, 1)` by its comparisons is a number from there, and so at most `belowOne`. -/
theorem exists_means_of_unit {F : Fmt} {v : Word} (h0 : leF F (zeroF F false) v = true)
    (h1 : ltF F v (oneF F) = true) : ∃ q, Means F v q ∧ 0 ≤ q ∧ q ≤ belowOne F := by
  obtain ⟨q, hq, hq0, -⟩ := exists_means_of_between (means_zeroF F false) (means_oneF F) h0 ((means_oneF F).not_ltF_of_ltF h1)
  exact ⟨q, hq, hq0, hq.le_belowOne hq0 ((hq.ltF_iff (means_oneF F)).1 h1)⟩

theorem Means.unit {F : Fmt} {v : Word} {q : ℚ} (h : Means F v q) (h0 : 0 ≤ q) (h1 : q < 1) :
    leF F (zeroF F false) v = true ∧ ltF F v (oneF F) = true :=
  ⟨((means_zeroF F false).leF_iff h).2 h0, (h.ltF_iff (means_oneF F)).2 h1⟩

/-- Settles O58: the sum is at most `2 * belowOne`, so the one wrap brings it below 1 even when it was rounded up. -/
theorem lfoPhaseStaysInTheUnitInterval : Obligations.LfoPhaseStaysInTheUnitInterval := by
  rintro F lfo rate sr p d hinc0 hinc1 hlfo0 hlfo1 ⟨d₁, d₂, d₃, rfl⟩
  obtain ⟨inc, hinc, hi0, hi1⟩ := exists_means_of_unit hinc0 hinc1
  obtain ⟨φ, hφ, hφ0, hφ1⟩ := exists_means_of_unit hlfo0 hlfo1
  obtain ⟨top, htop⟩ := exists_means_two_mul_belowOne F
  obtain ⟨c, hc⟩ := exists_means_belowOne F
  have hb1 := belowOne_lt_one F
  rw [fdiv_draw hinc.isNan d₂]
  obtain ⟨y, hy, hy0, hy1⟩ := (fadd_correctlyRounded d₁ hφ hinc).1.between (means_zeroF F false) htop
    (by exact_mod_cast add_nonneg hφ0 hi0) (by exact_mod_cast (by linarith : φ + inc ≤ 2 * belowOne F))
  by_cases hge : geF F (fadd F d₁ lfo (fdiv F d rate sr)) (oneF F) = true
  · have hy' : 1 ≤ y := ((means_oneF F).leF_iff hy).1 hge
    obtain ⟨z, hz, hz0, hz1⟩ := (fsub_correctlyRounded d₃ hy (means_oneF F)).1.between (means_zeroF F false) hc
      (by exact_mod_cast sub_nonneg.2 hy') (by exact_mod_cast (by linarith : y - 1 ≤ belowOne F))
    rw [if_pos hge]
    exact hz.unit hz0 (hz1.trans_lt hb1)
  · rw [if_neg hge]
    exact hy.unit hy0 (not_le.1 fun h => hge (((means_oneF F).leF_iff hy).2 h))

/-! ## The delay (R218) -/

/-- The clamp between finite ends answers a finite value between them, whatever the operand (R18). -/
theorem exists_means_clampF {F : Fmt} {lo hi : Word} {p q : ℚ} (hlo : Means F lo p) (hhi : Means F hi q) (hpq : p ≤ q)
    (v : Word) : ∃ y, Means F (clampF F v lo hi) y ∧ p ≤ y ∧ y ≤ q := by
  unfold clampF
  split_ifs with hge hgt
  · exact ⟨q, hhi, hpq, le_rfl⟩
  · exact exists_means_of_between hlo hhi hge (Bool.eq_false_iff.2 hgt)
  · exact ⟨p, hlo, le_rfl, hpq⟩

theorem clampF_of_nan {F : Fmt} {v : Word} (h : isNan F v = true) (lo hi : Word) : clampF F v lo hi = lo := by
  rw [clampF, geF, leF_of_nan (.inr h), if_neg Bool.false_ne_true]

/-- The difference of a value and its integer part is exact. -/
theorem means_fsub_floorUint {F : Fmt} (d : Draw) {v : Word} {q : ℚ} (h : Means F v q) (h0 : 0 ≤ q) (h24 : q < 2 ^ 24) :
    Means F (fsub F d v (ofNatF F (floorUint F v))) (q - ⌊q⌋₊) := by
  obtain ⟨c, hc⟩ := h.exists_means_sub_floor h0
  have hfloor : Means F (ofNatF F (floorUint F v)) ⌊q⌋₊ := by
    rw [h.floorUint h0]
    exact means_ofNatF F ((Nat.floor_lt h0).2 (by exact_mod_cast h24))
  have hround := (fsub_correctlyRounded d h hfloor).1
  rw [← Rat.cast_sub] at hround
  exact hround.means hc

/-- Settles O56: the ends of the clamp are the exact integers 1 and `len - 1`, and the remainder is exact. -/
theorem delayStaysInsideTheBuffer : Obligations.DelayStaysInsideTheBuffer := by
  intro F raw len d₁ d₂ h2 hmax
  simp only [fsub_ofNatF_oneF F d₁ (show 1 < len by omega) (by omega)]
  have hhi : Means F (ofNatF F (len - 1)) (len - 1 : ℕ) := means_ofNatF F (by omega)
  have hlen : (1 : ℚ) ≤ (len - 1 : ℕ) := by exact_mod_cast (by omega : 1 ≤ len - 1)
  have hlen24 : ((len - 1 : ℕ) : ℚ) < 2 ^ 24 := by exact_mod_cast (by omega : len - 1 < 2 ^ 24)
  obtain ⟨y, hy, hy1, hyhi⟩ := exists_means_clampF (means_oneF F) hhi hlen raw
  have hy0 : 0 ≤ y := zero_le_one.trans hy1
  have hfrac := (means_fsub_floorUint d₂ hy hy0 (hyhi.trans_lt hlen24)).unit
    (sub_nonneg.2 (Nat.floor_le hy0)) (by linarith [Nat.lt_floor_add_one y])
  refine ⟨?_, ((means_oneF F).leF_iff hy).2 hy1, (hy.leF_iff hhi).2 hyhi, fun hnan => clampF_of_nan hnan _ _, ?_, ?_, hfrac⟩
  · obtain ⟨s, m, e, hu, -⟩ := hy
    exact isFinite_iff.2 ⟨s, m, e, hu⟩
  · rw [hy.floorUint hy0]
    exact Nat.le_floor (by exact_mod_cast hy1)
  · rw [hy.floorUint hy0]
    exact Nat.floor_le_of_le hyhi

/-! ## The taps (R220) -/

/-- The remainder of R18 in natural numbers: whole turns of the ring keep the difference from being negative (R263). -/
theorem tapIndex_eq_mod {w d len turns : ℕ} (h : d ≤ w + turns * len) :
    tapIndex w d len = (w + turns * len - d) % len := by
  have hturn : (w : ℤ) - d = (w + turns * len - d : ℕ) - turns * len := by push_cast [h]; ring
  rw [tapIndex, hturn, Int.sub_mul_emod_self_right]
  exact_mod_cast Int.toNat_natCast _

/-- A tap at most one turn behind the write index meets it after exactly one turn. -/
theorem tapIndex_eq_self_iff {w d len : ℕ} (hw : w < len) (h0 : 0 < d) (hd : d ≤ len) :
    tapIndex w d len = w ↔ d = len := by
  rw [tapIndex_eq_mod (turns := 1) (by omega), Nat.one_mul]
  rcases le_or_gt d w with h | h
  · rw [show w + len - d = w - d + len by omega, Nat.add_mod_right, Nat.mod_eq_of_lt (by omega)]
    omega
  · rw [Nat.mod_eq_of_lt (by omega)]
    omega

/-- Settles O57: the farther tap is the tap of a delay one longer. -/
theorem tapsAreInsideTheBuffer : Obligations.TapsAreInsideTheBuffer := by
  intro w fd len hw h1 hfd
  have hlen : 0 < len := by omega
  refine ⟨tapIndex_lt w fd hlen, tapIndex_lt w (fd + 1) hlen, fun h => ?_, ?_, ?_, ?_⟩
  · have := (tapIndex_eq_self_iff hw h1 (by omega)).1 h
    omega
  · rw [tapIndex_eq_self_iff hw (by omega) (by omega)]
    omega
  · rw [tapIndex_eq_mod (turns := 1) (by omega), Nat.one_mul]
  · rw [tapIndex_eq_mod (turns := 2) (by omega), Nat.sub_sub]

/-! ## The loops of the constructor, the reset and the resize (R211, R225, R226) -/

/-- A loop that clears the buffers of `n` stages: their registers and words, the other stages, and the other bytes. -/
theorem clearsStage_frame {f : ℕ → State → State} {g : ℕ → Stage → Stage} {c : ℕ → Stage → ℕ} (hf : clearsStage f g c)
    {n : ℕ} (hn : n ≤ 16) (s : State) (hc : ∀ k, k < n → c k (s.stage k) ≤ 0x1000) :
    (∀ k, k < n → (forStages f n s).stage k = g k (s.stage k) ∧
      ∀ i, i < c k (s.stage k) → apBufRead (forStages f n s) k i = 0) ∧
    (∀ k, n ≤ k → (forStages f n s).stage k = s.stage k) ∧
    (∀ b, (∀ k, k < n → b < apBufAddr k 0 ∨ apBufAddr k (c k (s.stage k)) ≤ b) →
      memRead (forStages f n s).mem b = memRead s.mem b) := by
  have hstage := clearsStage_stage hf hn s
  exact ⟨fun k hk => ⟨(hstage k).trans (if_pos hk), fun _ => clearsStage_apBufRead hf hn s hc hk⟩,
    fun k hk => (hstage k).trans (if_neg (by omega)), fun b => clearsStage_memRead hf hn s⟩

/-- Settles O49: the loop over the constructed stages, each cleared over its own length. -/
theorem uvResetClearsTheStages : Obligations.UvResetClearsTheStages := by
  intro s h hok
  have hdone : Completes s (forStages (fun k t => lfoZero k (apClear k t)) s.uvNst.toNat s) .uvReset := ⟨hok, rfl⟩
  obtain ⟨hbuilt, hothers, hbytes⟩ := clearsStage_frame lfoZero_apClear_clears h.uvNst_le s fun k _ => h.len_le k
  exact ⟨_, hdone.exec_eq, hbuilt, hothers, hbytes, hdone.changesOnly⟩

/-- What a command that fits writes to `AP_LEN` is the capacity, and the window has a buffer of that many words. -/
theorem State.Inv.uvCap_bounds {s : State} (h : s.Inv) {sr : Word} (hfits : FitsRam s.cfg.fmtUv s.cfg.apMaxCap sr) :
    uvCap s.cfg.fmtUv s.draws sr ≤ 0x1000 ∧
      (BitVec.ofNat 32 (uvCap s.cfg.fmtUv s.draws sr)).toNat = uvCap s.cfg.fmtUv s.draws sr := by
  have hcap := h.uvCap_le (uvCapFits_of_fits hfits s.draws)
  have hmax := (Config.ok_iff.1 h.cfgOk).2.2.2.1
  exact ⟨hcap.trans hmax, by rw [BitVec.toNat_ofNat, Nat.mod_eq_of_lt (by omega)]⟩

/-- The loops keep the rate and the derived constants stored before them (R210). -/
theorem sameButStages.uvDerive {s t : State} {sr : Word} (h : sameButStages (uvSetRate sr s) t) :
    t.uvSr = sr ∧ UvDerive s.cfg.fmtUv t.uvSr t.uvBase t.uvRange (uvDeriveCapf s.cfg.fmtUv s.draws sr) := by
  rw [h]
  exact ⟨rfl, uvDerive_holds _ _ _⟩

theorem sameButStages.uvNst_eq {s t : State} (h : sameButStages s t) : t.uvNst = s.uvNst := by rw [h]

theorem sameButStages.draws_eq {s t : State} (h : sameButStages s t) : t.draws = s.draws := by rw [h]

/-- Settles O48: the loop over the constructed stages, each resized to the capacity computed from the new rate. -/
theorem uvSetSrResizesTheStages : Obligations.UvSetSrResizesTheStages := by
  intro s h hok hsr hfits
  obtain ⟨hcap, hlen⟩ := h.uvCap_bounds hfits
  have hdone : Completes s (uvResized s) .uvSetSr := ⟨hok, hsr, uvCapFits_of_fits hfits s.draws, rfl⟩
  have hloop := lfoZero_apResize_clears (uvCap s.cfg.fmtUv s.draws (truncF s.cfg.fmtUv s.arg0))
  have hsame := clearsStage_same hloop s.uvNst.toNat (uvSetRate (truncF s.cfg.fmtUv s.arg0) s)
  obtain ⟨hrate, hderive⟩ := hsame.uvDerive
  obtain ⟨hbuilt, hothers, hbytes⟩ := clearsStage_frame hloop h.uvNst_le
    (uvSetRate (truncF s.cfg.fmtUv s.arg0) s) fun _ _ => hcap
  refine ⟨_, _, hdone.exec_eq, hrate, hderive, hsame.uvNst_eq, hsame.uvOk_eq.trans hok, fun k hk => ?_, hothers, hbytes,
    hdone.changesOnly⟩
  obtain ⟨hstage, hzero⟩ := hbuilt k hk
  rw [show (uvResized s).stage k = _ from hstage]
  exact ⟨hlen, rfl, rfl, rfl, hzero⟩

/-- Settles O47: the loop over all stages of the block, which builds the first `n` and empties the others. -/
theorem uvNewBuildsTheStages : Obligations.UvNewBuildsTheStages := by
  intro s n h harg h1 hn hsr hfits
  obtain rfl : uintOf s.arg1 = n := harg
  obtain ⟨hcap, hlen⟩ := h.uvCap_bounds hfits
  have hdone : Completes s (uvBuilt s) .uvNew :=
    ⟨hsr, Nat.one_le_iff_ne_zero.1 h1, hn, uvCapFits_of_fits hfits s.draws, rfl⟩
  have hloop := uvBuildStage_clears (uintOf s.arg1) (uvCap s.cfg.fmtUv s.draws (truncF s.cfg.fmtUv s.arg0))
  obtain ⟨hrate, hderive⟩ :=
    (clearsStage_same hloop s.cfg.maxStages (uvSetRate (truncF s.cfg.fmtUv s.arg0) s)).uvDerive
  obtain ⟨hbuilt, hothers, hbytes⟩ := clearsStage_frame hloop h.maxStages_le
    (uvSetRate (truncF s.cfg.fmtUv s.arg0) s) fun k _ => by split <;> omega
  refine ⟨_, _, hdone.exec_eq, hrate, hderive, congrArg BitVec.toNat (ofNat_uintOf _), rfl, fun k hk => ?_,
    fun k hk => ?_, fun b hb => hbytes b fun k _ => ?_, hdone.changesOnly⟩
  · obtain ⟨hstage, hzero⟩ := hbuilt k (hk.trans_le hn)
    rw [if_pos hk] at hstage hzero
    rw [show (uvBuilt s).stage k = _ from hstage]
    exact ⟨hlen, rfl, rfl, rfl, hzero⟩
  · rcases lt_or_ge k s.cfg.maxStages with hmax | hmax
    · exact (hbuilt k hmax).1.trans (if_neg (not_lt.2 hk))
    · exact (hothers k hmax).trans (h.noStage k hmax)
  · split
    · next hk => exact hb k hk
    · exact lt_or_ge _ _

/-! ## The per-sample command (R212 to R224) -/

/-- With no stage to run, `UV.PROC` leaves the state but for its result and the count of draws (R214). -/
theorem uvProcessed_of_zero {s : State} (h : uintOf s.arg4 = 0) :
    uvProcessed s = (s.returnF s.cfg.fmtUv (floatOf s.cfg.fmtUv s.arg0)).tick := by
  rw [uvProcessed, h]
  rfl

/-- Settles O51: no check concerns a stage, and the loop has no turn. -/
theorem uvProcOfNoStagesIsTheIdentity : Obligations.UvProcOfNoStagesIsTheIdentity := by
  intro s hok h
  have h0 : uintOf s.arg4 = 0 := congrArg BitVec.toNat h
  have hdone : Completes s (uvProcessed s) .uvProc := ⟨hok, by omega, by rw [h0]; rfl, rfl⟩
  refine ⟨_, hdone.exec_eq, ?_⟩
  rw [uvProcessed_of_zero h0]
  exact ⟨truncF_truncF _ _, (returnF_changesOnly s _ _).trans (tick_changesOnly _)⟩

/-- The signal that the multiplexer gives stage `k` (R215). -/
def stageSignal (a : UvArgs) (x : Word) (s : State) (k : ℕ) : Word := (stageLoop a x s k).2

/-- The word that stage `k` writes back for that signal (R223). -/
def stageWriteBack (a : UvArgs) (x : Word) (s : State) (k : ℕ) : Word :=
  mixBack s.cfg.fmtUv s.draws k a.feedback (stageSignal a x s k) (stageSignal a x s (k + 1))

/-- A stage leaves the word it writes back at the index it found (R224). -/
theorem apBufRead_stageStep_self (a : UvArgs) (k : ℕ) (x : Word) {s : State} (hm : Memory.wf s.mem = true) :
    apBufRead (stageStep a k x s) k (s.stage k).idx.toNat =
      mixBack s.cfg.fmtUv s.draws k a.feedback x (stageOut a k x s) :=
  (ramRead_ramWrite_self _ hm _ _).trans (truncF_mixBack _ _ _ _ _ _)

/-- A stage leaves the buffers of the others alone. -/
theorem apBufRead_stageStep_ne (a : UvArgs) (x : Word) {s : State} {j k i : ℕ} (hjk : j ≠ k) (hi : i < 0x1000)
    (hidx : (s.stage k).idx.toNat < 0x1000) : apBufRead (stageStep a k x s) j i = apBufRead s j i :=
  ramRead_ramWrite_ne _ _ _ (by simp only [apBufAddr, byteAddr]; omega)

section
variable {s : State} (h : s.Inv) (a : UvArgs) (x : Word) {k n : ℕ} (hk : k < n)
include h hk

/-- The word that a stage wrote stands until the end of the loop. -/
theorem State.Inv.apBufRead_stageLoop :
    apBufRead (stageLoop a x s n).1 k (s.stage k).idx.toNat = stageWriteBack a x s k := by
  induction n with
  | zero => omega
  | succ n ih =>
    have hstage := stageLoop_stage_ge a x s (Nat.le_refl n)
    rcases Nat.lt_succ_iff_lt_or_eq.1 hk with hlt | rfl
    · rw [stageLoop, apBufRead_stageStep_ne a _ hlt.ne (h.idx_lt k) (by rw [hstage]; exact h.idx_lt n), ih hlt]
    · rw [stageLoop, ← hstage, apBufRead_stageStep_self a k _ (stageLoop_wf a x h.memWf k),
        (stageLoop_same a x s k).cfg_eq, (stageLoop_same a x s k).draws_eq]
      rfl

/-- Each stage of the loop runs the ten steps on its own registers and buffer as the command found them. -/
theorem State.Inv.stageRuns (hn : n ≤ 16) (hlen : 0 < (s.stage k).len.toNat) :
    StageRuns s.cfg.fmtUv s.uvSr s.uvBase s.uvRange a.rate a.depth a.feedback (s.stage k) (apBufRead s k)
      (stageSignal a x s k) ((stageLoop a x s n).1.stage k) (stageWriteBack a x s k) (stageSignal a x s (k + 1)) := by
  have hout : stageSignal a x s (k + 1) = stageOut a k (stageSignal a x s k) s :=
    stageLoop_signal a x s hlen (h.len_le k) fun j _ => h.idx_lt j
  have hidx : ((s.stage k).idx.toNat + 1) % (s.stage k).len.toNat < 2 ^ 32 :=
    (Nat.mod_lt _ hlen).trans (s.stage k).len.isLt
  rw [stageWriteBack, hout, stageLoop_stage_lt a x s hk hn]
  exact ⟨stagePhase a k s, stageDelay a k s, stageRead a k s, lfoAdvance_lfoStep _ _ _ _ _, stageDelay_delayStep a k s,
    stageRead_interpStep a k s, stageOut_mixStep a k _ s, rfl, rfl, rfl, by rw [BitVec.toNat_ofNat, Nat.mod_eq_of_lt hidx]⟩

end

/-- Settles O50: the signal is that of the model's loop, stage by stage. -/
theorem uvProcRunsTheStageChain : Obligations.UvProcRunsTheStageChain := by
  intro s n h hok harg hn hlen
  obtain rfl : uintOf s.arg4 = n := harg
  have hn16 := hn.trans h.uvNst_le
  have hshort : shortStage s (uintOf s.arg4) = false := by
    rw [Bool.eq_false_iff, Ne, shortStage_iff]
    rintro ⟨k, hk, hlt⟩
    exact absurd (hlen k hk) (not_le.2 hlt)
  have hdone : Completes s (uvProcessed s) .uvProc := ⟨hok, hn, hshort, rfl⟩
  have hphase (k : ℕ) (hk : k < uintOf s.arg4) : ((uvProcessed s).stage k).lfo = stagePhase (uvArgs s) k s :=
    congrArg Stage.lfo (stageLoop_stage_lt (uvArgs s) (floatOf s.cfg.fmtUv s.arg0) s hk hn16)
  refine ⟨_, stageSignal (uvArgs s) (floatOf s.cfg.fmtUv s.arg0) s, stageWriteBack (uvArgs s) (floatOf s.cfg.fmtUv s.arg0) s,
    hdone.exec_eq, rfl, truncF_stageLoop _ s (truncF_truncF _ _) _, fun k hk => ⟨?runs, ?written⟩,
    fun j k hj hk heq => ?phase, fun k => stageLoop_stage_ge _ _ s, fun b => stageLoop_memRead _ _ s, hdone.changesOnly⟩
  case runs => exact h.stageRuns (uvArgs s) _ hk hn16 (zero_lt_two.trans_le (hlen k hk))
  case written => exact h.apBufRead_stageLoop (uvArgs s) _ hk
  case phase => rw [hphase j hj, hphase k hk, stagePhase_eq_of_lfo_eq _ heq]

end Sys2Proof.Machine

/-! The system command (45_system.md R260): `NOP` leaves the state as it is, and its word is zero. -/

namespace Sys2Proof.Machine

theorem exec_nop (s : State) : exec .nop s = .next s := rfl

theorem encode_nop : encode .nop = 0x00000000 := rfl

/-- The row of `NOP` in the opcode map fixes the whole word. -/
theorem decode_eq_nop_iff {w : CmdWord} : decode w = .command .nop ↔ w = 0x00000000 := by
  have hplain : Instr.nop ∈ plainCommands := List.mem_cons_self
  rw [decode_eq_command_iff_of_plain hplain, encode_nop]

/-- Settles O32, both clauses at their place in the model: the dispatch and the opcode map. -/
theorem nopChangesNothing : Obligations.NopChangesNothing :=
  ⟨exec_nop, fun _ => decode_eq_nop_iff⟩

end Sys2Proof.Machine

/-! The fault rules (60_exceptions.md R280 to R294): which check of a command fails first, what its fault records, and
what the fault latch stops, keeps and is cleared by. -/

namespace Sys2Proof.Machine

/-! ## The checks of the commands, in their order (R286) -/

/-- A command other than `NEW` of a unit whose constructor never ran (R283). -/
def Unconstructed (s : State) (i : Instr) : Prop :=
  ((i = .iirSetCut ∨ i = .iirProc) ∧ s.iirOk = false) ∨ ((i = .firSetCut ∨ i = .firProc) ∧ s.firOk = false) ∨
    ((i = .uvSetSr ∨ i = .uvReset ∨ i = .uvProc) ∧ s.uvOk = false)

/-- The first check that a command fails, in the order of R286: each constructor asks that the checks before its own
pass. -/
inductive Faults (s : State) : FaultCause → Instr → Prop
  | noStage {k : ℕ} {i : Instr} (hi : i = .apNew k ∨ i = .apReset k ∨ i = .apSetFb k) (hk : s.cfg.maxStages ≤ k) :
      Faults s .stageRange i
  | apCapacity {k : ℕ} (hk : k < s.cfg.maxStages) (hcap : s.cfg.apMaxCap < uintOf s.arg0) :
      Faults s .resource (.apNew k)
  | unconstructed {i : Instr} (hi : Unconstructed s i) : Faults s .unconstructed i
  | firOrder (hn : s.cfg.firMaxOrder < uintOf s.arg2) : Faults s .resource .firNew
  | newRate (hsr : positiveFinite s.cfg.fmtUv (floatOf s.cfg.fmtUv s.arg0) = false) : Faults s .precond .uvNew
  | newNoStages (hsr : positiveFinite s.cfg.fmtUv (floatOf s.cfg.fmtUv s.arg0) = true) (h0 : uintOf s.arg1 = 0) :
      Faults s .precond .uvNew
  | newStages (hsr : positiveFinite s.cfg.fmtUv (floatOf s.cfg.fmtUv s.arg0) = true) (h0 : uintOf s.arg1 ≠ 0)
      (hn : s.cfg.maxStages < uintOf s.arg1) : Faults s .resource .uvNew
  | newCapacity (hsr : positiveFinite s.cfg.fmtUv (floatOf s.cfg.fmtUv s.arg0) = true) (h0 : uintOf s.arg1 ≠ 0)
      (hn : uintOf s.arg1 ≤ s.cfg.maxStages)
      (hfit : uvCapFits s.cfg.fmtUv s.draws s.cfg.apMaxCap (floatOf s.cfg.fmtUv s.arg0) = false) :
      Faults s .resource .uvNew
  | setSrRate (hok : s.uvOk = true) (hsr : positiveFinite s.cfg.fmtUv (floatOf s.cfg.fmtUv s.arg0) = false) :
      Faults s .precond .uvSetSr
  | setSrCapacity (hok : s.uvOk = true) (hsr : positiveFinite s.cfg.fmtUv (floatOf s.cfg.fmtUv s.arg0) = true)
      (hfit : uvCapFits s.cfg.fmtUv s.draws s.cfg.apMaxCap (floatOf s.cfg.fmtUv s.arg0) = false) :
      Faults s .resource .uvSetSr
  | procStages (hok : s.uvOk = true) (hn : s.uvNst.toNat < uintOf s.arg4) : Faults s .stageRange .uvProc
  | procShort (hok : s.uvOk = true) (hn : uintOf s.arg4 ≤ s.uvNst.toNat)
      (hshort : shortStage s (uintOf s.arg4) = true) : Faults s .apLen .uvProc

section
variable {s t : State} {c : FaultCause} {i : Instr}

/-- A command that fails a check takes that check's fault. -/
theorem Faults.exec_eq (h : Faults s c i) : exec i s = .next (s.raiseCmd c i) := by
  cases h with
  | noStage hi hk => rcases hi with rfl | rfl | rfl <;> exact if_pos hk
  | apCapacity hk hcap => exact (if_neg (not_le.2 hk)).trans (if_pos hcap)
  | unconstructed hi =>
    rcases hi with ⟨rfl | rfl, hok⟩ | ⟨rfl | rfl, hok⟩ | ⟨rfl | rfl | rfl, hok⟩
    case inr.inr.inl | inr.inr.inr.inr => exact if_pos (by simp [hok])
    all_goals exact if_neg (by simp [hok])
  | firOrder hn => exact if_pos hn
  | newRate hsr => exact if_pos (by simp [hsr])
  | newNoStages hsr h0 => exact (if_neg (by simp [hsr])).trans (if_pos h0)
  | newStages hsr h0 hn => exact (if_neg (by simp [hsr])).trans ((if_neg h0).trans (if_pos hn))
  | newCapacity hsr h0 hn hfit =>
    exact (if_neg (by simp [hsr])).trans ((if_neg h0).trans ((if_neg (not_lt.2 hn)).trans (if_pos (by simp [hfit]))))
  | setSrRate hok hsr => exact (if_neg (by simp [hok])).trans (if_pos (by simp [hsr]))
  | setSrCapacity hok hsr hfit =>
    exact (if_neg (by simp [hok])).trans ((if_neg (by simp [hsr])).trans (if_pos (by simp [hfit])))
  | procStages hok hn => exact (if_neg (by simp [hok])).trans (if_pos hn)
  | procShort hok hn hshort => exact (if_neg (by simp [hok])).trans ((if_neg (not_lt.2 hn)).trans (if_pos hshort))

/-- `Faults` lists every check: a command that fails none of them completes. -/
theorem completes_of_forall_not_faults (h : ∀ c, ¬ Faults s c i) : ∃ t, Completes s t i := by
  have hunit : ¬ Unconstructed s i := fun hi => h _ (.unconstructed hi)
  cases i with
  | nop | iirNew | wsGreen | wsRed | wsSigmoid | wsHard => exact ⟨_, rfl⟩
  | apNew k =>
    have hk := not_le.1 fun hk => h _ (.noStage (.inl rfl) hk)
    exact ⟨_, hk, not_lt.1 fun hcap => h _ (.apCapacity hk hcap), rfl⟩
  | apReset k => exact ⟨_, not_le.1 fun hk => h _ (.noStage (.inr (.inl rfl)) hk), rfl⟩
  | apSetFb k => exact ⟨_, not_le.1 fun hk => h _ (.noStage (.inr (.inr rfl)) hk), rfl⟩
  | iirSetCut | iirProc | firSetCut | firProc | uvReset => exact ⟨_, by simpa [Unconstructed] using hunit, rfl⟩
  | firNew => exact ⟨_, not_lt.1 fun hn => h _ (.firOrder hn), rfl⟩
  | uvNew =>
    have hsr := eq_true_of_ne_false fun hsr => h _ (.newRate hsr)
    have h0 : uintOf s.arg1 ≠ 0 := fun h0 => h _ (.newNoStages hsr h0)
    have hn := not_lt.1 fun hn => h _ (.newStages hsr h0 hn)
    exact ⟨_, hsr, h0, hn, eq_true_of_ne_false fun hfit => h _ (.newCapacity hsr h0 hn hfit), rfl⟩
  | uvSetSr =>
    have hok : s.uvOk = true := by simpa [Unconstructed] using hunit
    have hsr := eq_true_of_ne_false fun hsr => h _ (.setSrRate hok hsr)
    exact ⟨_, hok, hsr, eq_true_of_ne_false fun hfit => h _ (.setSrCapacity hok hsr hfit), rfl⟩
  | uvProc =>
    have hok : s.uvOk = true := by simpa [Unconstructed] using hunit
    have hn := not_lt.1 fun hn => h _ (.procStages hok hn)
    exact ⟨_, hok, hn, eq_false_of_ne_true fun hshort => h _ (.procShort hok hn hshort), rfl⟩

/-- With no fault latched, the fault of a failed check changes the latch alone. -/
theorem Faults.exec_eq_faultedState (h : Faults s c i) (hf : s.fault = false) :
    exec i s = .next (faultedState s (causeCode c) ((encode i).setWidth 64)) :=
  h.exec_eq.trans (congrArg _ (State.raiseCmd_of_clear hf c i))

/-- The converse: a command that has latched a fault failed a check. -/
theorem faults_of_exec (hf : s.fault = false) (he : exec i s = .next t) (ht : t.fault = true) :
    ∃ c, Faults s c i ∧ t = faultedState s (causeCode c) ((encode i).setWidth 64) := by
  by_contra hnone
  have hpass : ∀ c, ¬ Faults s c i := fun c hc =>
    hnone ⟨c, hc, next_inj ((hc.exec_eq_faultedState hf).symm.trans he)⟩
  obtain ⟨u, hu⟩ := completes_of_forall_not_faults hpass
  obtain rfl : t = u := next_inj (hu.exec_eq.symm.trans he)
  obtain ⟨hfault, -⟩ := hu.changesOnly .latch (latch_notMem_touches i)
  exact absurd (hfault.symm.trans ht) (by simp [hf])

/-- The codes of a decoded command (R281). -/
theorem Faults.causeCode_bounds (h : Faults s c i) : 2 ≤ (causeCode c).toNat ∧ (causeCode c).toNat ≤ 6 := by
  cases h <;> decide

theorem causeCode_eq_two_iff : causeCode c = 0x02 ↔ c = .unconstructed := by cases c <;> decide

theorem faults_unconstructed_iff : Faults s .unconstructed i ↔ Unconstructed s i :=
  ⟨fun h => by cases h with | unconstructed hi => exact hi, .unconstructed⟩

end

/-! ## What the fault of a command records (R281, R283 to R291) -/

/-- Settles O22: such a command failed a check of its own. -/
theorem commandFaultsArePrecise : Obligations.CommandFaultsArePrecise := by
  intro i s t hf he ht
  obtain ⟨c, hc, rfl⟩ := faults_of_exec hf he ht
  obtain ⟨hlow, hhigh⟩ := hc.causeCode_bounds
  exact ⟨causeCode c, hlow, hhigh, rfl⟩

/-- Settles O25, check by check: what exceeds the RAM whatever the draws are does not fit with the command's own. -/
theorem uniVibeOperandChecksInOrder : Obligations.UniVibeOperandChecksInOrder := by
  refine ⟨fun s hf => ⟨fun hsr => ?rate, fun hsr h0 => ?noStages, fun hsr h0 hn => ?stages,
    fun hsr h0 hn hcap => ?capacity⟩, fun s hf hok => ⟨fun hsr => ?setSrRate, fun hsr hcap => ?setSrCapacity⟩⟩
  case rate => exact (Faults.newRate hsr).exec_eq_faultedState hf
  case noStages => exact (Faults.newNoStages hsr (congrArg BitVec.toNat h0)).exec_eq_faultedState hf
  case stages => exact (Faults.newStages hsr (fun h => h0 (BitVec.eq_of_toNat_eq h)) hn).exec_eq_faultedState hf
  case capacity =>
    exact (Faults.newCapacity hsr (fun h => h0 (BitVec.eq_of_toNat_eq h)) hn
      (uvCapFits_of_exceeds hcap s.draws)).exec_eq_faultedState hf
  case setSrRate => exact (Faults.setSrRate hok hsr).exec_eq_faultedState hf
  case setSrCapacity => exact (Faults.setSrCapacity hok hsr (uvCapFits_of_exceeds hcap s.draws)).exec_eq_faultedState hf

/-- Settles O27: one short stage below `n` fails the check of R213. -/
theorem shortStageFaults : Obligations.ShortStageFaults := by
  intro s k hf hok hn hk hlen
  have hshort : shortStage s (uintOf s.arg4) = true := (shortStage_iff s _).2 ⟨k, hk, hlen⟩
  exact (Faults.procShort hok hn hshort).exec_eq_faultedState hf

/-- Settles O23: both directions of `faults_unconstructed_iff`, since no other cause has that code. -/
theorem unconstructedUnitsFault : Obligations.UnconstructedUnitsFault := by
  refine ⟨fun i s hf hi => (Faults.unconstructed hi).exec_eq_faultedState hf, fun i s t hf he ht hcode => ?_⟩
  obtain ⟨c, hc, rfl⟩ := faults_of_exec hf he ht
  obtain rfl := causeCode_eq_two_iff.1 hcode
  exact faults_unconstructed_iff.1 hc

/-- Settles O24, the stage checks of the four commands that have one. -/
theorem stageRangeFaults : Obligations.StageRangeFaults := by
  refine ⟨fun s k hf hk => ?_, fun s hf hok hn => (Faults.procStages hok hn).exec_eq_faultedState hf⟩
  have hfault (i : Instr) (hi : i = .apNew k ∨ i = .apReset k ∨ i = .apSetFb k) :
      exec i s = .next (faultedState s 0x03 ((encode i).setWidth 64)) :=
    (Faults.noStage hi hk).exec_eq_faultedState hf
  exact ⟨hfault _ (.inl rfl), hfault _ (.inr (.inl rfl)), hfault _ (.inr (.inr rfl))⟩

/-- Settles O26, the capacity of `AP.NEW` and the order of `FIR.NEW`. -/
theorem oversizedRequestsFault : Obligations.OversizedRequestsFault :=
  fun _ hf => ⟨fun _ hk hcap => (Faults.apCapacity hk hcap).exec_eq_faultedState hf,
    fun hn => (Faults.firOrder hn).exec_eq_faultedState hf⟩

/-! ## Words that are not run (R282, R292) -/

/-- Settles O6: an illegal word is recorded in `CMD` and raises the fault of R98. -/
theorem illegalWordLatchesIllegalCmd : Obligations.IllegalWordLatchesIllegalCmd := by
  intro s v rest r hp hr hf hd
  rw [step_cons hp hr, transact, busWrite_zero, issue_of_illegal (s := { s with pending := rest }) hf hd,
    State.raise_of_clear (s := State.setCmd { s with pending := rest } (v.setWidth 32)) hf]
  rfl

/-- Settles O7: the issue of a word asks for the latch before it decodes. -/
theorem commandsAreDiscardedWhileFaulted : Obligations.CommandsAreDiscardedWhileFaulted := by
  intro s v rest hp hr hf
  rw [step_cons hp hr, transact, busWrite_zero, issue_of_fault (s := { s with pending := rest }) hf]

/-! ## The latch (R290, R293, R294) -/

/-- Settles O21, by whether a fault is latched. -/
theorem raiseRecordsOnlyTheFirstFault : Obligations.RaiseRecordsOnlyTheFirstFault :=
  fun _ c info => ⟨fun hf => State.raise_of_clear hf c info, fun hf => State.raise_of_set hf c info⟩

/-- Each of the two bits of a write to `STATUS` clears its own flags (R294). -/
theorem State.writeStatus_eq (s : State) (v : Word) : s.writeStatus v = { s with
    fault := s.fault && !v.getLsbD 0
    fcode := if v.getLsbD 0 = true then 0 else s.fcode
    finfo := if v.getLsbD 0 = true then 0 else s.finfo
    firWarn := s.firWarn && !v.getLsbD 1 } := by
  rw [State.writeStatus]
  cases v.getLsbD 0 <;> cases v.getLsbD 1 <;> simp [State.clearFault, State.clearFirWarn]

/-- Settles O19: the word at address 1 is `STATUS`, and its store is `writeStatus`. -/
theorem statusWriteClearsByOnes : Obligations.StatusWriteClearsByOnes := by
  intro s v rest hp hr
  have hstore : busStore { s with pending := rest } 0x00001 v = State.writeStatus { s with pending := rest } v :=
    busStore_of_some (l := .status) rfl rfl
  rw [step_cons hp hr, transact, busWrite_of_ne (by decide), hstore, State.writeStatus_eq]

end Sys2Proof.Machine

/-! The reset input and the hazards of the block (70_reset_and_hazards.md R320, R332): when a step answers a next state, what
the edges of the reset input do, and the NaN that stays in the IIR filter. -/

namespace Sys2Proof.Machine

/-! ## A block whose reset input is released answers (R19, R320) -/

/-- A command faults or completes, and either way it answers a next state. -/
theorem exec_answers (i : Instr) (s : State) : ∃ t, exec i s = .next t := by
  by_cases hfault : ∃ c, Faults s c i
  · obtain ⟨c, hc⟩ := hfault
    exact ⟨_, hc.exec_eq⟩
  · obtain ⟨t, ht⟩ := completes_of_forall_not_faults (not_exists.1 hfault)
    exact ⟨t, ht.exec_eq⟩

/-- A word presented to `CMD` is discarded, run or illegal (R90, R98, R292). -/
theorem issue_answers (w : CmdWord) (s : State) : ∃ t, issue w s = .next t := by
  cases hf : s.fault with
  | true => exact ⟨_, issue_of_fault hf w⟩
  | false =>
    cases hd : decode w with
    | command i => rw [issue_of_command hf hd]; exact exec_answers i _
    | illegal r => exact ⟨_, issue_of_illegal hf hd⟩

theorem busWrite_answers (s : State) (a : BusAddr) (v : Word) : ∃ t, busWrite s a v = .next t := by
  by_cases ha : a = 0
  · rw [ha, busWrite_zero]; exact issue_answers _ s
  · exact ⟨_, busWrite_of_ne ha v⟩

theorem transact_answers (s : State) (e : Event) : ∃ t, transact s e = .next t := by
  cases e with
  | rd | assertReset | releaseReset => exact ⟨_, rfl⟩
  | wr a v => exact busWrite_answers s a v
  | rdBytes a n => rw [transact]; split <;> exact ⟨_, rfl⟩
  | wrBytes a d =>
    rw [transact]
    split
    · exact busWrite_answers s _ _
    · exact ⟨_, rfl⟩

theorem step_answers {s : State} (hr : s.inReset = false) : ∃ t, step s = .next t := by
  cases hp : s.pending with
  | nil => exact ⟨s, step_nil hp⟩
  | cons e rest => rw [step_cons hp hr]; exact transact_answers _ e

/-! ## The state that the release of the reset input leaves (R40, R320) -/

section
variable (s : State)

/-- The draws, the host's transactions and the values read are not consulted by the address map. -/
theorem locate_hardReset (a : BusAddr) : locate s.hardReset a = locate (State.resetWith s.cfg) a := rfl

theorem loadLoc_hardReset (l : Loc) : loadLoc s.hardReset l = loadLoc (State.resetWith s.cfg) l := by cases l <;> rfl

/-- After a release every mapped word reads zero, as at reset. -/
theorem loadLoc_hardReset_eq_zero {a : BusAddr} {l : Loc} (hl : locate s.hardReset a = some l) :
    loadLoc s.hardReset l = 0 := by
  obtain ⟨hzero, -⟩ := resetRegistersReadZero s.cfg a l (locate_hardReset s a ▸ hl)
  exact (loadLoc_hardReset s l).trans hzero

end

/-- Settles O8, by the state of the reset input and what the host does next. -/
theorem stepAnswersUnlessResetIsAsserted : Obligations.StepAnswersUnlessResetIsAsserted := by
  refine ⟨fun s => step_answers, fun s rest hr hp => ?asserted, fun s rest hr hp => ?assertedAgain,
    fun s rest hr hp => ?releasedAgain, fun s _ => step_nil, fun s e rest hr hp he => ?refused,
    fun s rest hr hp => ?released⟩
  case asserted => exact step_cons hp hr
  case assertedAgain => exact step_cons_inReset hp hr
  case releasedAgain => exact step_cons hp hr
  case refused =>
    rw [step_cons_inReset hp hr]
    rcases he with ⟨a, rfl⟩ | ⟨a, v, rfl⟩ | ⟨a, n, rfl⟩ | ⟨a, d, rfl⟩ <;> rfl
  case released =>
    exact ⟨State.hardReset { s with pending := rest }, step_cons_inReset hp hr, rfl, rfl, rfl, rfl,
      fun a l => loadLoc_hardReset_eq_zero _⟩

/-! ## A NaN in the IIR filter (R144, R332) -/

/-- Settles O39: the product `a1*y1` is a NaN, so the sum is, and `RES` holds the same bits as `y1`. -/
theorem iirNanPersists : Obligations.IirNanPersists := by
  intro s hok hnan
  obtain ⟨t, d₁, d₂, d₃, hexec, hy1, hres, -⟩ := iirProcFiltersOneSample s hok
  have hprod : isNan s.cfg.fmtIir (fmul s.cfg.fmtIir d₃ s.iirA1 s.iirY1) = true := isNan_fmul_of_nan d₃ (.inr hnan)
  have hsum : isNan s.cfg.fmtIir t.iirY1 = true := hy1 ▸ isNan_fadd_of_nan d₁ (.inr hprod)
  exact ⟨t, hexec, hsum, hres ▸ hsum⟩

end Sys2Proof.Machine

/-! The words of the test vectors (95_test_vectors.md ENC-1, ENC-2). -/

namespace Sys2Proof

/-! ## The three reasons a word is illegal, in the order of R99 -/

section
variable {w : CmdWord}

theorem decode_of_reservedField_ne (hz : reservedField w ≠ 0) : decode w = .illegal .reservedBits := if_neg hz

theorem decode_of_reservedField_eq (hz : reservedField w = 0) : decode w = decodeOp w := if_pos hz

theorem plainRow_of_stageField_ne (hs : stageField w ≠ 0) (i : Instr) : plainRow w i = .illegal .stageField := if_neg hs

end

/-- Settles O4: the legal words are the encodings of the commands listed, and each illegal word fails the check listed. -/
theorem sampleWordsDecodeAsListed : Obligations.SampleWordsDecodeAsListed := by
  have legal {w : CmdWord} {i : Instr} (hwf : i.wellFormed = true) (hw : encode i = w) : decode w = .command i :=
    decode_eq_command_iff.2 ⟨hwf, hw⟩
  refine ⟨legal rfl rfl, legal rfl rfl, legal rfl rfl, legal rfl rfl, legal rfl rfl, legal rfl rfl, legal rfl rfl,
    legal rfl rfl, ?stageField, ?reservedBits, ?unassignedOp⟩
  case stageField =>
    exact (decode_of_reservedField_eq (by decide)).trans (plainRow_of_stageField_ne (by decide) .iirNew)
  case reservedBits => exact decode_of_reservedField_ne (by decide)
  case unassignedOp => exact decode_of_reservedField_eq (by decide)

end Sys2Proof
